-- ==== Sys2Proof/Word.lean ====
section
/-! DEFINITION. Word.lean: the two word types of the block (00_scope.md R9). -/

namespace Sys2Proof

/-- Eight bits, numbered from 0, the least significant (00_scope.md R9). -/
abbrev Byte := BitVec 8

/-- Thirty-two bits: a register x[i], a host word, a descriptor (00_scope.md R9). -/
abbrev Word := BitVec 32

/-- Index of a register x[0] to x[15] (10_state.md R20). -/
abbrev XIndex := BitVec 4

end Sys2Proof
end

