-- ==== Sys2Proof/Config.lean ====
section
/-! DEFINITION. Config.lean: the constants of 00_scope.md R6 to R8, and the free values: constants
without a body, of which nothing can be proved but their type. -/

namespace Sys2Proof.Config

/-- HDR_LEN, the bytes of the fixed header (00_scope.md R6). -/
def hdrLen : Nat := 10

/-- PAY_MAX, the largest payload length (00_scope.md R7). -/
def payMax : Nat := 255

/-- FRAME_MAX, the longest frame (00_scope.md R7). -/
def frameMax : Nat := 267

/-- FRAME_MIN, the frame with an empty payload (00_scope.md R7). -/
def frameMin : Nat := 12

/-- SEED1 of the checksum (00_scope.md R6). -/
def seed1 : Nat := 0xAA

/-- SEED2 of the checksum (00_scope.md R6). -/
def seed2 : Nat := 0

/-- CS_MOD of the checksum (00_scope.md R6). -/
def csMod : Nat := 255

/-- RT_MIN_MAX, the largest minutes value of a refresh timer (00_scope.md R6). -/
def rtMinMax : Nat := 15

/-- RT_STEP, 3.75 seconds, as a register word with 16 fraction bits (00_scope.md R6, 43_packer.md R175). -/
def rtStep : Nat := 245760

/-- ACC_CAP, the bytes the accumulation buffer holds: the spec's value 512 (00_scope.md R8, log 16). -/
def accCap : Nat := 512

/-- FQ_DEPTH, the candidates the frame queue holds: the spec's value 4 (00_scope.md R8, log 16). -/
def fqDepth : Nat := 4

/-- FREE VALUE (10_state.md R34, log 7): what the unwritten byte at host offset `addr` of a memory holds,
`fill` counting the resets that left the memory's contents unspecified. -/
opaque freeFill (fill addr : Nat) : Byte

/-- FREE VALUE (44_host.md R199, log 8): what a host read of an unspecified value at offset `off` returns. -/
opaque freeRead (draw off : Nat) : Word

/-- FREE VALUE (43_packer.md R180, log 10): PAY[i] after a PACK that faulted. -/
opaque freePay (draw i : Nat) : Byte

/-- FREE VALUE (10_state.md R20, log 11): the x registers once CLRX or a reset made them unspecified. -/
opaque freeX (draw : Nat) : Vector Word 16

/-- FREE VALUE (10_state.md R34, log 11): the nine header bytes, the length byte and the known bit of `rxp`
once a reset made them unspecified, as one number. -/
opaque freeRxp (draw : Nat) : BitVec 81

end Sys2Proof.Config
end

