-- ==== Sys2Proof/Syntax.lean ====
section
/-! DEFINITION. Syntax.lean: the operations of the block, one constructor per row of
spec/opcode_table.json (00_scope.md R5). A field the spec marks as ignored is no argument. -/

namespace Sys2Proof

/-- The operations of the ClimateTalk RS-485 frame engine. -/
inductive Instr where
  /-- A line sample with no event (30_encoding.md R68). -/
  | noevent
  /-- Byte `b` has arrived (40_delimiter.md R91). -/
  | rxbyte (b : Byte)
  /-- One tick has passed (40_delimiter.md R92). -/
  | tick
  /-- Byte `b`, then a tick, in one sample (40_delimiter.md R97). -/
  | rxbyteTick (b : Byte)
  /-- Host command without effect (44_host.md R192). -/
  | nop
  /-- Build the payload of command `code` (43_packer.md R154). -/
  | pack (code : BitVec 16)
  /-- Parse the received payload (43_packer.md R155). -/
  | unpack
  /-- Lay out the frame (42_codec.md R121). -/
  | encode
  /-- Start handing the frame to the transport (42_codec.md R129). -/
  | send
  /-- Free the packet slot (42_codec.md R128). -/
  | rxpop
  /-- Receiver on (44_host.md R193). -/
  | rxen
  /-- Receiver off, cleanly (44_host.md R194). -/
  | rxdis
  /-- Clear the valid bits of the x registers (44_host.md R195). -/
  | clrx
  /-- Soft reset (44_host.md R196). -/
  | softreset
  /-- A reserved opcode, 0x0A to 0xFF (30_encoding.md R75). -/
  | reservedCmd (op : Byte) (arg : BitVec 16)
  /-- Descriptor: the shape ends (43_packer.md R157). -/
  | endShape
  /-- Descriptor: enumerated byte of set `set` (43_packer.md R160). -/
  | enum8 (xr : XIndex) (set : BitVec 5)
  /-- Descriptor: N-bit two's complement, both width and order as fields (43_packer.md R163). -/
  | twos (xr : XIndex) (w16 le : Bool) (n : BitVec 5)
  /-- TWOS with W16 = 0 (30_encoding.md R78). -/
  | twos8 (xr : XIndex) (n : BitVec 5)
  /-- TWOS with W16 = 1, LE = 0 (30_encoding.md R78). -/
  | twos16be (xr : XIndex) (n : BitVec 5)
  /-- TWOS with W16 = 1, LE = 1 (30_encoding.md R78). -/
  | twos16le (xr : XIndex) (n : BitVec 5)
  /-- Descriptor: fixed-point scaled quantity, width, order and sign as fields (43_packer.md R166). -/
  | fixp (xr : XIndex) (w16 le sgn : Bool) (s : BitVec 16)
  /-- FIXP with W16 = 0 (30_encoding.md R78). -/
  | fixp8 (xr : XIndex) (sgn : Bool) (s : BitVec 16)
  /-- FIXP with W16 = 1, LE = 0 (30_encoding.md R78). -/
  | fixp16be (xr : XIndex) (sgn : Bool) (s : BitVec 16)
  /-- FIXP with W16 = 1, LE = 1 (30_encoding.md R78). -/
  | fixp16le (xr : XIndex) (sgn : Bool) (s : BitVec 16)
  /-- Descriptor: one field of a config byte (43_packer.md R170). -/
  | bitf (xr : XIndex) (adv : Bool) (wid : BitVec 4) (pos : BitVec 3)
  /-- Descriptor: variable-length tail (43_packer.md R173). -/
  | tail
  /-- Descriptor: refresh-timer byte, `xr` minutes, `xr2` seconds (43_packer.md R175). -/
  | rtimer (xr xr2 : XIndex)
  /-- Descriptor of a reserved kind, 0x7 to 0xF (30_encoding.md R76). -/
  | reservedKind (kind xr xr2 : BitVec 4) (w16 le sgn adv : Bool) (param : BitVec 16)
  /-- `BITF xR, pos=0, wid=8, adv` (30_encoding.md R79). -/
  | u8 (xr : XIndex)
  /-- `BITF xR, pos=P, wid=1[, adv]` (30_encoding.md R79). -/
  | bit (xr : XIndex) (adv : Bool) (pos : BitVec 3)
  /-- `TWOS8 xR, n=8` (30_encoding.md R79). -/
  | s8 (xr : XIndex)
  /-- `TWOS16BE xR, n=16` (30_encoding.md R79). -/
  | s16be (xr : XIndex)
  /-- `TWOS16LE xR, n=16` (30_encoding.md R79). -/
  | s16le (xr : XIndex)
  /-- The step of agent DEC (42_codec.md R124). -/
  | decode
  /-- The step of agent TXU (42_codec.md R130). -/
  | txbyte
  /-- Close the open accumulation (40_delimiter.md R94). -/
  | flush
  /-- The checksum of a byte sequence (41_checksum.md R110). -/
  | csum (bytes : List Byte)
  /-- A valid catalogue entry (30_encoding.md R73). -/
  | cmdtabEntry (start : Byte) (code : BitVec 16)
  deriving DecidableEq, Repr

end Sys2Proof
end

