-- ==== Sys2Proof/WellFormed.lean ====
section
/-! DEFINITION. WellFormed.lean: which terms of Instr stand for a row of the opcode table, and which of
those is the spelling the decoder answers. -/

namespace Sys2Proof.Instr

/-- The range a reserved row names: OP 0x0A to 0xFF (30_encoding.md R75), KIND 0x7 to 0xF (R76). Every
other field may hold any value its width admits: an illegal PARAM is encodable, and executing it raises
ShapeFault (43_packer.md R156). -/
def wellFormed : Instr → Bool
  | .reservedCmd op _ => 0x0A ≤ op.toNat
  | .reservedKind kind _ _ _ _ _ _ _ => 7 ≤ kind.toNat
  | .noevent | .rxbyte _ | .tick | .rxbyteTick _ | .nop | .pack _ | .unpack | .encode | .send | .rxpop
  | .rxen | .rxdis | .clrx | .softreset | .endShape | .enum8 _ _ | .twos _ _ _ _ | .twos8 _ _
  | .twos16be _ _ | .twos16le _ _ | .fixp _ _ _ _ _ | .fixp8 _ _ _ | .fixp16be _ _ _ | .fixp16le _ _ _
  | .bitf _ _ _ _ | .tail | .rtimer _ _ | .u8 _ | .bit _ _ _ | .s8 _ | .s16be _ | .s16le _ | .decode
  | .txbyte | .flush | .csum _ | .cmdtabEntry _ _ => true

/-- The most specific spelling of an instruction among the rows whose words it shares (30_encoding.md R78,
R79, log 5): a word has one meaning, whichever row names it. -/
def canon : Instr → Instr
  | .twos xr w16 le n =>
    if w16 then
      if le then (if n = 16 then .s16le xr else .twos16le xr n)
      else (if n = 16 then .s16be xr else .twos16be xr n)
    else (if n = 8 then .s8 xr else .twos8 xr n)
  | .twos8 xr n => if n = 8 then .s8 xr else .twos8 xr n
  | .twos16be xr n => if n = 16 then .s16be xr else .twos16be xr n
  | .twos16le xr n => if n = 16 then .s16le xr else .twos16le xr n
  | .fixp xr w16 le sgn s =>
    if w16 then (if le then .fixp16le xr sgn s else .fixp16be xr sgn s) else .fixp8 xr sgn s
  | .bitf xr adv wid pos =>
    if wid = 8 ∧ pos = 0 ∧ adv = true then .u8 xr
    else if wid = 1 then .bit xr adv pos
    else .bitf xr adv wid pos
  | .noevent => .noevent
  | .rxbyte b => .rxbyte b
  | .tick => .tick
  | .rxbyteTick b => .rxbyteTick b
  | .nop => .nop
  | .pack code => .pack code
  | .unpack => .unpack
  | .encode => .encode
  | .send => .send
  | .rxpop => .rxpop
  | .rxen => .rxen
  | .rxdis => .rxdis
  | .clrx => .clrx
  | .softreset => .softreset
  | .reservedCmd op arg => .reservedCmd op arg
  | .endShape => .endShape
  | .enum8 xr set => .enum8 xr set
  | .fixp8 xr sgn s => .fixp8 xr sgn s
  | .fixp16be xr sgn s => .fixp16be xr sgn s
  | .fixp16le xr sgn s => .fixp16le xr sgn s
  | .tail => .tail
  | .rtimer xr xr2 => .rtimer xr xr2
  | .reservedKind kind xr xr2 w16 le sgn adv param => .reservedKind kind xr xr2 w16 le sgn adv param
  | .u8 xr => .u8 xr
  | .bit xr adv pos => .bit xr adv pos
  | .s8 xr => .s8 xr
  | .s16be xr => .s16be xr
  | .s16le xr => .s16le xr
  | .decode => .decode
  | .txbyte => .txbyte
  | .flush => .flush
  | .csum bytes => .csum bytes
  | .cmdtabEntry start code => .cmdtabEntry start code

/-- The instruction is written in its most specific spelling. -/
def canonical (i : Instr) : Bool := decide (i.canon = i)

end Sys2Proof.Instr
end

