-- ==== Sys2Proof/Decode.lean ====
section
/-! DEFINITION. Decode.lean: from the words of 30_encoding.md to Instr and back. Where a word is read
decides what it is: a line sample (R68), a word written to CMD (R69, R70), a word of SHM (R71, R72), a word
of CMDTAB (R73). The four rows no bits select (DECODE, TXBYTE, FLUSH, CSUM) have no code. -/

namespace Sys2Proof

/-- A word together with the place it is read from. -/
inductive Code where
  /-- The line sample {tick, rx_valid, rx_data} (30_encoding.md R68). -/
  | line (w : BitVec 10)
  /-- A word written to CMD (30_encoding.md R69). -/
  | cmd (w : Word)
  /-- A word of SHM (30_encoding.md R71). -/
  | desc (w : Word)
  /-- A word of CMDTAB (30_encoding.md R73). -/
  | entry (w : Word)
  deriving DecidableEq, Repr

/-- Why a code is no instruction. -/
inductive Reject where
  /-- A CMDTAB word with valid = 0: no entry (30_encoding.md R73). -/
  | entryNotValid
  /-- A number of bits no row of the opcode table has. -/
  | noSuchWidth
  deriving DecidableEq, Repr

/-- Bits `lo + n - 1` down to `lo` of a word. -/
def bits (w : Word) (lo n : Nat) : BitVec n := w.extractLsb' lo n

/-- The line sample's event (30_encoding.md R68). -/
def decodeLine (w : BitVec 10) : Instr :=
  let b := w.extractLsb' 0 8
  if w.getLsbD 9 then
    if w.getLsbD 8 then .rxbyteTick b else .tick
  else
    if w.getLsbD 8 then .rxbyte b else .noevent

/-- The host command of a word written to CMD: OP = word[31:24], ARG = word[15:0] (30_encoding.md R69, R70). -/
def decodeCmd (w : Word) : Instr :=
  match (bits w 24 8).toNat with
  | 0x00 => .nop
  | 0x01 => .pack (bits w 0 16)
  | 0x02 => .unpack
  | 0x03 => .encode
  | 0x04 => .send
  | 0x05 => .rxpop
  | 0x06 => .rxen
  | 0x07 => .rxdis
  | 0x08 => .clrx
  | 0x09 => .softreset
  | _ => .reservedCmd (bits w 24 8) (bits w 0 16)

/-- The descriptor of a word of SHM before the choice of a spelling: KIND = word[31:28] and the operand
fields of 30_encoding.md R71, R72, R80. -/
def decodeKind (w : Word) : Instr :=
  let xr := bits w 24 4
  let xr2 := bits w 20 4
  let w16 := w.getLsbD 19
  let le := w.getLsbD 18
  let sgn := w.getLsbD 17
  let adv := w.getLsbD 16
  match (bits w 28 4).toNat with
  | 0x0 => .endShape
  | 0x1 => .enum8 xr (bits w 0 5)
  | 0x2 => .twos xr w16 le (bits w 0 5)
  | 0x3 => .fixp xr w16 le sgn (bits w 0 16)
  | 0x4 => .bitf xr adv (bits w 4 4) (bits w 0 3)
  | 0x5 => .tail
  | 0x6 => .rtimer xr xr2
  | _ => .reservedKind (bits w 28 4) xr xr2 w16 le sgn adv (bits w 0 16)

/-- The descriptor of a word of SHM, in its most specific spelling (log 5). -/
def decodeDesc (w : Word) : Instr := (decodeKind w).canon

/-- The catalogue entry of a word of CMDTAB (30_encoding.md R73). -/
def decodeEntry (w : Word) : Except Reject Instr :=
  if w.getLsbD 31 then .ok (.cmdtabEntry (bits w 16 8) (bits w 0 16)) else .error .entryNotValid

/-- The instruction of a code: total on every word, a rejected one by name. -/
def decode : Code → Except Reject Instr
  | .line w => .ok (decodeLine w)
  | .cmd w => .ok (decodeCmd w)
  | .desc w => .ok (decodeDesc w)
  | .entry w => decodeEntry w

/-! The encoder. A bit marked ignored is written 0 (30_encoding.md R71). -/

/-- One bit at place `k` of a word. -/
def bitAt (b : Bool) (k : Nat) : Word := (BitVec.ofBool b).setWidth 32 <<< k

/-- A field at place `k` of a word. -/
def fieldAt {n : Nat} (v : BitVec n) (k : Nat) : Word := v.setWidth 32 <<< k

/-- The line sample {tick, rx_valid, rx_data} (30_encoding.md R68). -/
def lineSample (tick valid : Bool) (b : Byte) : BitVec 10 :=
  (BitVec.ofBool tick ++ BitVec.ofBool valid ++ b).cast rfl

/-- A command word of opcode `op` and argument `arg` (30_encoding.md R69). -/
def cmdWord (op : Byte) (arg : BitVec 16) : Word := fieldAt op 24 ||| fieldAt arg 0

/-- A descriptor word of kind `kind` and register `xr`; the other fields are or-ed in (30_encoding.md R71). -/
def descWord (kind xr : BitVec 4) : Word := fieldAt kind 28 ||| fieldAt xr 24

/-- The word of a TWOS descriptor (30_encoding.md R72). -/
def twosWord (xr : XIndex) (w16 le : Bool) (n : BitVec 5) : Word :=
  descWord 2 xr ||| bitAt w16 19 ||| bitAt le 18 ||| fieldAt n 0

/-- The word of a FIXP descriptor (30_encoding.md R72). -/
def fixpWord (xr : XIndex) (w16 le sgn : Bool) (s : BitVec 16) : Word :=
  descWord 3 xr ||| bitAt w16 19 ||| bitAt le 18 ||| bitAt sgn 17 ||| fieldAt s 0

/-- The word of a BITF descriptor (30_encoding.md R72). -/
def bitfWord (xr : XIndex) (adv : Bool) (wid : BitVec 4) (pos : BitVec 3) : Word :=
  descWord 4 xr ||| bitAt adv 16 ||| fieldAt wid 4 ||| fieldAt pos 0

/-- The code of an instruction; none for the four rows no bits select. -/
def encode : Instr → Option Code
  | .noevent => some (.line (lineSample false false 0))
  | .rxbyte b => some (.line (lineSample false true b))
  | .tick => some (.line (lineSample true false 0))
  | .rxbyteTick b => some (.line (lineSample true true b))
  | .nop => some (.cmd (cmdWord 0x00 0))
  | .pack code => some (.cmd (cmdWord 0x01 code))
  | .unpack => some (.cmd (cmdWord 0x02 0))
  | .encode => some (.cmd (cmdWord 0x03 0))
  | .send => some (.cmd (cmdWord 0x04 0))
  | .rxpop => some (.cmd (cmdWord 0x05 0))
  | .rxen => some (.cmd (cmdWord 0x06 0))
  | .rxdis => some (.cmd (cmdWord 0x07 0))
  | .clrx => some (.cmd (cmdWord 0x08 0))
  | .softreset => some (.cmd (cmdWord 0x09 0))
  | .reservedCmd op arg => some (.cmd (cmdWord op arg))
  | .endShape => some (.desc (descWord 0 0))
  | .enum8 xr set => some (.desc (descWord 1 xr ||| fieldAt set 0))
  | .twos xr w16 le n => some (.desc (twosWord xr w16 le n))
  | .twos8 xr n => some (.desc (twosWord xr false false n))
  | .twos16be xr n => some (.desc (twosWord xr true false n))
  | .twos16le xr n => some (.desc (twosWord xr true true n))
  | .fixp xr w16 le sgn s => some (.desc (fixpWord xr w16 le sgn s))
  | .fixp8 xr sgn s => some (.desc (fixpWord xr false false sgn s))
  | .fixp16be xr sgn s => some (.desc (fixpWord xr true false sgn s))
  | .fixp16le xr sgn s => some (.desc (fixpWord xr true true sgn s))
  | .bitf xr adv wid pos => some (.desc (bitfWord xr adv wid pos))
  | .tail => some (.desc (descWord 5 0))
  | .rtimer xr xr2 => some (.desc (descWord 6 xr ||| fieldAt xr2 20))
  | .reservedKind kind xr xr2 w16 le sgn adv param =>
    some (.desc (descWord kind xr ||| fieldAt xr2 20 ||| bitAt w16 19 ||| bitAt le 18 ||| bitAt sgn 17
      ||| bitAt adv 16 ||| fieldAt param 0))
  | .u8 xr => some (.desc (bitfWord xr true 8 0))
  | .bit xr adv pos => some (.desc (bitfWord xr adv 1 pos))
  | .s8 xr => some (.desc (twosWord xr false false 8))
  | .s16be xr => some (.desc (twosWord xr true false 16))
  | .s16le xr => some (.desc (twosWord xr true true 16))
  | .decode => none
  | .txbyte => none
  | .flush => none
  | .csum _ => none
  | .cmdtabEntry start code => some (.entry (bitAt true 31 ||| fieldAt start 16 ||| fieldAt code 0))

/-- The place a 32-bit word of spec/opcode_table.json is taken from. The table's rows overlap across places
(its all-zero word is NOP at CMD and END in SHM), and a number alone does not say the place: words with OP
up to 0x0A are read as commands, words of KIND 8 to 15 as catalogue entries, the others as descriptors
(DESIGN CHOICE, log 4). -/
def tableCode (w : Word) : Code :=
  if (bits w 24 8).toNat ≤ 0x0A then .cmd w
  else if w.getLsbD 31 then .entry w
  else .desc w

/-- The code of the `nbits` low bits of `w`: 10 bits (two bytes) are a line sample, 32 a word. -/
def codeOfTableWord (nbits w : Nat) : Except Reject Code :=
  if (nbits = 10 ∨ nbits = 16) ∧ w < 2 ^ 10 then .ok (.line (BitVec.ofNat 10 w))
  else if nbits = 32 then .ok (tableCode (BitVec.ofNat 32 w))
  else .error .noSuchWidth

/-- The instruction the decoder reads from a row's word of spec/opcode_table.json. -/
def decodeTableWord (nbits w : Nat) : Option Instr :=
  match codeOfTableWord nbits w with
  | .error _ => none
  | .ok c =>
    match decode c with
    | .error _ => none
    | .ok i => some i

end Sys2Proof
end

