-- ==== Sys2Proof/Machine/State.lean ====
section
/-! DEFINITION. Machine/State.lean: the architectural state of 10_state.md as plain data, its reset value
(10_state.md R34), and the reasons a step could stop. -/

namespace Sys2Proof.Machine

/-- Outcome of the last shape program (10_state.md R21). -/
inductive PkState where
  /-- 0 -/
  | idle
  /-- 1 -/
  | done
  /-- 2 -/
  | fault
  deriving DecidableEq, Repr

/-- Direction of a shape program (10_state.md R21): `pack` is 0, `unpack` is 1. -/
inductive Dir where
  | pack
  | unpack
  deriving DecidableEq, Repr

/-- A candidate frame; its `len` is the number of its bytes (10_state.md R12). -/
structure Candidate where
  bytes : List Byte
  ovf : Bool
  deriving DecidableEq, Repr

/-- The frame delimiter; `acc` holds the `acc_len` bytes appended so far (10_state.md R11, log 17). -/
structure Fd where
  rxEn : Bool
  ict : BitVec 16
  acc : List Byte
  accOvf : Bool
  deriving DecidableEq, Repr

/-- The header fields of a decoded packet and its `known` bit (10_state.md R13). -/
structure Packet where
  dst : Byte
  src : Byte
  subnet : Byte
  sendMethod : Byte
  sp0 : Byte
  sp1 : Byte
  srcNodeType : Byte
  msgType : Byte
  dataFlow : Bool
  pktNum : BitVec 7
  plen : Byte
  known : Bool
  deriving DecidableEq, Repr

/-- The packet slot (10_state.md R13). -/
structure Dec where
  rxpValid : Bool
  rxp : Packet
  deriving DecidableEq, Repr

/-- The log of the receive pipeline (10_state.md R14). -/
structure RxLog where
  rxerrCode : Byte
  rxerrLen : BitVec 10
  cntFfe : BitVec 16
  cntCsum : BitVec 16
  cntDrop : BitVec 16
  cntOk : BitVec 16
  deriving DecidableEq, Repr

/-- The staged header `hdr[0..8]` (10_state.md R15). -/
structure Header where
  dst : Byte
  src : Byte
  subnet : Byte
  sendMethod : Byte
  sp0 : Byte
  sp1 : Byte
  srcNodeType : Byte
  msgType : Byte
  pktByte : Byte
  deriving DecidableEq, Repr

/-- The encode and transmit state (10_state.md R15, R18, R19). -/
structure Tx where
  hdr : Header
  txLen : BitVec 9
  encValid : Bool
  txBusy : Bool
  txIdx : BitVec 9
  txg : BitVec 16
  deriving DecidableEq, Repr

/-- The packer: payload and tail staging, registers, program counter, cursor (10_state.md R16, R17, R20, R21). -/
structure Cpp where
  plen : Byte
  payOk : Bool
  tailLen : Byte
  x : Vector Word 16
  xv : BitVec 16
  pc : Byte
  cur : Byte
  pkState : PkState
  pkDir : Dir
  cmdCode : BitVec 16
  deriving DecidableEq, Repr

/-- The last fault or refusal of a host command (10_state.md R31). -/
structure OpErr where
  opCode : Byte
  opPc : Byte
  opCur : Byte
  deriving DecidableEq, Repr

/-- The interrupt registers (10_state.md R29). -/
structure Irq where
  irqPend : BitVec 6
  irqEn : BitVec 6
  deriving DecidableEq, Repr

/-- The configuration registers (10_state.md R25, R26, R27). -/
structure Cfg where
  tieEven : Bool
  cc16 : Bool
  tChar : BitVec 16
  tPkt : BitVec 16
  tTxIdle : BitVec 16
  mtReg : BitVec 256
  deriving DecidableEq, Repr

/-- The memories behind the host windows (10_state.md R32), keyed by host bus offset: (offset, byte) pairs in
the canonical form of `Memory.wf` (Machine/Ops.lean). -/
abbrev Memory := List Host.Cell

/-- What the environment does next (10_state.md R10, R35; log 1). -/
inductive Event where
  /-- LINE delivers the sample {tick, rx_valid, rx_data}. -/
  | sample (w : BitVec 10)
  /-- HOST reads the register or window location at a byte offset. -/
  | hostRead (off : BitVec 16)
  /-- HOST writes `data` there. -/
  | hostWrite (off : BitVec 16) (data : Word)
  /-- DEC is given its turn. -/
  | decTurn
  /-- The transport asserts tx_ready: TXU is given its turn. -/
  | txReady
  /-- A clock with rst = 1. -/
  | rst
  deriving DecidableEq, Repr

/-- The MODEL's own fields: the environment's pending choices, what left the block, and the counters that
select free values (logs 1, 7, 8, 13, 18). -/
structure Env where
  pending : List Event
  rdata : Word
  txOut : List Byte
  csumOut : Byte × Byte
  bufFill : Nat
  catFill : Nat
  draw : Nat
  deriving DecidableEq, Repr

/-- The state of the block, unit by unit (10_state.md R11 to R27). -/
structure State where
  fd : Fd
  fq : List Candidate
  dec : Dec
  log : RxLog
  tx : Tx
  cpp : Cpp
  op : OpErr
  irq : Irq
  cfg : Cfg
  mem : Memory
  env : Env
  deriving DecidableEq, Repr

/-- Why the machine would stop. It never does: "The block never halts" (70_reset_and_hazards.md R250), every
exception of the spec is a next state (60_exceptions.md R215). -/
inductive Fault where
  /-- Raised by nobody: it stands so that the type has a value to print. Safe (log 21). -/
  | unreachable
  deriving DecidableEq, Repr

/-- Why an instruction would have no meaning. A refusal of the spec (44_host.md R200) is no such refusal: it
is a next state. -/
inductive Refusal where
  /-- Raised by an arm of `exec` whose instruction has no meaning yet: there is none. Safe. -/
  | notModelled (mnemonic : String)
  deriving DecidableEq, Repr

/-- The packet slot's fields at reset: unspecified by 10_state.md R34, zero here (DESIGN CHOICE, unsafe, log 6). -/
def Packet.zero : Packet :=
  { dst := 0, src := 0, subnet := 0, sendMethod := 0, sp0 := 0, sp1 := 0, srcNodeType := 0, msgType := 0,
    dataFlow := false, pktNum := 0, plen := 0, known := false }

/-- The staged header at reset (10_state.md R34). -/
def Header.zero : Header :=
  { dst := 0, src := 0, subnet := 0, sendMethod := 0, sp0 := 0, sp1 := 0, srcNodeType := 0, msgType := 0,
    pktByte := 0 }

/-- The block right after hard reset (10_state.md R34, 70_reset_and_hazards.md R240). The x registers and
`rxp` are unspecified there and zero here (log 6); the model's own fields start empty (logs 1, 7, 8, 13, 18). -/
def State.reset : State where
  fd := { rxEn := false, ict := 0, acc := [], accOvf := false }
  fq := []
  dec := { rxpValid := false, rxp := Packet.zero }
  log := { rxerrCode := 0, rxerrLen := 0, cntFfe := 0, cntCsum := 0, cntDrop := 0, cntOk := 0 }
  tx := { hdr := Header.zero, txLen := 0, encValid := false, txBusy := false, txIdx := 0, txg := 0 }
  cpp := { plen := 0, payOk := false, tailLen := 0, x := Vector.replicate 16 0, xv := 0, pc := 0, cur := 0,
           pkState := .idle, pkDir := .pack, cmdCode := 0 }
  op := { opCode := 0, opPc := 0, opCur := 0 }
  irq := { irqPend := 0, irqEn := 0 }
  cfg := { tieEven := false, cc16 := false, tChar := 0, tPkt := 0, tTxIdle := 0, mtReg := 0 }
  mem := []
  env := { pending := [], rdata := 0, txOut := [], csumOut := (0, 0), bufFill := 0, catFill := 0, draw := 0 }

end Sys2Proof.Machine
end

