-- ==== Sys2Proof/Machine/Flags.lean ====
section
/-! DEFINITION. Machine/Flags.lean: saturating counters, the interrupt bits and output, and the STATUS view
(10_state.md R28, R29; 60_exceptions.md R222). -/

namespace Sys2Proof.Machine

/-- `sat16(v + 1)`: a 16-bit count that stays at 0xFFFF (00_scope.md R9). -/
def sat16Succ (v : BitVec 16) : BitVec 16 := if v = 0xFFFF then 0xFFFF else v + 1

/-- A Bool as the bit of weight 1. -/
def bit01 (b : Bool) : Word := if b then 1 else 0

/-- The six interrupt sources (10_state.md R29). -/
inductive IrqBit where
  | rxpkt
  | rxerr
  | accOvf
  | fqOvf
  | txdone
  | operr
  deriving DecidableEq, Repr

/-- The bit number of an interrupt source (10_state.md R29). -/
def irqIndex : IrqBit → Nat
  | .rxpkt => 0
  | .rxerr => 1
  | .accOvf => 2
  | .fqOvf => 3
  | .txdone => 4
  | .operr => 5

/-- The mask of an interrupt source in IRQ_PEND and IRQ_EN. -/
def irqMask (k : IrqBit) : BitVec 6 := 1 <<< irqIndex k

/-- Set one pending bit (10_state.md R29). -/
def raiseIrq (k : IrqBit) (s : State) : State :=
  { s with irq := { s.irq with irqPend := s.irq.irqPend ||| irqMask k } }

/-- The output `irq` (10_state.md R29, 60_exceptions.md R222). -/
def irqOut (s : State) : Bool := decide (s.irq.irqPend &&& s.irq.irqEn ≠ 0)

/-- The output `tx_valid` (42_codec.md R130). -/
def txValid (s : State) : Bool := s.tx.txBusy

/-- The number `pk_state` shows (10_state.md R21). -/
def pkStateCode : PkState → BitVec 2
  | .idle => 0
  | .done => 1
  | .fault => 2

/-- The number `pk_dir` shows (10_state.md R21). -/
def pkDirCode : Dir → BitVec 1
  | .pack => 0
  | .unpack => 1

/-- The STATUS register, a view of other state (10_state.md R28). -/
def statusWord (s : State) : Word :=
  bit01 s.fd.rxEn
  ||| bit01 (!s.fd.acc.isEmpty) <<< 1
  ||| bit01 (!s.fq.isEmpty) <<< 2
  ||| bit01 s.dec.rxpValid <<< 3
  ||| bit01 (s.dec.rxpValid && s.dec.rxp.known) <<< 4
  ||| bit01 s.tx.encValid <<< 5
  ||| bit01 s.tx.txBusy <<< 6
  ||| bit01 (decide (s.tx.txg ≠ 0)) <<< 7
  ||| (pkStateCode s.cpp.pkState).setWidth 32 <<< 8
  ||| (pkDirCode s.cpp.pkDir).setWidth 32 <<< 10
  ||| bit01 s.cpp.payOk <<< 11

end Sys2Proof.Machine
end

