-- ==== Sys2Proof/Machine/Ops.lean ====
section
/-! DEFINITION. Machine/Ops.lean: the named operations over memory and registers, the three entry rules of
60_exceptions.md (R216, R217) and 44_host.md (R200), and the two resets. -/

namespace Sys2Proof.Machine

/-! ## Memory (10_state.md R32) -/

/-- First offset of each window (10_state.md R32). -/
def payBase : Nat := 0x400
def tailBase : Nat := 0x500
def rxpayBase : Nat := 0x600
def txbBase : Nat := 0x800
def shmBase : Nat := 0x1000
def cmdtabBase : Nat := 0x1400
def esetBase : Nat := 0x1800

/-- `a` lies in the window of `n` offsets from `base`. -/
def inWindow (base n a : Nat) : Bool := decide (base ≤ a) && decide (a < base + n)

/-- The offsets behind which a byte exists (10_state.md R32). -/
def mapped (a : Nat) : Bool :=
  inWindow payBase 255 a || inWindow tailBase 255 a || inWindow rxpayBase 255 a || inWindow txbBase 267 a
  || inWindow shmBase 1024 a || inWindow cmdtabBase 512 a || inWindow esetBase 1024 a

/-- What an unlisted offset reads as: CMDTAB resets to all 0; nothing else has a reset content (10_state.md
R34), so a read there yields no value of the memory's own and the machine takes a free one (log 7). -/
def unlisted (a : Nat) : Option Byte := if inWindow cmdtabBase 512 a then some 0 else none

/-- The byte the memory holds at offset `a`. -/
def Memory.read? : Memory → Nat → Option Byte
  | [], a => unlisted a
  | (b, v) :: rest, a => if a = b then some v else Memory.read? rest a

/-- The cells of consecutive bytes from offset `a`, less those an unlisted offset would read as. -/
def cellsFrom : Nat → List Byte → Memory
  | _, [] => []
  | a, v :: rest => if unlisted a = some v then cellsFrom (a + 1) rest else (a, v) :: cellsFrom (a + 1) rest

/-- Write consecutive bytes from offset `base`: the one operation that changes memory. -/
def Memory.writeBlock (m : Memory) (base : Nat) (bs : List Byte) : Memory :=
  m.filter (fun c => decide (c.1 < base)) ++
    (cellsFrom base bs ++ m.filter (fun c => decide (base + bs.length ≤ c.1)))

/-- Forget what the offsets below `limit` hold. -/
def Memory.forgetBelow (m : Memory) (limit : Nat) : Memory := m.filter (fun c => decide (limit ≤ c.1))

/-- The canonical form: offsets strictly rising, and no cell equal to what an unlisted offset reads as. -/
abbrev Memory.wf (m : Memory) : Prop :=
  m.Pairwise (fun c d => c.1 < d.1) ∧ ∀ c ∈ m, unlisted c.1 ≠ some c.2

/-- Every listed offset exists (20_memory.md R48). -/
abbrev Memory.allMapped (m : Memory) : Prop := ∀ c ∈ m, mapped c.1 = true

/-- What an unwritten byte holds: a free value (log 7). -/
def fillByte (s : State) (a : Nat) : Byte :=
  Config.freeFill (if a < shmBase then s.env.bufFill else s.env.catFill) a

/-- The byte at offset `a` (00_scope.md R9, MemRead). -/
def byteAt (s : State) (a : Nat) : Byte := (Memory.read? s.mem a).getD (fillByte s a)

/-- `n` bytes from offset `a` on (00_scope.md R9). -/
def bytesAt (s : State) (a n : Nat) : List Byte := (List.range n).map (fun i => byteAt s (a + i))

/-- The word whose four bytes lie from offset `a` on, the lowest first (log 9). -/
def wordAt (s : State) (a : Nat) : Word :=
  byteAt s (a + 3) ++ byteAt s (a + 2) ++ byteAt s (a + 1) ++ byteAt s a

/-- The four bytes of a word, the lowest first (log 9). -/
def wordBytes (w : Word) : List Byte := [bits w 0 8, bits w 8 8, bits w 16 8, bits w 24 8]

/-- Store consecutive bytes (00_scope.md R9, MemWrite). -/
def store (a : Nat) (bs : List Byte) (s : State) : State := { s with mem := Memory.writeBlock s.mem a bs }

/-- Descriptor word `p` of SHM (10_state.md R22). -/
def shmWord (s : State) (p : Byte) : Word := wordAt s (shmBase + 4 * p.toNat)

/-- Membership of byte value `v` in closed set `set` (30_encoding.md R74). -/
def esetHas (s : State) (set : BitVec 5) (v : Nat) : Bool :=
  (wordAt s (esetBase + 32 * set.toNat + 4 * (v / 32))).getLsbD (v % 32)

/-- The `start` of a CMDTAB word that is valid and has the code (30_encoding.md R73). -/
def entryStart (w : Word) (code : BitVec 16) : Option Byte :=
  if w.getLsbD 31 && decide (bits w 0 16 = code) then some (bits w 16 8) else none

/-- The `start` of the valid entry of lowest index whose code is `code` (10_state.md R23). -/
def lookup (s : State) (code : BitVec 16) : Option Byte :=
  (List.range 128).findSome? (fun e => entryStart (wordAt s (cmdtabBase + 4 * e)) code)

/-! ## Registers (10_state.md R20) -/

/-- The value of register x[i], whatever its valid bit. -/
def xraw (s : State) (i : XIndex) : Word := s.cpp.x[i.toNat]'i.isLt

/-- The valid bit xv[i]. -/
def xvalid (s : State) (i : XIndex) : Bool := s.cpp.xv.getLsbD i.toNat

/-- `getx(i)`: no value while xv[i] = 0 (43_packer.md R151). -/
def getx (s : State) (i : XIndex) : Option Word := if xvalid s i then some (xraw s i) else none

/-- `x[i] <- w`, which sets xv[i] (00_scope.md R9). -/
def setx (i : XIndex) (w : Word) (s : State) : State :=
  { s with cpp := { s.cpp with
      x := s.cpp.x.set i.toNat w i.isLt
      xv := s.cpp.xv ||| ((1 : BitVec 16) <<< i.toNat) } }

/-- Register writes one after the other: the last write of a register wins (43_packer.md R151). -/
def setxs : List (XIndex × Word) → State → State
  | [], s => s
  | (i, w) :: rest, s => setxs rest (setx i w s)

/-- Every valid bit 0; the values become unspecified (44_host.md R195, log 11). -/
def clearX (s : State) : State :=
  { s with cpp := { s.cpp with x := Config.freeX s.env.draw, xv := 0 } }

/-- `cur <- cur + k`. -/
def advance (k : Nat) (s : State) : State :=
  { s with cpp := { s.cpp with cur := BitVec.ofNat 8 (s.cpp.cur.toNat + k) } }

/-- `pc <- p`. -/
def setPc (p : Byte) (s : State) : State := { s with cpp := { s.cpp with pc := p } }

/-! ## Taking an exception -/

/-- The exceptions a host command can raise (60_exceptions.md R218). -/
inductive OpFault where
  | enum
  | range
  | operand
  | overflow
  | unknownCommand
  | shapeFault
  | unpackUnderrun
  | unpackEnum
  deriving DecidableEq, Repr

/-- The codes of 60_exceptions.md R218. -/
def opFaultCode : OpFault → Byte
  | .enum => 0x10
  | .range => 0x11
  | .operand => 0x12
  | .overflow => 0x13
  | .unknownCommand => 0x14
  | .shapeFault => 0x20
  | .unpackUnderrun => 0x21
  | .unpackEnum => 0x22

/-- The two answers to a host that broke a sequencing rule (44_host.md R200). -/
inductive RefuseReason where
  | refused
  | badcmd
  deriving DecidableEq, Repr

/-- The codes of 44_host.md R200. -/
def refuseCode : RefuseReason → Byte
  | .refused => 0x30
  | .badcmd => 0x31

/-- The exceptions DECODE can raise (60_exceptions.md R211, R212). -/
inductive RxError where
  | ffeShort
  | ffeLength
  | checksum
  deriving DecidableEq, Repr

/-- The codes of 60_exceptions.md R218. -/
def rxErrorCode : RxError → Byte
  | .ffeShort => 0x01
  | .ffeLength => 0x02
  | .checksum => 0x03

/-- What PAY holds after a PACK that faulted: free values (43_packer.md R180, log 10). -/
def scramblePay (s : State) : State :=
  store payBase ((List.range 255).map (fun i => Config.freePay s.env.draw i)) s

/-- Host-command fault entry: code, descriptor index and cursor are recorded, `pk_state` becomes FAULT, OPERR
is pending (60_exceptions.md R217); in pack direction the bytes of PAY become unspecified (43_packer.md R180).
`pay_ok` and `plen` stay as they are: PACK has cleared them. -/
def opFaultEntry (f : OpFault) (p c : Byte) (s : State) : State :=
  let t := raiseIrq .operr { s with
    op := { opCode := opFaultCode f, opPc := p, opCur := c }
    cpp := { s.cpp with pkState := .fault } }
  match s.cpp.pkDir with
  | .pack => scramblePay t
  | .unpack => t

/-- A refusal: the code is recorded, OPERR is pending, nothing else changes (44_host.md R200). -/
def refuse (r : RefuseReason) (s : State) : State :=
  raiseIrq .operr { s with op := { opCode := refuseCode r, opPc := 0, opCur := 0 } }

/-- Receive-pipeline error entry for a candidate of `len` bytes (60_exceptions.md R216). -/
def rxErrorEntry (e : RxError) (len : Nat) (s : State) : State :=
  let log := { s.log with rxerrCode := rxErrorCode e, rxerrLen := BitVec.ofNat 10 len }
  raiseIrq .rxerr { s with log := match e with
    | .ffeShort => { log with cntFfe := sat16Succ log.cntFfe }
    | .ffeLength => { log with cntFfe := sat16Succ log.cntFfe }
    | .checksum => { log with cntCsum := sat16Succ log.cntCsum } }

/-! There is no return from an exception: nothing is suspended (60_exceptions.md R219). -/

/-! ## Reset -/

/-- The packet slot's fields once a reset left them unspecified: free values (10_state.md R34, log 11). -/
def freePacket (draw : Nat) : Packet :=
  let v := Config.freeRxp draw
  { dst := v.extractLsb' 0 8, src := v.extractLsb' 8 8, subnet := v.extractLsb' 16 8
    sendMethod := v.extractLsb' 24 8, sp0 := v.extractLsb' 32 8, sp1 := v.extractLsb' 40 8
    srcNodeType := v.extractLsb' 48 8, msgType := v.extractLsb' 56 8
    dataFlow := v.getLsbD 71, pktNum := v.extractLsb' 64 7
    plen := v.extractLsb' 72 8, known := v.getLsbD 80 }

/-- The SOFTRESET column of 10_state.md R34: the configuration, SHM, CMDTAB and ESET are kept, the byte
buffers become unspecified, everything else is as after hard reset. -/
def softReset (s : State) : State :=
  { State.reset with
    dec := { rxpValid := false, rxp := freePacket s.env.draw }
    cpp := { State.reset.cpp with x := Config.freeX s.env.draw }
    cfg := s.cfg
    mem := Memory.forgetBelow s.mem shmBase
    env := { s.env with bufFill := s.env.bufFill + 1 } }

/-- The hard-reset column of 10_state.md R34 (70_reset_and_hazards.md R240). -/
def hardReset (s : State) : State :=
  { State.reset with
    dec := { rxpValid := false, rxp := freePacket s.env.draw }
    cpp := { State.reset.cpp with x := Config.freeX s.env.draw }
    env := { s.env with bufFill := s.env.bufFill + 1, catFill := s.env.catFill + 1 } }

end Sys2Proof.Machine
end

