-- ==== Sys2Proof/Machine/Checksum.lean ====
section
/-! DEFINITION. Machine/Checksum.lean: the dual-sum checksum unit (41_checksum.md). -/

namespace Sys2Proof.Machine

/-- One byte of the running sums: sum2 uses the sum1 just updated (41_checksum.md R110). -/
def csumStep (sums : Nat × Nat) (b : Byte) : Nat × Nat :=
  let sum1 := (sums.1 + b.toNat) % Config.csMod
  (sum1, (sums.2 + sum1) % Config.csMod)

/-- The running sums over a byte sequence, from the seeds (41_checksum.md R110). -/
def csumSums (bytes : List Byte) : Nat × Nat := bytes.foldl csumStep (Config.seed1, Config.seed2)

/-- CSUM(B) = (check1, check2) (41_checksum.md R110). -/
def csum (bytes : List Byte) : Byte × Byte :=
  let sums := csumSums bytes
  let check1 := (sums.1 + sums.2) % Config.csMod
  let check2 := (sums.1 + check1) % Config.csMod
  (BitVec.ofNat 8 check1, BitVec.ofNat 8 check2)

/-- A byte sequence of at least two bytes whose last two are the checksum of the others (41_checksum.md R111). -/
def validates (frame : List Byte) : Bool :=
  decide (2 ≤ frame.length) &&
    decide (frame.drop (frame.length - 2) =
      [(csum (frame.take (frame.length - 2))).1, (csum (frame.take (frame.length - 2))).2])

/-- CSUM alone: a function writes nothing but its result (41_checksum.md R110), which the model leaves in
`csumOut` (log 13). -/
def execCsum (bytes : List Byte) (s : State) : Host.Outcome State Fault Refusal :=
  .next { s with env := { s.env with csumOut := csum bytes } }

end Sys2Proof.Machine
end

