-- ==== Sys2Proof/Machine/Codec.lean ====
section
/-! DEFINITION. Machine/Codec.lean: the packet codec and the transmit unit (42_codec.md). -/

namespace Sys2Proof.Machine

/-- The nine staged header bytes in frame order (10_state.md R15, 20_memory.md R40). -/
def headerBytes (h : Header) : List Byte :=
  [h.dst, h.src, h.subnet, h.sendMethod, h.sp0, h.sp1, h.srcNodeType, h.msgType, h.pktByte]

/-- Header, length byte and payload: the summed bytes of a frame (42_codec.md R121). -/
def frameBody (s : State) : List Byte :=
  headerBytes s.tx.hdr ++ s.cpp.plen :: bytesAt s payBase s.cpp.plen.toNat

/-- The frame ENCODE builds: the body and its two check bytes (42_codec.md R121). -/
def encodedFrame (s : State) : List Byte :=
  frameBody s ++ [(csum (frameBody s)).1, (csum (frameBody s)).2]

/-- ENCODE (42_codec.md R121). -/
def execEncode (s : State) : Host.Outcome State Fault Refusal :=
  if s.tx.txBusy || !s.cpp.payOk then .next (refuse .refused s)
  else
    let t := store txbBase (encodedFrame s) s
    .next { t with tx := { t.tx with txLen := BitVec.ofNat 9 (12 + s.cpp.plen.toNat), encValid := true } }

/-- Byte `k` of a candidate. -/
def frameByte (f : List Byte) (k : Nat) : Byte := f.getD k 0

/-- The tests of DECODE in their order; no error when the frame is valid (42_codec.md R124). -/
def frameError (f : List Byte) : Option RxError :=
  if f.length < Config.hdrLen then some .ffeShort
  else if f.length < Config.frameMin ∨ (frameByte f 9).toNat ≠ f.length - Config.frameMin then some .ffeLength
  else if validates f then none else some .checksum

/-- The header fields of a valid frame and the registry's answer (42_codec.md R124, 10_state.md R13). -/
def packetOf (mtReg : BitVec 256) (f : List Byte) : Packet :=
  { dst := frameByte f 0, src := frameByte f 1, subnet := frameByte f 2, sendMethod := frameByte f 3
    sp0 := frameByte f 4, sp1 := frameByte f 5, srcNodeType := frameByte f 6, msgType := frameByte f 7
    dataFlow := (frameByte f 8).getLsbD 7, pktNum := (frameByte f 8).extractLsb' 0 7
    plen := frameByte f 9, known := mtReg.getLsbD (frameByte f 7).toNat }

/-- The payload bytes of a valid frame (30_encoding.md R60). -/
def framePayload (f : List Byte) : List Byte := (f.drop 10).take (frameByte f 9).toNat

/-- Deliver the packet of a valid frame (42_codec.md R124). -/
def deliver (f : List Byte) (s : State) : State :=
  raiseIrq .rxpkt (store rxpayBase (framePayload f) { s with
    dec := { rxpValid := true, rxp := packetOf s.cfg.mtReg f }
    log := { s.log with cntOk := sat16Succ s.log.cntOk } })

/-- Judge a candidate: deliver it, or enter the receive error (42_codec.md R124, 60_exceptions.md R216). -/
def judge (f : List Byte) (s : State) : State :=
  match frameError f with
  | some e => rxErrorEntry e f.length s
  | none => deliver f s

/-- DEC's guard (10_state.md R10, 42_codec.md R125). -/
def decEnabled (s : State) : Bool := !s.fq.isEmpty && !s.dec.rxpValid

/-- DECODE; with its guard false DEC has no step and nothing changes (42_codec.md R124, R125, log 15). -/
def execDecode (s : State) : Host.Outcome State Fault Refusal :=
  if s.dec.rxpValid then .next s
  else
    match s.fq with
    | [] => .next s
    | c :: rest => .next (judge c.bytes { s with fq := rest })

/-- RXPOP (42_codec.md R128). -/
def execRxpop (s : State) : Host.Outcome State Fault Refusal :=
  if s.dec.rxpValid then .next { s with dec := { s.dec with rxpValid := false } }
  else .next (refuse .refused s)

/-- SEND (42_codec.md R129). -/
def execSend (s : State) : Host.Outcome State Fault Refusal :=
  if !s.tx.encValid || s.tx.txBusy || decide (s.tx.txg ≠ 0) then .next (refuse .refused s)
  else .next { s with tx := { s.tx with txBusy := true, txIdx := 0 } }

/-- The output `tx_data` while `tx_valid` is 1 (42_codec.md R130). -/
def txData (s : State) : Byte := byteAt s (txbBase + s.tx.txIdx.toNat)

/-- The frame's last byte has been handed over: the guard starts (42_codec.md R130). -/
def endFrame (s : State) : State :=
  raiseIrq .txdone { s with tx := { s.tx with txBusy := false, txg := s.cfg.tTxIdle } }

/-- TXBYTE with `tx_ready` = 1; while `tx_busy` = 0 TXU has no step and nothing changes (42_codec.md R130, log 15). -/
def execTxbyte (s : State) : Host.Outcome State Fault Refusal :=
  if s.tx.txBusy then
    let t : State := { s with
      tx := { s.tx with txIdx := s.tx.txIdx + 1 }
      env := { s.env with txOut := s.env.txOut ++ [txData s] } }
    .next (if t.tx.txIdx = t.tx.txLen then endFrame t else t)
  else .next s

end Sys2Proof.Machine
end

