-- ==== Sys2Proof/Machine/Operands.lean ====
section
/-! DEFINITION. Machine/Operands.lean: operand assembly (30_encoding.md R80), the legal parameters (R72), byte
order (20_memory.md R41), rounding (43_packer.md R153) and the value forms of each primitive. -/

namespace Sys2Proof.Machine

/-- Bytes of a field: two when W16 = 1 (30_encoding.md R80). -/
def fieldLen (w16 : Bool) : Nat := if w16 then 2 else 1

/-- Field width FW in bits (30_encoding.md R80). -/
def fieldBits (w16 : Bool) : Nat := 8 * fieldLen w16

/-- Legal N of TWOS: 1 to FW (30_encoding.md R72). -/
def twosLegal (w16 : Bool) (n : BitVec 5) : Bool := decide (1 ≤ n.toNat) && decide (n.toNat ≤ fieldBits w16)

/-- Legal S of FIXP: 1 to 65535 (30_encoding.md R72). -/
def fixpLegal (s : BitVec 16) : Bool := decide (1 ≤ s.toNat)

/-- Legal WID and POS of BITF (30_encoding.md R72). -/
def bitfLegal (wid : BitVec 4) (pos : BitVec 3) : Bool :=
  decide (1 ≤ wid.toNat) && decide (wid.toNat ≤ 8) && decide (pos.toNat + wid.toNat ≤ 8)

/-- The bytes of a field in memory order (20_memory.md R41). -/
def fieldBytes (w16 le : Bool) (u : Nat) : List Byte :=
  if w16 then
    if le then [BitVec.ofNat 8 u, BitVec.ofNat 8 (u / 256)] else [BitVec.ofNat 8 (u / 256), BitVec.ofNat 8 u]
  else [BitVec.ofNat 8 u]

/-- The unsigned value of a field's bytes, the inverse of `fieldBytes` (20_memory.md R41). -/
def fieldValue (le : Bool) (bs : List Byte) : Nat :=
  match bs with
  | [] => 0
  | [a] => a.toNat
  | a :: b :: _ => if le then a.toNat + 256 * b.toNat else 256 * a.toNat + b.toNat

/-- `round_tie(num, den)` under CTRL.TIE_EVEN (43_packer.md R153). -/
def roundTie (tieEven : Bool) (num den : Int) : Int :=
  let q := num / den
  let r := num % den
  if 2 * r < den then q
  else if 2 * r > den then q + 1
  else if tieEven then (if q % 2 = 0 then q else q + 1)
  else if 0 ≤ num then q + 1 else q

/-- TWOS pack: the stored number of a representable N-bit value (43_packer.md R163). -/
def twosStored (n : Nat) (v : Int) : Except OpFault Nat :=
  if v < -((2 ^ (n - 1) : Nat) : Int) ∨ v > ((2 ^ (n - 1) : Nat) : Int) - 1 then .error .range
  else .ok (if v < 0 then v + ((2 ^ n : Nat) : Int) else v).toNat

/-- TWOS unpack: the value of the low N bits of a stored number (43_packer.md R163). -/
def twosValue (n : Nat) (w : Nat) : Int :=
  let u := w % 2 ^ n
  if 2 ^ (n - 1) ≤ u then (u : Int) - ((2 ^ n : Nat) : Int) else u

/-- FIXP pack: `round(value * scale)` as a stored number of `fw` bits (43_packer.md R166). -/
def fixpStored (tieEven : Bool) (fw : Nat) (sgn : Bool) (scale : Nat) (x : Word) : Except OpFault Nat :=
  let xq : Int := if sgn then x.toInt else x.toNat
  let q := roundTie tieEven (xq * scale) 65536
  if sgn = false ∧ q > ((2 ^ fw : Nat) : Int) - 1 then .error .range
  else if sgn = true ∧ (q < -((2 ^ (fw - 1) : Nat) : Int) ∨ q > ((2 ^ (fw - 1) : Nat) : Int) - 1) then
    .error .range
  else .ok (if q < 0 then q + ((2 ^ fw : Nat) : Int) else q).toNat

/-- FIXP unpack: stored / scale with 16 fraction bits, as a register word (43_packer.md R166). -/
def fixpValue (tieEven : Bool) (fw : Nat) (sgn : Bool) (scale : Nat) (w : Nat) : Word :=
  let q : Int := if sgn = true ∧ 2 ^ (fw - 1) ≤ w then (w : Int) - ((2 ^ fw : Nat) : Int) else w
  BitVec.ofInt 32 (roundTie tieEven (q * 65536) scale)

/-- BITF mask M = (2^WID - 1) << POS (30_encoding.md R80). -/
def bitfMask (wid pos : Nat) : Byte := BitVec.ofNat 8 ((2 ^ wid - 1) * 2 ^ pos)

/-- BITF pack: the byte with the field replaced and its other bits kept (43_packer.md R170). -/
def bitfInsert (wid pos : Nat) (old : Byte) (v : Nat) : Byte :=
  (old &&& ~~~bitfMask wid pos) ||| BitVec.ofNat 8 (v * 2 ^ pos)

/-- BITF unpack: the field of a byte (43_packer.md R170). -/
def bitfExtract (wid pos : Nat) (b : Byte) : Nat := b.toNat / 2 ^ pos % 2 ^ wid

/-- RTIMER pack: minutes clamp to 15, seconds round to multiples of 3.75 (43_packer.md R175). -/
def rtimerStored (tieEven : Bool) (minutes seconds : Word) : Except OpFault Byte :=
  let m := minutes.toInt
  let sq := seconds.toInt
  if m < 0 ∨ sq < 0 then .error .range
  else
    let mc := if m > Config.rtMinMax then (Config.rtMinMax : Int) else m
    let n := roundTie tieEven (sq * 4) (15 * 65536)
    if n > 15 then .error .range
    else .ok (BitVec.ofNat 8 (16 * mc.toNat + n.toNat))

end Sys2Proof.Machine
end

