-- ==== Sys2Proof/Machine/Descriptors.lean ====
section
/-! DEFINITION. Machine/Descriptors.lean: the field descriptors (43_packer.md). The meaning of a descriptor is
one pass of RUN's loop at `pc` (R156): the tests of RUN, the increment of `pc`, and the descriptor's own rule in
direction `pk_dir` (log 19). -/

namespace Sys2Proof.Machine

/-- RUN's tests before a descriptor other than END, then its rule (43_packer.md R156). `pk` and `un` are told
the descriptor's index. -/
def runField (legal : Bool) (pk un : Byte → State → State) (s : State) : State :=
  let p := s.cpp.pc
  if p = 255 then opFaultEntry .shapeFault p s.cpp.cur s
  else
    let t := setPc (p + 1) s
    if legal then
      match s.cpp.pkDir with
      | .pack => pk p t
      | .unpack => un p t
    else opFaultEntry .shapeFault p s.cpp.cur t

/-- The end of a pack descriptor whose operand and domain tests gave the bytes to store, or an exception:
`need`, the stores at `cur`, and the cursor moved by `adv` (43_packer.md R151, R181). -/
def packBytes (p : Byte) (adv : Nat) (r : Except OpFault (List Byte)) (s : State) : State :=
  match r with
  | .error f => opFaultEntry f p s.cpp.cur s
  | .ok bs =>
    if s.cpp.cur.toNat + bs.length > Config.payMax then opFaultEntry .overflow p s.cpp.cur s
    else advance adv (store (payBase + s.cpp.cur.toNat) bs s)

/-- An unpack descriptor of `k` payload bytes: `need`, the value of the bytes at `cur` or an exception, the
register writes, and the cursor moved by `adv` (43_packer.md R151, R181). -/
def unpackBytes (p : Byte) (k adv : Nat) (value : List Byte → Except OpFault (List (XIndex × Word)))
    (s : State) : State :=
  if s.cpp.cur.toNat + k > s.dec.rxp.plen.toNat then opFaultEntry .unpackUnderrun p s.cpp.cur s
  else
    match value (bytesAt s (rxpayBase + s.cpp.cur.toNat) k) with
    | .error f => opFaultEntry f p s.cpp.cur s
    | .ok ws => advance adv (setxs ws s)

/-- `getx(i)` as an operand: an unwritten register raises CommandEncodingError(OPERAND) (43_packer.md R151). -/
def operand (s : State) (i : XIndex) : Except OpFault Word :=
  match getx s i with
  | none => .error .operand
  | some w => .ok w

/-! ## END (43_packer.md R157) -/

/-- END: in pack direction the payload is complete; `pc` is left at the END. -/
def endShape (s : State) : State :=
  match s.cpp.pkDir with
  | .pack => { s with cpp := { s.cpp with plen := s.cpp.cur, payOk := true, pkState := .done } }
  | .unpack => { s with cpp := { s.cpp with pkState := .done } }

/-! ## ENUM8 (43_packer.md R160) -/

/-- The byte an ENUM8 stores. -/
def enum8Bytes (xr : XIndex) (set : BitVec 5) (s : State) : Except OpFault (List Byte) :=
  match operand s xr with
  | .error f => .error f
  | .ok x =>
    if x.toNat > 255 then .error .enum
    else if esetHas s set x.toNat then .ok [BitVec.ofNat 8 x.toNat] else .error .enum

/-- The register an ENUM8 writes from a received byte. -/
def enum8Value (xr : XIndex) (set : BitVec 5) (s : State) (bs : List Byte) :
    Except OpFault (List (XIndex × Word)) :=
  let b := bs.headD 0
  if esetHas s set b.toNat then .ok [(xr, b.setWidth 32)] else .error .unpackEnum

/-- ENUM8. -/
def enum8Field (xr : XIndex) (set : BitVec 5) (s : State) : State :=
  runField true (fun p t => packBytes p 1 (enum8Bytes xr set t) t)
    (fun p t => unpackBytes p 1 1 (enum8Value xr set t) t) s

/-! ## TWOS (43_packer.md R163) -/

/-- The bytes a TWOS stores. -/
def twosBytes (xr : XIndex) (w16 le : Bool) (n : BitVec 5) (s : State) : Except OpFault (List Byte) :=
  match operand s xr with
  | .error f => .error f
  | .ok x =>
    match twosStored n.toNat x.toInt with
    | .error f => .error f
    | .ok u => .ok (fieldBytes w16 le u)

/-- The register a TWOS writes from received bytes. -/
def twosRead (xr : XIndex) (le : Bool) (n : BitVec 5) (bs : List Byte) :
    Except OpFault (List (XIndex × Word)) :=
  .ok [(xr, BitVec.ofInt 32 (twosValue n.toNat (fieldValue le bs)))]

/-- TWOS in any width and byte order. -/
def twosField (xr : XIndex) (w16 le : Bool) (n : BitVec 5) (s : State) : State :=
  runField (twosLegal w16 n) (fun p t => packBytes p (fieldLen w16) (twosBytes xr w16 le n t) t)
    (fun p t => unpackBytes p (fieldLen w16) (fieldLen w16) (twosRead xr le n) t) s

/-! ## FIXP (43_packer.md R166) -/

/-- The bytes a FIXP stores. -/
def fixpBytes (xr : XIndex) (w16 le sgn : Bool) (scale : BitVec 16) (s : State) : Except OpFault (List Byte) :=
  match operand s xr with
  | .error f => .error f
  | .ok x =>
    match fixpStored s.cfg.tieEven (fieldBits w16) sgn scale.toNat x with
    | .error f => .error f
    | .ok u => .ok (fieldBytes w16 le u)

/-- The register a FIXP writes from received bytes. -/
def fixpRead (xr : XIndex) (w16 le sgn : Bool) (scale : BitVec 16) (s : State) (bs : List Byte) :
    Except OpFault (List (XIndex × Word)) :=
  .ok [(xr, fixpValue s.cfg.tieEven (fieldBits w16) sgn scale.toNat (fieldValue le bs))]

/-- FIXP in any width, byte order and sign. -/
def fixpField (xr : XIndex) (w16 le sgn : Bool) (scale : BitVec 16) (s : State) : State :=
  runField (fixpLegal scale) (fun p t => packBytes p (fieldLen w16) (fixpBytes xr w16 le sgn scale t) t)
    (fun p t => unpackBytes p (fieldLen w16) (fieldLen w16) (fixpRead xr w16 le sgn scale t) t) s

/-! ## BITF (43_packer.md R170) -/

/-- How far a BITF moves the cursor (30_encoding.md R71). -/
def bitfAdvance (adv : Bool) : Nat := if adv then 1 else 0

/-- The byte a BITF stores: the field in the byte now at the cursor. -/
def bitfBytes (xr : XIndex) (wid : BitVec 4) (pos : BitVec 3) (s : State) : Except OpFault (List Byte) :=
  match operand s xr with
  | .error f => .error f
  | .ok x =>
    if x.toNat > 2 ^ wid.toNat - 1 then .error .range
    else .ok [bitfInsert wid.toNat pos.toNat (byteAt s (payBase + s.cpp.cur.toNat)) x.toNat]

/-- The register a BITF writes from a received byte. -/
def bitfRead (xr : XIndex) (wid : BitVec 4) (pos : BitVec 3) (bs : List Byte) :
    Except OpFault (List (XIndex × Word)) :=
  .ok [(xr, BitVec.ofNat 32 (bitfExtract wid.toNat pos.toNat (bs.headD 0)))]

/-- BITF. -/
def bitfField (xr : XIndex) (adv : Bool) (wid : BitVec 4) (pos : BitVec 3) (s : State) : State :=
  runField (bitfLegal wid pos) (fun p t => packBytes p (bitfAdvance adv) (bitfBytes xr wid pos t) t)
    (fun p t => unpackBytes p 1 (bitfAdvance adv) (bitfRead xr wid pos) t) s

/-! ## TAIL (43_packer.md R173) -/

/-- TAIL in unpack direction: every remaining payload byte. -/
def unpackTail (s : State) : State :=
  let k := s.dec.rxp.plen.toNat - s.cpp.cur.toNat
  let t := store tailBase (bytesAt s (rxpayBase + s.cpp.cur.toNat) k) s
  { t with cpp := { t.cpp with tailLen := BitVec.ofNat 8 k, cur := s.dec.rxp.plen } }

/-- TAIL. -/
def tailField (s : State) : State :=
  runField true
    (fun p t => packBytes p t.cpp.tailLen.toNat (.ok (bytesAt t tailBase t.cpp.tailLen.toNat)) t)
    (fun _ t => unpackTail t) s

/-! ## RTIMER (43_packer.md R175) -/

/-- The byte an RTIMER stores: XR is read before XR2 (60_exceptions.md R224). -/
def rtimerBytes (xr xr2 : XIndex) (s : State) : Except OpFault (List Byte) :=
  match operand s xr with
  | .error f => .error f
  | .ok minutes =>
    match operand s xr2 with
    | .error f => .error f
    | .ok seconds =>
      match rtimerStored s.cfg.tieEven minutes seconds with
      | .error f => .error f
      | .ok b => .ok [b]

/-- The registers an RTIMER writes from a received byte, minutes first. -/
def rtimerRead (xr xr2 : XIndex) (bs : List Byte) : Except OpFault (List (XIndex × Word)) :=
  let b := (bs.headD 0).toNat
  .ok [(xr, BitVec.ofNat 32 (b / 16)), (xr2, BitVec.ofNat 32 (b % 16 * Config.rtStep))]

/-- RTIMER. -/
def rtimerField (xr xr2 : XIndex) (s : State) : State :=
  runField true (fun p t => packBytes p 1 (rtimerBytes xr xr2 t) t)
    (fun p t => unpackBytes p 1 1 (rtimerRead xr xr2) t) s

/-! ## The meanings, one per row -/

/-- END (43_packer.md R157). -/
def execEndShape (s : State) : Host.Outcome State Fault Refusal := .next (endShape s)

/-- ENUM8 (43_packer.md R160). -/
def execEnum8 (xr : XIndex) (set : BitVec 5) (s : State) : Host.Outcome State Fault Refusal :=
  .next (enum8Field xr set s)

/-- TWOS (43_packer.md R163). -/
def execTwos (xr : XIndex) (w16 le : Bool) (n : BitVec 5) (s : State) : Host.Outcome State Fault Refusal :=
  .next (twosField xr w16 le n s)

/-- TWOS with W16 = 0 (30_encoding.md R78). -/
def execTwos8 (xr : XIndex) (n : BitVec 5) (s : State) : Host.Outcome State Fault Refusal :=
  .next (twosField xr false false n s)

/-- TWOS with W16 = 1, LE = 0 (30_encoding.md R78). -/
def execTwos16be (xr : XIndex) (n : BitVec 5) (s : State) : Host.Outcome State Fault Refusal :=
  .next (twosField xr true false n s)

/-- TWOS with W16 = 1, LE = 1 (30_encoding.md R78). -/
def execTwos16le (xr : XIndex) (n : BitVec 5) (s : State) : Host.Outcome State Fault Refusal :=
  .next (twosField xr true true n s)

/-- FIXP (43_packer.md R166). -/
def execFixp (xr : XIndex) (w16 le sgn : Bool) (scale : BitVec 16) (s : State) :
    Host.Outcome State Fault Refusal :=
  .next (fixpField xr w16 le sgn scale s)

/-- FIXP with W16 = 0 (30_encoding.md R78). -/
def execFixp8 (xr : XIndex) (sgn : Bool) (scale : BitVec 16) (s : State) : Host.Outcome State Fault Refusal :=
  .next (fixpField xr false false sgn scale s)

/-- FIXP with W16 = 1, LE = 0 (30_encoding.md R78). -/
def execFixp16be (xr : XIndex) (sgn : Bool) (scale : BitVec 16) (s : State) : Host.Outcome State Fault Refusal :=
  .next (fixpField xr true false sgn scale s)

/-- FIXP with W16 = 1, LE = 1 (30_encoding.md R78). -/
def execFixp16le (xr : XIndex) (sgn : Bool) (scale : BitVec 16) (s : State) : Host.Outcome State Fault Refusal :=
  .next (fixpField xr true true sgn scale s)

/-- BITF (43_packer.md R170). -/
def execBitf (xr : XIndex) (adv : Bool) (wid : BitVec 4) (pos : BitVec 3) (s : State) :
    Host.Outcome State Fault Refusal :=
  .next (bitfField xr adv wid pos s)

/-- TAIL (43_packer.md R173). -/
def execTail (s : State) : Host.Outcome State Fault Refusal := .next (tailField s)

/-- RTIMER (43_packer.md R175). -/
def execRtimer (xr xr2 : XIndex) (s : State) : Host.Outcome State Fault Refusal := .next (rtimerField xr xr2 s)

/-- A reserved kind: ShapeFault, whatever its other bits (30_encoding.md R76, 43_packer.md R156). -/
def execReservedKind (s : State) : Host.Outcome State Fault Refusal :=
  .next (runField false (fun _ t => t) (fun _ t => t) s)

/-- U8 xR: BITF xR, pos=0, wid=8, adv (30_encoding.md R79). -/
def execU8 (xr : XIndex) (s : State) : Host.Outcome State Fault Refusal := .next (bitfField xr true 8 0 s)

/-- BIT xR, pos=P[, adv]: BITF of width 1 (30_encoding.md R79). -/
def execBit (xr : XIndex) (adv : Bool) (pos : BitVec 3) (s : State) : Host.Outcome State Fault Refusal :=
  .next (bitfField xr adv 1 pos s)

/-- S8 xR: TWOS8 xR, n=8 (30_encoding.md R79). -/
def execS8 (xr : XIndex) (s : State) : Host.Outcome State Fault Refusal := .next (twosField xr false false 8 s)

/-- S16BE xR: TWOS16BE xR, n=16 (30_encoding.md R79). -/
def execS16be (xr : XIndex) (s : State) : Host.Outcome State Fault Refusal := .next (twosField xr true false 16 s)

/-- S16LE xR: TWOS16LE xR, n=16 (30_encoding.md R79). -/
def execS16le (xr : XIndex) (s : State) : Host.Outcome State Fault Refusal := .next (twosField xr true true 16 s)

end Sys2Proof.Machine
end

