-- ==== Sys2Proof/Machine/Line.lean ====
section
/-! DEFINITION. Machine/Line.lean: the frame delimiter and the line events (40_delimiter.md), and the guard
countdown of the transmit unit (42_codec.md R131). -/

namespace Sys2Proof.Machine

/-- Push a candidate at the tail of the frame queue, or lose it and count it (40_delimiter.md R94). -/
def pushCandidate (c : Candidate) (s : State) : State :=
  if s.fq.length < Config.fqDepth then { s with fq := s.fq ++ [c] }
  else raiseIrq .fqOvf { s with log := { s.log with cntDrop := sat16Succ s.log.cntDrop } }

/-- FLUSH: close the open accumulation (40_delimiter.md R94). -/
def flushAcc (s : State) : State :=
  let t := if s.fd.acc = [] then s else pushCandidate { bytes := s.fd.acc, ovf := s.fd.accOvf } s
  { t with fd := { s.fd with
      acc := []
      accOvf := if s.fd.acc = [] then s.fd.accOvf else false
      ict := 0 } }

/-- Lines (3) to (5) of RXBYTE: append, or discard when full; restart the timer (40_delimiter.md R91). -/
def appendByte (b : Byte) (s : State) : State :=
  if s.fd.acc.length < Config.accCap then
    { s with fd := { s.fd with acc := s.fd.acc ++ [b], ict := 0 } }
  else raiseIrq .accOvf { s with fd := { s.fd with accOvf := true, ict := 0 } }

/-- A byte is late: an accumulation is open and the inter-character threshold has elapsed (40_delimiter.md R91). -/
def lateByte (s : State) : Bool := decide (s.fd.acc ≠ []) && decide (s.cfg.tChar ≤ s.fd.ict)

/-- RXBYTE(b) (40_delimiter.md R91). -/
def rxByte (b : Byte) (s : State) : State :=
  if s.fd.rxEn then appendByte b (if lateByte s then flushAcc s else s) else s

/-- The transmit guard counts down on every tick (42_codec.md R131). -/
def guardTick (s : State) : State :=
  if s.tx.txg = 0 then s else { s with tx := { s.tx with txg := s.tx.txg - 1 } }

/-- The frame delimiter's part of TICK (40_delimiter.md R92). -/
def fdTick (s : State) : State :=
  if s.fd.rxEn && decide (s.fd.acc ≠ []) then
    let ict := sat16Succ s.fd.ict
    let t := { s with fd := { s.fd with ict := ict } }
    if s.cfg.tPkt < ict then flushAcc t else t
  else s

/-- TICK: the guard, then the frame delimiter (40_delimiter.md R92). -/
def lineTick (s : State) : State := fdTick (guardTick s)

/-- No event in the sample (30_encoding.md R68). -/
def execNoevent (s : State) : Host.Outcome State Fault Refusal := .next s

/-- RXBYTE (40_delimiter.md R91). -/
def execRxbyte (b : Byte) (s : State) : Host.Outcome State Fault Refusal := .next (rxByte b s)

/-- TICK (40_delimiter.md R92). -/
def execTick (s : State) : Host.Outcome State Fault Refusal := .next (lineTick s)

/-- RXBYTE first, TICK second, in one step (40_delimiter.md R97). -/
def execRxbyteTick (b : Byte) (s : State) : Host.Outcome State Fault Refusal := .next (lineTick (rxByte b s))

/-- FLUSH, the internal operation RXBYTE, TICK and RXDIS call (40_delimiter.md R94). -/
def execFlush (s : State) : Host.Outcome State Fault Refusal := .next (flushAcc s)

end Sys2Proof.Machine
end

