-- ==== Sys2Proof/Machine/Packer.lean ====
section
/-! DEFINITION. Machine/Packer.lean: RUN, PACK, UNPACK and the catalogue dispatch (43_packer.md R154 to R156,
42_codec.md R132). -/

namespace Sys2Proof.Machine

/-- The meaning of a descriptor inside RUN. The words RUN fetches decode to descriptors only; for the other
constructors RUN has nothing to do. -/
def execDescriptor (i : Instr) (s : State) : Host.Outcome State Fault Refusal :=
  match i with
  | .endShape => execEndShape s
  | .enum8 xr set => execEnum8 xr set s
  | .twos xr w16 le n => execTwos xr w16 le n s
  | .twos8 xr n => execTwos8 xr n s
  | .twos16be xr n => execTwos16be xr n s
  | .twos16le xr n => execTwos16le xr n s
  | .fixp xr w16 le sgn scale => execFixp xr w16 le sgn scale s
  | .fixp8 xr sgn scale => execFixp8 xr sgn scale s
  | .fixp16be xr sgn scale => execFixp16be xr sgn scale s
  | .fixp16le xr sgn scale => execFixp16le xr sgn scale s
  | .bitf xr adv wid pos => execBitf xr adv wid pos s
  | .tail => execTail s
  | .rtimer xr xr2 => execRtimer xr xr2 s
  | .reservedKind _ _ _ _ _ _ _ _ => execReservedKind s
  | .u8 xr => execU8 xr s
  | .bit xr adv pos => execBit xr adv pos s
  | .s8 xr => execS8 xr s
  | .s16be xr => execS16be xr s
  | .s16le xr => execS16le xr s
  | .noevent | .rxbyte _ | .tick | .rxbyteTick _ | .nop | .pack _ | .unpack | .encode | .send | .rxpop
  | .rxen | .rxdis | .clrx | .softreset | .reservedCmd _ _ | .decode | .txbyte | .flush | .csum _
  | .cmdtabEntry _ _ => .next s

/-- RUN's loop for at most `n` fetches: fetch SHM[pc], decode, execute; it goes on while `pk_state` is IDLE,
which END and every exception end (43_packer.md R156). -/
def runLoop : Nat → State → Host.Outcome State Fault Refusal
  | 0, s => .next s
  | n + 1, s =>
    match execDescriptor (decodeDesc (shmWord s s.cpp.pc)) s with
    | .next t =>
      match t.cpp.pkState with
      | .idle => runLoop n t
      | .done => .next t
      | .fault => .next t
    | .fault r => .fault r
    | .refused r => .refused r

/-- RUN: `pc` never decreases and a descriptor other than END at index 255 raises, so 256 fetches are enough
(43_packer.md R156). -/
def runShape (s : State) : Host.Outcome State Fault Refusal := runLoop 256 s

/-- Dispatch by command code: `pc` takes the entry's start (42_codec.md R132). -/
def enterShape (start : Byte) (s : State) : State := setPc start s

/-- What PACK does before its first test: PAY cleared, nothing staged (43_packer.md R154). -/
def packStart (code : BitVec 16) (s : State) : State :=
  store payBase (List.replicate 255 0) { s with cpp := { s.cpp with
    pkDir := .pack, pkState := .idle, payOk := false, cmdCode := code, cur := 0, plen := 0 } }

/-- The command code as payload bytes: one byte, or two with the low one first (20_memory.md R42, 30_encoding.md R67). -/
def codeBytes (cc16 : Bool) (code : BitVec 16) : List Byte :=
  if cc16 then [code.extractLsb' 0 8, code.extractLsb' 8 8] else [code.extractLsb' 0 8]

/-- PACK after a successful lookup: the code bytes are in PAY, the cursor is past them, `pc` is at the shape. -/
def packEntered (code : BitVec 16) (start : Byte) (s : State) : State :=
  let bs := codeBytes s.cfg.cc16 code
  enterShape start (advance bs.length (store payBase bs (packStart code s)))

/-- PACK(code) (43_packer.md R154). -/
def execPack (code : BitVec 16) (s : State) : Host.Outcome State Fault Refusal :=
  let t := packStart code s
  if !s.cfg.cc16 && decide (code.toNat > 0x00FF) then .next (opFaultEntry .range 0 0 t)
  else
    match lookup s code with
    | none => .next (opFaultEntry .unknownCommand 0 0 t)
    | some start => runShape (packEntered code start s)

/-- Bytes of a command code (30_encoding.md R67). -/
def codeLen (cc16 : Bool) : Nat := if cc16 then 2 else 1

/-- The command code at the head of the received payload (43_packer.md R155). -/
def receivedCode (s : State) : BitVec 16 :=
  if s.cfg.cc16 then byteAt s (rxpayBase + 1) ++ byteAt s rxpayBase else (byteAt s rxpayBase).setWidth 16

/-- What UNPACK does before its first test (43_packer.md R155). -/
def unpackStart (s : State) : State :=
  { s with cpp := { s.cpp with pkDir := .unpack, pkState := .idle, cur := 0 } }

/-- UNPACK with the command code read: `cmd_code` holds it, the cursor is past it (43_packer.md R155). -/
def unpackCode (s : State) : State :=
  let t := unpackStart s
  { t with cpp := { t.cpp with cmdCode := receivedCode s, cur := BitVec.ofNat 8 (codeLen s.cfg.cc16) } }

/-- UNPACK (43_packer.md R155). -/
def execUnpack (s : State) : Host.Outcome State Fault Refusal :=
  if s.dec.rxpValid then
    if s.dec.rxp.plen.toNat < codeLen s.cfg.cc16 then .next (opFaultEntry .unpackUnderrun 0 0 (unpackStart s))
    else
      match lookup s (receivedCode s) with
      | none => .next (opFaultEntry .unknownCommand 0 0 (unpackCode s))
      | some start => runShape (enterShape start (unpackCode s))
  else .next (refuse .refused s)

/-- A valid catalogue entry is data, not an instruction; its one effect is the dispatch: an entry whose code
is the command's sends `pc` to its start (30_encoding.md R73, 42_codec.md R132, log 14). -/
def execCmdtabEntry (start : Byte) (code : BitVec 16) (s : State) : Host.Outcome State Fault Refusal :=
  .next (if s.cpp.cmdCode = code then enterShape start s else s)

end Sys2Proof.Machine
end

