-- ==== Sys2Proof/Machine/System.lean ====
section
/-! DEFINITION. Machine/System.lean: the system commands (44_host.md R192 to R196, R200). -/

namespace Sys2Proof.Machine

/-- NOP (44_host.md R192). -/
def execNop (s : State) : Host.Outcome State Fault Refusal := .next s

/-- RXEN: with the receiver already on it does nothing (44_host.md R193). -/
def execRxen (s : State) : Host.Outcome State Fault Refusal :=
  if s.fd.rxEn then .next s else .next { s with fd := { rxEn := true, acc := [], accOvf := false, ict := 0 } }

/-- RXDIS: flush, then off (44_host.md R194). -/
def execRxdis (s : State) : Host.Outcome State Fault Refusal :=
  if s.fd.rxEn then
    let t := flushAcc s
    .next { t with fd := { t.fd with rxEn := false } }
  else .next s

/-- CLRX (44_host.md R195). -/
def execClrx (s : State) : Host.Outcome State Fault Refusal := .next (clearX s)

/-- SOFTRESET (44_host.md R196). -/
def execSoftreset (s : State) : Host.Outcome State Fault Refusal := .next (softReset s)

/-- A reserved opcode is refused with BADCMD (30_encoding.md R75, 44_host.md R200). -/
def execReservedCmd (s : State) : Host.Outcome State Fault Refusal := .next (refuse .badcmd s)

end Sys2Proof.Machine
end

