-- ==== Sys2Proof/Machine/Dispatch.lean ====
section
/-! DEFINITION. Machine/Dispatch.lean: the meaning of every operation, one arm per constructor of Instr. -/

namespace Sys2Proof.Machine

def exec (i : Instr) (s : State) : Host.Outcome State Fault Refusal :=
  match i with
  -- line samples
  | .noevent => Sys2Proof.Machine.execNoevent s
  | .rxbyte b => Sys2Proof.Machine.execRxbyte b s
  | .tick => Sys2Proof.Machine.execTick s
  | .rxbyteTick b => Sys2Proof.Machine.execRxbyteTick b s
  -- host commands
  | .nop => Sys2Proof.Machine.execNop s
  | .pack code => Sys2Proof.Machine.execPack code s
  | .unpack => Sys2Proof.Machine.execUnpack s
  | .encode => Sys2Proof.Machine.execEncode s
  | .send => Sys2Proof.Machine.execSend s
  | .rxpop => Sys2Proof.Machine.execRxpop s
  | .rxen => Sys2Proof.Machine.execRxen s
  | .rxdis => Sys2Proof.Machine.execRxdis s
  | .clrx => Sys2Proof.Machine.execClrx s
  | .softreset => Sys2Proof.Machine.execSoftreset s
  | .reservedCmd _ _ => Sys2Proof.Machine.execReservedCmd s
  -- field descriptors
  | .endShape => Sys2Proof.Machine.execEndShape s
  | .enum8 xr set => Sys2Proof.Machine.execEnum8 xr set s
  | .twos xr w16 le n => Sys2Proof.Machine.execTwos xr w16 le n s
  | .twos8 xr n => Sys2Proof.Machine.execTwos8 xr n s
  | .twos16be xr n => Sys2Proof.Machine.execTwos16be xr n s
  | .twos16le xr n => Sys2Proof.Machine.execTwos16le xr n s
  | .fixp xr w16 le sgn scale => Sys2Proof.Machine.execFixp xr w16 le sgn scale s
  | .fixp8 xr sgn scale => Sys2Proof.Machine.execFixp8 xr sgn scale s
  | .fixp16be xr sgn scale => Sys2Proof.Machine.execFixp16be xr sgn scale s
  | .fixp16le xr sgn scale => Sys2Proof.Machine.execFixp16le xr sgn scale s
  | .bitf xr adv wid pos => Sys2Proof.Machine.execBitf xr adv wid pos s
  | .tail => Sys2Proof.Machine.execTail s
  | .rtimer xr xr2 => Sys2Proof.Machine.execRtimer xr xr2 s
  | .reservedKind _ _ _ _ _ _ _ _ => Sys2Proof.Machine.execReservedKind s
  | .u8 xr => Sys2Proof.Machine.execU8 xr s
  | .bit xr adv pos => Sys2Proof.Machine.execBit xr adv pos s
  | .s8 xr => Sys2Proof.Machine.execS8 xr s
  | .s16be xr => Sys2Proof.Machine.execS16be xr s
  | .s16le xr => Sys2Proof.Machine.execS16le xr s
  -- no bits select these
  | .decode => Sys2Proof.Machine.execDecode s
  | .txbyte => Sys2Proof.Machine.execTxbyte s
  | .flush => Sys2Proof.Machine.execFlush s
  | .csum bytes => Sys2Proof.Machine.execCsum bytes s
  | .cmdtabEntry start code => Sys2Proof.Machine.execCmdtabEntry start code s

end Sys2Proof.Machine
end

