-- ==== Sys2Proof/Machine/HostBus.lean ====
section
/-! DEFINITION. Machine/HostBus.lean: the register map and the windows (10_state.md R30, R32; 44_host.md R190,
R197 to R201; 20_memory.md R44, R46). -/

namespace Sys2Proof.Machine

/-- A location of the host bus. -/
inductive Loc where
  | ctrl
  | status
  | irqPend
  | irqEn
  | tChar
  | tPkt
  | tTxIdle
  | ict
  | accStat
  | fqCount
  | rxerr
  | operr
  | cntFfe
  | cntCsum
  | cntDrop
  | cntOk
  | cmd
  | plen
  | cpppos
  | tailLen
  | txStat
  | txg
  | xvReg
  | cmdcode
  | txh0
  | txh1
  | txh2
  | rxh0
  | rxh1
  | rxh2
  /-- MT_REG<k> -/
  | mtReg (k : Nat)
  /-- X<i> -/
  | x (i : XIndex)
  /-- A byte of PAY or TAIL, at its offset. -/
  | rwByte (a : Nat)
  /-- RXPAY[i] -/
  | rxpay (i : Nat)
  /-- TXB[i] -/
  | txb (i : Nat)
  /-- A word of SHM, CMDTAB or ESET, at its offset. -/
  | rwWord (a : Nat)
  deriving DecidableEq, Repr

/-- The registers with an offset of their own (10_state.md R30). -/
def registerMap : List (Nat × Loc) :=
  [(0x000, .ctrl), (0x004, .status), (0x008, .irqPend), (0x00C, .irqEn), (0x010, .tChar), (0x014, .tPkt),
   (0x018, .tTxIdle), (0x01C, .ict), (0x020, .accStat), (0x024, .fqCount), (0x028, .rxerr), (0x02C, .operr),
   (0x030, .cntFfe), (0x034, .cntCsum), (0x038, .cntDrop), (0x03C, .cntOk), (0x040, .cmd), (0x044, .plen),
   (0x048, .cpppos), (0x04C, .tailLen), (0x050, .txStat), (0x054, .txg), (0x058, .xvReg), (0x05C, .cmdcode),
   (0x060, .txh0), (0x064, .txh1), (0x068, .txh2), (0x070, .rxh0), (0x074, .rxh1), (0x078, .rxh2)]

/-- The register at a word-aligned offset below 0x100 (10_state.md R30). -/
def regAt (a : Nat) : Option Loc :=
  match registerMap.lookup a with
  | some l => some l
  | none =>
    if inWindow 0x080 32 a then some (.mtReg ((a - 0x080) / 4))
    else if inWindow 0x0C0 64 a then some (.x (BitVec.ofNat 4 ((a - 0x0C0) / 4)))
    else none

/-- The location at an offset; none where no rule maps it or a word access is misaligned (20_memory.md R44). -/
def locAt (off : BitVec 16) : Option Loc :=
  let a := off.toNat
  if inWindow payBase 255 a || inWindow tailBase 255 a then some (.rwByte a)
  else if inWindow rxpayBase 255 a then some (.rxpay (a - rxpayBase))
  else if inWindow txbBase 267 a then some (.txb (a - txbBase))
  else if a % 4 ≠ 0 then none
  else if inWindow shmBase 1024 a || inWindow cmdtabBase 512 a || inWindow esetBase 1024 a then some (.rwWord a)
  else regAt a

/-- A header word of four fields, the lowest first (10_state.md R30). -/
def pack4 (b0 b1 b2 b3 : Byte) : Word := b3 ++ b2 ++ b1 ++ b0

/-- What a read of a location returns (10_state.md R30, R32; 44_host.md R199). An unspecified value is a free
value within the bits the map gives the location (log 8). -/
def readLoc (off : BitVec 16) (s : State) : Loc → Word
  | .ctrl => bit01 s.cfg.tieEven ||| bit01 s.cfg.cc16 <<< 1
  | .status => statusWord s
  | .irqPend => s.irq.irqPend.setWidth 32
  | .irqEn => s.irq.irqEn.setWidth 32
  | .tChar => s.cfg.tChar.setWidth 32
  | .tPkt => s.cfg.tPkt.setWidth 32
  | .tTxIdle => s.cfg.tTxIdle.setWidth 32
  | .ict => s.fd.ict.setWidth 32
  | .accStat => (BitVec.ofNat 10 s.fd.acc.length).setWidth 32 ||| bit01 s.fd.accOvf <<< 16
  | .fqCount => (BitVec.ofNat 4 s.fq.length).setWidth 32
  | .rxerr => s.log.rxerrCode.setWidth 32 ||| s.log.rxerrLen.setWidth 32 <<< 16
  | .operr => pack4 s.op.opCode s.op.opPc s.op.opCur 0
  | .cntFfe => s.log.cntFfe.setWidth 32
  | .cntCsum => s.log.cntCsum.setWidth 32
  | .cntDrop => s.log.cntDrop.setWidth 32
  | .cntOk => s.log.cntOk.setWidth 32
  | .cmd => 0
  | .plen => s.cpp.plen.setWidth 32
  | .cpppos => pack4 s.cpp.pc s.cpp.cur 0 0
  | .tailLen => s.cpp.tailLen.setWidth 32
  | .txStat => s.tx.txLen.setWidth 32 ||| s.tx.txIdx.setWidth 32 <<< 16
  | .txg => s.tx.txg.setWidth 32
  | .xvReg => s.cpp.xv.setWidth 32
  | .cmdcode => s.cpp.cmdCode.setWidth 32
  | .txh0 => pack4 s.tx.hdr.dst s.tx.hdr.src s.tx.hdr.subnet s.tx.hdr.sendMethod
  | .txh1 => pack4 s.tx.hdr.sp0 s.tx.hdr.sp1 s.tx.hdr.srcNodeType s.tx.hdr.msgType
  | .txh2 => s.tx.hdr.pktByte.setWidth 32
  | .rxh0 =>
    if s.dec.rxpValid then pack4 s.dec.rxp.dst s.dec.rxp.src s.dec.rxp.subnet s.dec.rxp.sendMethod
    else Config.freeRead s.env.draw off.toNat
  | .rxh1 =>
    if s.dec.rxpValid then pack4 s.dec.rxp.sp0 s.dec.rxp.sp1 s.dec.rxp.srcNodeType s.dec.rxp.msgType
    else Config.freeRead s.env.draw off.toNat
  | .rxh2 =>
    if s.dec.rxpValid then
      s.dec.rxp.pktNum.setWidth 32 ||| bit01 s.dec.rxp.dataFlow <<< 7 ||| s.dec.rxp.plen.setWidth 32 <<< 8
        ||| bit01 s.dec.rxp.known <<< 16
    else (bits (Config.freeRead s.env.draw off.toNat) 0 17).setWidth 32
  | .mtReg k => s.cfg.mtReg.extractLsb' (32 * k) 32
  | .x i => if xvalid s i then xraw s i else Config.freeRead s.env.draw off.toNat
  | .rwByte a => (byteAt s a).setWidth 32
  | .rxpay i =>
    if s.dec.rxpValid && decide (i < s.dec.rxp.plen.toNat) then (byteAt s (rxpayBase + i)).setWidth 32
    else (bits (Config.freeRead s.env.draw off.toNat) 0 8).setWidth 32
  | .txb i =>
    if s.tx.encValid && decide (i < s.tx.txLen.toNat) then (byteAt s (txbBase + i)).setWidth 32
    else (bits (Config.freeRead s.env.draw off.toNat) 0 8).setWidth 32
  | .rwWord a => wordAt s a

/-- The value a host read returns: 0 where nothing is mapped (20_memory.md R44). -/
def readValue (off : BitVec 16) (s : State) : Word :=
  match locAt off with
  | none => 0
  | some l => readLoc off s l

/-- A host read leaves its value on the data lines and changes nothing else (44_host.md R190, 20_memory.md R46). -/
def hostRead (off : BitVec 16) (s : State) : State := { s with env := { s.env with rdata := readValue off s } }

/-- Write MT_REG<k>: bits 32k to 32k + 31 take the word (10_state.md R30). -/
def setMtReg (k : Nat) (w : Word) (s : State) : State :=
  { s with cfg := { s.cfg with
      mtReg := (s.cfg.mtReg &&& ~~~((0xFFFFFFFF : BitVec 256) <<< (32 * k))) ||| w.setWidth 256 <<< (32 * k) } }

/-- A write to PLEN stages a raw payload (44_host.md R201). -/
def writePlen (n : Byte) (s : State) : State :=
  { s with cpp := { s.cpp with plen := n, payOk := true, pkState := .idle } }

/-- A write to a location other than CMD: the writable bits, and the side effects of IRQ_PEND, PLEN and X<i>
(44_host.md R190, R197, R198, R199, R201; 20_memory.md R46). CMD is run by the step (44_host.md R191). -/
def writeLoc (w : Word) (s : State) : Loc → State
  | .ctrl => { s with cfg := { s.cfg with tieEven := w.getLsbD 0, cc16 := w.getLsbD 1 } }
  | .irqPend => { s with irq := { s.irq with irqPend := s.irq.irqPend &&& ~~~(bits w 0 6) } }
  | .irqEn => { s with irq := { s.irq with irqEn := bits w 0 6 } }
  | .tChar => { s with cfg := { s.cfg with tChar := bits w 0 16 } }
  | .tPkt => { s with cfg := { s.cfg with tPkt := bits w 0 16 } }
  | .tTxIdle => { s with cfg := { s.cfg with tTxIdle := bits w 0 16 } }
  | .plen => writePlen (bits w 0 8) s
  | .tailLen => { s with cpp := { s.cpp with tailLen := bits w 0 8 } }
  | .txh0 => { s with tx := { s.tx with hdr := { s.tx.hdr with
      dst := bits w 0 8, src := bits w 8 8, subnet := bits w 16 8, sendMethod := bits w 24 8 } } }
  | .txh1 => { s with tx := { s.tx with hdr := { s.tx.hdr with
      sp0 := bits w 0 8, sp1 := bits w 8 8, srcNodeType := bits w 16 8, msgType := bits w 24 8 } } }
  | .txh2 => { s with tx := { s.tx with hdr := { s.tx.hdr with pktByte := bits w 0 8 } } }
  | .mtReg k => setMtReg k w s
  | .x i => setx i w s
  | .rwByte a => store a [bits w 0 8] s
  | .rwWord a => store a (wordBytes w) s
  | .status | .ict | .accStat | .fqCount | .rxerr | .operr | .cntFfe | .cntCsum | .cntDrop | .cntOk
  | .cmd | .cpppos | .txStat | .txg | .xvReg | .cmdcode | .rxh0 | .rxh1 | .rxh2 | .rxpay _ | .txb _ => s

/-- A host write anywhere but at CMD: no effect where nothing is mapped (20_memory.md R44). -/
def hostWrite (off : BitVec 16) (w : Word) (s : State) : State :=
  match locAt off with
  | none => s
  | some l => writeLoc w s l

end Sys2Proof.Machine
end

