-- ==== Sys2Proof/Machine/Fetch.lean ====
section
/-! DEFINITION. Machine/Fetch.lean: which agent goes next and with what (10_state.md R10), and the placing of a
word where the machine reads it. -/

namespace Sys2Proof.Machine

/-- What one step of the block does. -/
inductive Action where
  /-- Perform an operation of the opcode table. -/
  | run (i : Instr)
  /-- A host read. -/
  | read (off : BitVec 16)
  /-- A host write anywhere but at CMD. -/
  | write (off : BitVec 16) (data : Word)
  /-- A clock with rst = 1. -/
  | reset
  deriving DecidableEq, Repr

/-- What an event of the environment makes the block do (10_state.md R10): a sample is decoded (30_encoding.md
R68), a word written to CMD is a command (44_host.md R191). -/
def actionOf : Event → Action
  | .sample w => .run (decodeLine w)
  | .hostRead off => .read off
  | .hostWrite off data => if locAt off = some .cmd then .run (decodeCmd data) else .write off data
  | .decTurn => .run .decode
  | .txReady => .run .txbyte
  | .rst => .reset

/-- The next action: the oldest pending event's; with none pending, DEC goes if its guard holds and otherwise
the line is quiet (logs 1, 2). -/
def nextAction (s : State) : Action :=
  match s.env.pending with
  | [] => if decEnabled s then .run .decode else .run .noevent
  | e :: _ => actionOf e

/-- The state the action starts from: the event is taken, and the free values drawn in it are new (log 8). -/
def takeEvent (s : State) : State :=
  { s with env := { s.env with pending := s.env.pending.tail, draw := s.env.draw + 1 } }

/-- Put an event before the pending ones. -/
def pushEvent (e : Event) (s : State) : State := { s with env := { s.env with pending := e :: s.env.pending } }

/-- The host bus offset of CMD (10_state.md R30). -/
def cmdOffset : BitVec 16 := 0x040

/-- Store a code where the next step reads it (log 3): a sample on the line, a command at CMD, a descriptor as
the one-descriptor shape of a PACK, a catalogue entry as the entry such a PACK enters through. -/
def placeCode (c : Code) (s : State) : State :=
  match c with
  | .line w => pushEvent (.sample w) s
  | .cmd w => pushEvent (.hostWrite cmdOffset w) s
  | .desc w =>
    pushEvent (.hostWrite cmdOffset (cmdWord 0x01 0))
      (store cmdtabBase (wordBytes 0x80000000) (store shmBase (wordBytes w ++ wordBytes 0) s))
  | .entry w =>
    let t := store cmdtabBase (wordBytes w) (store (shmBase + 4 * (bits w 16 8).toNat) (wordBytes 0) s)
    pushEvent (.hostWrite cmdOffset (cmdWord 0x01 (bits w 0 16)))
      { t with cfg := { t.cfg with cc16 := t.cfg.cc16 || decide ((bits w 0 16).toNat > 0xFF) } }

/-- Place a word of spec/opcode_table.json; a number no row has is not placed. -/
def placeWord (nbits w : Nat) (s : State) : State :=
  match codeOfTableWord nbits w with
  | .error _ => s
  | .ok c => placeCode c s

end Sys2Proof.Machine
end

