-- ==== Sys2Proof/Machine/Step.lean ====
section
/-! DEFINITION. Machine/Step.lean: one atomic step of one agent (10_state.md R10). -/

namespace Sys2Proof.Machine

/-- One step: the next action, from the state in which its event is taken. -/
def step (s : State) : Host.Outcome State Fault Refusal :=
  match nextAction s with
  | .run i => exec i (takeEvent s)
  | .read off => .next (hostRead off (takeEvent s))
  | .write off data => .next (hostWrite off data (takeEvent s))
  | .reset => .next (hardReset (takeEvent s))

/-- The state with a row's word of spec/opcode_table.json placed where the next step reads it (log 3). -/
def State.withFetchWord (s : State) (nbits w : Nat) : State := placeWord nbits w s

end Sys2Proof.Machine
end

