-- ==== Sys2Proof/Safety.lean ====
section
/-! DEFINITION. Safety.lean: the terms the statements are made in: what a store changes, what a fault leaves,
sequences of operations, the spelled forms of a descriptor, and the invariant of the machine. -/

namespace Sys2Proof.Machine

/-! ## Changes of memory, through the read of one byte -/

/-- Every byte of memory reads in `t` as in `s`. -/
def SameMemory (s t : State) : Prop := ∀ a, byteAt t a = byteAt s a

/-- Every byte outside the `n` bytes from `base` reads in `t` as in `s`. -/
def SameMemoryOutside (base n : Nat) (s t : State) : Prop :=
  ∀ a, (a < base ∨ base + n ≤ a) → byteAt t a = byteAt s a

/-- `t` holds the bytes `bs` from offset `a` on, and every other byte as `s`. -/
def Stored (a : Nat) (bs : List Byte) (s t : State) : Prop :=
  bytesAt t a bs.length = bs ∧ SameMemoryOutside a bs.length s t

/-! ## Exceptions and refusals, spelled out -/

/-- `t` is `s` with the host-command fault `code` recorded at descriptor `p`, cursor `c` (60_exceptions.md R217);
the memory stays as it is but for PAY in pack direction, whose bytes nothing is said of (43_packer.md R180). -/
def Faulted (code p c : Byte) (s t : State) : Prop :=
  t = { s with
    op := { opCode := code, opPc := p, opCur := c }
    cpp := { s.cpp with pkState := .fault }
    irq := { s.irq with irqPend := s.irq.irqPend ||| 0x20 }
    mem := t.mem } ∧
  (match s.cpp.pkDir with
    | .pack => SameMemoryOutside payBase 255 s t
    | .unpack => SameMemory s t)

/-- `s` with a refusal of code `code` recorded and nothing else changed (44_host.md R200). -/
def refusedWith (code : Byte) (s : State) : State :=
  { s with
    op := { opCode := code, opPc := 0, opCur := 0 }
    irq := { s.irq with irqPend := s.irq.irqPend ||| 0x20 } }

/-! ## Sequences of operations -/

/-- The operations of a list one after the other. -/
def execAll : List Instr → State → Host.Outcome State Fault Refusal
  | [], s => .next s
  | i :: rest, s =>
    match exec i s with
    | .next t => execAll rest t
    | .fault r => .fault r
    | .refused r => .refused r

/-- `k` ticks. -/
def ticks (k : Nat) : List Instr := List.replicate k .tick

/-- A burst: each byte after a gap of some ticks (40_delimiter.md R100). -/
def burst : List (Nat × Byte) → List Instr
  | [] => []
  | (gap, b) :: rest => ticks gap ++ Instr.rxbyte b :: burst rest

/-! ## The rows that name one descriptor (30_encoding.md R78, R79) -/

/-- `i` is a spelling of TWOS with these fields: TWOS, TWOS8, TWOS16BE, TWOS16LE, S8, S16BE or S16LE. -/
def TwosForm (i : Instr) (xr : XIndex) (w16 le : Bool) (n : BitVec 5) : Prop :=
  i = .twos xr w16 le n ∨ (i = .twos8 xr n ∧ w16 = false) ∨ (i = .twos16be xr n ∧ w16 = true ∧ le = false)
  ∨ (i = .twos16le xr n ∧ w16 = true ∧ le = true) ∨ (i = .s8 xr ∧ w16 = false ∧ n = 8)
  ∨ (i = .s16be xr ∧ w16 = true ∧ le = false ∧ n = 16) ∨ (i = .s16le xr ∧ w16 = true ∧ le = true ∧ n = 16)

/-- `i` is a spelling of FIXP with these fields: FIXP, FIXP8, FIXP16BE or FIXP16LE. -/
def FixpForm (i : Instr) (xr : XIndex) (w16 le sgn : Bool) (scale : BitVec 16) : Prop :=
  i = .fixp xr w16 le sgn scale ∨ (i = .fixp8 xr sgn scale ∧ w16 = false)
  ∨ (i = .fixp16be xr sgn scale ∧ w16 = true ∧ le = false)
  ∨ (i = .fixp16le xr sgn scale ∧ w16 = true ∧ le = true)

/-- `i` is a spelling of BITF with these fields: BITF, U8 or BIT. -/
def BitfForm (i : Instr) (xr : XIndex) (adv : Bool) (wid : BitVec 4) (pos : BitVec 3) : Prop :=
  i = .bitf xr adv wid pos ∨ (i = .u8 xr ∧ adv = true ∧ wid = 8 ∧ pos = 0) ∨ (i = .bit xr adv pos ∧ wid = 1)

/-- RUN is at a descriptor it may execute in pack direction. -/
def PackReady (s : State) : Prop := s.cpp.pkDir = .pack ∧ s.cpp.pc ≠ 255

/-- RUN is at a descriptor it may execute in unpack direction. -/
def UnpackReady (s : State) : Prop := s.cpp.pkDir = .unpack ∧ s.cpp.pc ≠ 255

/-- The 16-bit or 8-bit number `u` as the bytes of a field: two with W16, in the order LE says (20_memory.md R41). -/
def orderedBytes (w16 le : Bool) (u : BitVec 16) : List Byte :=
  match w16, le with
  | false, _ => [u.extractLsb' 0 8]
  | true, false => [u.extractLsb' 8 8, u.extractLsb' 0 8]
  | true, true => [u.extractLsb' 0 8, u.extractLsb' 8 8]

/-- `t` is `s` after a pack descriptor stored `bs` at the cursor and moved the cursor by `adv`. -/
def PackedField (bs : List Byte) (adv : Nat) (s t : State) : Prop :=
  t = { s with
    cpp := { s.cpp with pc := s.cpp.pc + 1, cur := BitVec.ofNat 8 (s.cpp.cur.toNat + adv) }
    mem := t.mem } ∧
  Stored (payBase + s.cpp.cur.toNat) bs s t

/-- `s` after an unpack descriptor that wrote `w` to register `xr` and moved the cursor by `adv`. -/
def unpackedField (xr : XIndex) (w : Word) (adv : Nat) (s : State) : State :=
  { s with cpp := { s.cpp with
      pc := s.cpp.pc + 1
      cur := BitVec.ofNat 8 (s.cpp.cur.toNat + adv)
      x := s.cpp.x.set xr.toNat w xr.isLt
      xv := s.cpp.xv ||| ((1 : BitVec 16) <<< xr.toNat) } }

/-- `s` with `pc` at the next descriptor, as RUN leaves it before it executes the one it fetched (43_packer.md R156). -/
def pcAdvanced (s : State) : State := { s with cpp := { s.cpp with pc := s.cpp.pc + 1 } }

/-- The value of a field of `w16` width holding the number `w`, signed or not (43_packer.md R166). -/
def fieldNumber (w16 sgn : Bool) (w : BitVec 16) : Int :=
  match w16, sgn with
  | true, true => w.toInt
  | true, false => w.toNat
  | false, true => (w.extractLsb' 0 8).toInt
  | false, false => (w.extractLsb' 0 8).toNat

/-- The descriptors other than END (30_encoding.md R72). -/
def isField : Instr → Bool
  | .enum8 _ _ | .twos _ _ _ _ | .twos8 _ _ | .twos16be _ _ | .twos16le _ _ | .fixp _ _ _ _ _
  | .fixp8 _ _ _ | .fixp16be _ _ _ | .fixp16le _ _ _ | .bitf _ _ _ _ | .tail | .rtimer _ _
  | .reservedKind _ _ _ _ _ _ _ _ | .u8 _ | .bit _ _ _ | .s8 _ | .s16be _ | .s16le _ => true
  | .noevent | .rxbyte _ | .tick | .rxbyteTick _ | .nop | .pack _ | .unpack | .encode | .send | .rxpop
  | .rxen | .rxdis | .clrx | .softreset | .reservedCmd _ _ | .endShape | .decode | .txbyte | .flush
  | .csum _ | .cmdtabEntry _ _ => false

/-- The interrupt registers and the bus read data taken out of the picture (60_exceptions.md R223). -/
def withoutIrq (s : State) : State :=
  { s with irq := { irqPend := 0, irqEn := 0 }, env := { s.env with rdata := 0 } }

/-! ## The invariant -/

/-- A candidate has 1 to ACC_CAP bytes, and exactly ACC_CAP when marked (10_state.md R12, 40_delimiter.md R98). -/
def Candidate.ok (c : Candidate) : Prop :=
  1 ≤ c.bytes.length ∧ c.bytes.length ≤ Config.accCap ∧ (c.ovf = true → c.bytes.length = Config.accCap)

/-- The receive side: the buffers within their capacity, the timer at rest while nothing is accumulated
(10_state.md R11, R12; 44_host.md R193, R194). -/
def RxInv (s : State) : Prop :=
  s.fd.acc.length ≤ Config.accCap ∧ (s.fd.accOvf = true → s.fd.acc.length = Config.accCap)
  ∧ (s.fd.acc = [] → s.fd.ict = 0) ∧ (s.fd.rxEn = false → s.fd.acc = [])
  ∧ s.fq.length ≤ Config.fqDepth ∧ ∀ c ∈ s.fq, c.ok

/-- The frame in TXB is well formed (30_encoding.md R61): its length is 10 + N + 2, and it validates. -/
def FrameInTxb (s : State) : Prop :=
  s.tx.txLen.toNat = 12 + (byteAt s (txbBase + 9)).toNat ∧ validates (bytesAt s txbBase s.tx.txLen.toNat) = true

/-- The transmit side: what TXB holds once ENCODE has run, what is being sent, and the guard at rest while a
frame is sent (10_state.md R18, R19; 42_codec.md R129 to R131). -/
def TxInv (s : State) : Prop :=
  (s.tx.encValid = true → FrameInTxb s) ∧ (s.tx.encValid = false → s.tx.txLen = 0)
  ∧ (s.tx.txBusy = true → s.tx.encValid = true ∧ s.tx.txIdx.toNat < s.tx.txLen.toNat ∧ s.tx.txg = 0)

/-- The last-error registers hold the codes of 60_exceptions.md R218 and no others. -/
def CodeInv (s : State) : Prop :=
  s.log.rxerrCode ∈ ([0x00, 0x01, 0x02, 0x03] : List Byte)
  ∧ s.log.rxerrLen.toNat ≤ Config.accCap
  ∧ s.op.opCode ∈ ([0x00, 0x10, 0x11, 0x12, 0x13, 0x14, 0x20, 0x21, 0x22, 0x30, 0x31] : List Byte)

/-- The memory keeps its canonical form and lists only offsets that exist (20_memory.md R48). -/
def MemInv (s : State) : Prop := Memory.wf s.mem ∧ Memory.allMapped s.mem

/-- The invariant of the machine. -/
def MachineInv (s : State) : Prop := MemInv s ∧ RxInv s ∧ TxInv s ∧ CodeInv s

end Sys2Proof.Machine
end

