-- ==== Sys2Proof/Certificates/Slice0/Obligations.lean ====
section
/-! DEFINITION. Certificates/Slice0/Obligations.lean: the statements for the provers. -/

open Sys2Proof Sys2Proof.Machine

/-! ## Encoding -/

/-- Words written out from the encodings of R68 to R73 decode to the instructions they stand for. Where several rows
name one word the decoder answers the most specific spelling, which is the model's reading of R78 and R79 (log 5): so
for the TWOS, FIXP and BITF words here, which it answers as twos16be, fixp16be, fixp16le, u8, bit and, where there is
no spelling more specific, bitf. -/
def Obligations.WrittenWordsDecodeToTheirInstructions : Prop :=
  decode (.line 0b0110100101) = .ok (.rxbyte 0xA5)
  ∧ decode (.line 0b1100100010) = .ok (.rxbyteTick 0x22)
  ∧ decode (.cmd 0x0100017C) = .ok (.pack 0x017C)
  ∧ decode (.cmd 0x09FFFFFF) = .ok .softreset
  ∧ decode (.cmd 0xFF001234) = .ok (.reservedCmd 0xFF 0x1234)
  ∧ decode (.desc 0x11000003) = .ok (.enum8 1 3)
  ∧ decode (.desc 0x2208000C) = .ok (.twos16be 2 12)
  ∧ decode (.desc 0x300A0001) = .ok (.fixp16be 0 true 1)
  ∧ decode (.desc 0x300C0800) = .ok (.fixp16le 0 false 2048)
  ∧ decode (.desc 0x41000021) = .ok (.bitf 1 false 2 1)
  ∧ decode (.desc 0x40010080) = .ok (.u8 0)
  ∧ decode (.desc 0x42010017) = .ok (.bit 2 true 7)
  ∧ decode (.desc 0x60100000) = .ok (.rtimer 0 1)
  ∧ decode (.entry 0x8002007E) = .ok (.cmdtabEntry 2 0x007E)
  ∧ decode (.entry 0x0002007E) = .error .entryNotValid

/-- Decode and encode agree, for every instruction a word can hold and every value of its operands: the words
of a well-formed instruction decode to it in its most specific spelling, so to itself when it is written in that
spelling (log 5). -/
def Obligations.DecodeInvertsEncode : Prop :=
  ∀ (i : Instr) (c : Code), i.wellFormed = true → encode i = some c →
    decode c = .ok i.canon ∧ (i.canonical = true → decode c = .ok i)

/-! ## The step -/

/-- A step runs the instruction its input decodes to: a line sample, a word written to CMD, a turn of DEC or of
TXU; with nothing pending DEC goes if its guard holds and otherwise the line is quiet (logs 1, 2). Around `exec`
the step takes the event and advances the model's own `draw` (log 8). -/
def Obligations.StepRunsTheDecodedInstruction : Prop :=
  ∀ (s : State) (rest : List Event),
    let taken : State := { s with env := { s.env with pending := rest, draw := s.env.draw + 1 } }
    (∀ w i, s.env.pending = .sample w :: rest → decode (.line w) = .ok i → step s = exec i taken)
    ∧ (∀ w i, s.env.pending = .hostWrite 0x040 w :: rest → decode (.cmd w) = .ok i → step s = exec i taken)
    ∧ (s.env.pending = .decTurn :: rest → step s = exec .decode taken)
    ∧ (s.env.pending = .txReady :: rest → step s = exec .txbyte taken)
    ∧ (s.env.pending = [] → rest = [] → s.fq ≠ [] → s.dec.rxpValid = false → step s = exec .decode taken)
    ∧ (s.env.pending = [] → rest = [] → (s.fq = [] ∨ s.dec.rxpValid = true) → step s = exec .noevent taken)

/-- RUN executes what it fetches: when the word at SHM[pc] decodes to `i`, the loop executes `i`, and goes on
while `pk_state` is IDLE. -/
def Obligations.RunExecutesTheFetchedDescriptor : Prop :=
  ∀ (n : Nat) (s : State) (i : Instr), decode (.desc (shmWord s s.cpp.pc)) = .ok i →
    ∃ t, exec i s = .next t
      ∧ (t.cpp.pkState = .idle → runLoop (n + 1) s = runLoop n t)
      ∧ (t.cpp.pkState ≠ .idle → runLoop (n + 1) s = .next t)

/-- The block never halts: from every state whatever, every operation and every step answers a next state. -/
def Obligations.MachineNeverHalts : Prop :=
  (∀ (i : Instr) (s : State), ∃ t, exec i s = .next t) ∧ (∀ s : State, ∃ t, step s = .next t)

/-- The state after reset meets the invariant. -/
def Obligations.ResetStateIsInvariant : Prop := MachineInv State.reset

/-- Every step keeps the invariant: the memory's canonical form, the buffers within their bounds (ACC_CAP = 512 and
FQ_DEPTH = 4, log 16), the frame in TXB well formed, the guard at rest while a frame is sent, the error registers within the code table. -/
def Obligations.EveryStepKeepsTheInvariant : Prop :=
  ∀ s t : State, MachineInv s → step s = .next t → MachineInv t

/-- A clock with rst = 1 (an event of the model, log 22) leaves every piece of state the spec gives a hard-reset value
at that value, whatever the state was; the inputs still to come stay, and what the transport has received stays
received (log 18). -/
def Obligations.HardResetLeavesTheResetValues : Prop :=
  ∀ (s : State) (rest : List Event), s.env.pending = .rst :: rest →
    ∃ t, step s = .next t
      ∧ t.fd = { rxEn := false, ict := 0, acc := [], accOvf := false }
      ∧ t.fq = [] ∧ t.dec.rxpValid = false
      ∧ t.log = { rxerrCode := 0, rxerrLen := 0, cntFfe := 0, cntCsum := 0, cntDrop := 0, cntOk := 0 }
      ∧ t.tx = { hdr := Header.zero, txLen := 0, encValid := false, txBusy := false, txIdx := 0, txg := 0 }
      ∧ t.cpp = { plen := 0, payOk := false, tailLen := 0, x := t.cpp.x, xv := 0, pc := 0, cur := 0,
                  pkState := .idle, pkDir := .pack, cmdCode := 0 }
      ∧ t.op = { opCode := 0, opPc := 0, opCur := 0 } ∧ t.irq = { irqPend := 0, irqEn := 0 }
      ∧ t.cfg = { tieEven := false, cc16 := false, tChar := 0, tPkt := 0, tTxIdle := 0, mtReg := 0 }
      ∧ (∀ e < 128, wordAt t (0x1400 + 4 * e) = 0)
      ∧ t.env.pending = rest ∧ t.env.txOut = s.env.txOut

/-! ## The line -/

/-- FLUSH: nothing is pushed when nothing is accumulated; else the candidate goes to the tail of the queue, or is
lost and counted when the queue, of FQ_DEPTH = 4 candidates (R8; the model's choice of size, log 16), is full. -/
def Obligations.FlushClosesTheAccumulation : Prop :=
  ∀ s : State,
    (s.fd.acc = [] → exec .flush s = .next { s with fd := { s.fd with ict := 0 } })
    ∧ (s.fd.acc ≠ [] → s.fq.length < 4 → exec .flush s = .next { s with
        fd := { s.fd with acc := [], accOvf := false, ict := 0 }
        fq := s.fq ++ [{ bytes := s.fd.acc, ovf := s.fd.accOvf }] })
    ∧ (s.fd.acc ≠ [] → 4 ≤ s.fq.length → exec .flush s = .next { s with
        fd := { s.fd with acc := [], accOvf := false, ict := 0 }
        log := { s.log with cntDrop := if s.log.cntDrop = 0xFFFF then 0xFFFF else s.log.cntDrop + 1 }
        irq := { s.irq with irqPend := s.irq.irqPend ||| 0x08 } })

/-- RXBYTE: discarded while the receiver is off; appended in time, or discarded with the mark and the interrupt
when the buffer, of ACC_CAP = 512 bytes (R8; the model's choice of size, log 16), is full; a late byte closes the old
accumulation and opens a new one. -/
def Obligations.RxbyteAppendsOrOpensAFreshAccumulation : Prop :=
  ∀ (s : State) (b : Byte),
    (s.fd.rxEn = false → exec (.rxbyte b) s = .next s)
    ∧ (s.fd.rxEn = true → (s.fd.acc = [] ∨ s.fd.ict < s.cfg.tChar) → s.fd.acc.length < 512 →
        exec (.rxbyte b) s = .next { s with fd := { s.fd with acc := s.fd.acc ++ [b], ict := 0 } })
    ∧ (s.fd.rxEn = true → (s.fd.acc = [] ∨ s.fd.ict < s.cfg.tChar) → 512 ≤ s.fd.acc.length →
        exec (.rxbyte b) s = .next { s with
          fd := { s.fd with accOvf := true, ict := 0 }
          irq := { s.irq with irqPend := s.irq.irqPend ||| 0x04 } })
    ∧ (s.fd.rxEn = true → s.fd.acc ≠ [] → s.cfg.tChar ≤ s.fd.ict →
        ∃ u, exec .flush s = .next u
          ∧ exec (.rxbyte b) s = .next { u with fd := { u.fd with acc := [b], ict := 0 } })

/-- TICK: the transmit guard counts down whether or not the receiver is on; the timer counts only while the
receiver is on and an accumulation is open, saturates, and flushes once it exceeds T_PKT. In a state with `tx_busy` = 1
and a guard above 0, which no run reaches (MachineInv), the guard counts as well: R131 says that it does not count while
a frame is sent because it is loaded only at the end of one, and the model's TICK does not look at `tx_busy` (log 20). -/
def Obligations.TickCountsGuardAndTimer : Prop :=
  ∀ s : State,
    let g : Tx := if s.tx.txg = 0 then s.tx else { s.tx with txg := s.tx.txg - 1 }
    let k : BitVec 16 := if s.fd.ict = 0xFFFF then 0xFFFF else s.fd.ict + 1
    ((s.fd.rxEn = false ∨ s.fd.acc = []) → exec .tick s = .next { s with tx := g })
    ∧ (s.fd.rxEn = true → s.fd.acc ≠ [] → k ≤ s.cfg.tPkt →
        exec .tick s = .next { s with tx := g, fd := { s.fd with ict := k } })
    ∧ (s.fd.rxEn = true → s.fd.acc ≠ [] → s.cfg.tPkt < k →
        ∃ u, exec .flush { s with tx := g, fd := { s.fd with ict := k } } = .next u ∧ exec .tick s = .next u)

/-- A sample with byte and tick is RXBYTE, then TICK, in one step; a sample with neither, and NOP, change
nothing. -/
def Obligations.CoincidentByteComesBeforeTheTick : Prop :=
  ∀ (s : State) (b : Byte),
    (∃ t u, exec (.rxbyte b) s = .next t ∧ exec .tick t = .next u ∧ exec (.rxbyteTick b) s = .next u)
    ∧ exec .noevent s = .next s ∧ exec .nop s = .next s

/-- With no further byte the accumulation is flushed on tick number T_PKT + 1 after the last byte, and not
before; the queue, of FQ_DEPTH = 4, has room (log 16). -/
def Obligations.SilenceFlushesOnTickTpktPlusOne : Prop :=
  ∀ s : State, s.fd.rxEn = true → s.fd.acc ≠ [] → s.fd.ict = 0 → s.cfg.tPkt.toNat ≤ 0xFFFE → s.fq.length < 4 →
    (∀ k ≤ s.cfg.tPkt.toNat, ∃ t, execAll (ticks k) s = .next t
      ∧ t.fd = { s.fd with ict := BitVec.ofNat 16 k } ∧ t.fq = s.fq)
    ∧ ∃ t, execAll (ticks (s.cfg.tPkt.toNat + 1)) s = .next t
      ∧ t.fd = { s.fd with acc := [], accOvf := false, ict := 0 }
      ∧ t.fq = s.fq ++ [{ bytes := s.fd.acc, ovf := s.fd.accOvf }]

/-- Two consecutive bytes separated by `k` ticks are in the same candidate when k < T_CHAR and in different
candidates when k >= T_CHAR, whether the timer or the late byte closes the first; buffer and queue, of ACC_CAP = 512
and FQ_DEPTH = 4, have room (log 16). -/
def Obligations.TheGapDecidesTheCandidate : Prop :=
  ∀ (s : State) (k : Nat) (b : Byte), s.fd.rxEn = true → s.fd.acc ≠ [] → s.fd.ict = 0 →
    s.cfg.tChar ≤ s.cfg.tPkt → s.cfg.tPkt.toNat ≤ 0xFFFE →
    (k < s.cfg.tChar.toNat → s.fd.acc.length < 512 →
      ∃ t, execAll (ticks k ++ [.rxbyte b]) s = .next t ∧ t.fd.acc = s.fd.acc ++ [b] ∧ t.fd.ict = 0 ∧ t.fq = s.fq)
    ∧ (s.cfg.tChar.toNat ≤ k → s.fq.length < 4 →
      ∃ t, execAll (ticks k ++ [.rxbyte b]) s = .next t ∧ t.fd.acc = [b] ∧ t.fd.ict = 0
        ∧ t.fq = s.fq ++ [{ bytes := s.fd.acc, ovf := s.fd.accOvf }])

/-- One burst, one candidate: bytes whose inner gaps are all below T_CHAR ticks, followed by T_PKT + 1 ticks of
silence, leave exactly one candidate in the queue, with exactly these bytes in order; only the delimiter, the queue
and the guard's count have changed. The burst fits ACC_CAP = 512 bytes and the queue, of FQ_DEPTH = 4, has room
(log 16). -/
def Obligations.OneBurstIsOneCandidate : Prop :=
  ∀ (s : State) (b : Byte) (rest : List (Nat × Byte)),
    s.fd.rxEn = true → s.fd.acc = [] → s.fd.accOvf = false → s.fq.length < 4 →
    s.cfg.tChar ≤ s.cfg.tPkt → s.cfg.tPkt.toNat ≤ 0xFFFE →
    rest.length < 512 → (∀ p ∈ rest, p.1 < s.cfg.tChar.toNat) →
    ∃ t, execAll (.rxbyte b :: (burst rest ++ ticks (s.cfg.tPkt.toNat + 1))) s = .next t
      ∧ t = { s with
          fd := { s.fd with ict := 0 }
          fq := s.fq ++ [{ bytes := b :: rest.map (·.2), ovf := false }]
          tx := { s.tx with txg := t.tx.txg } }

/-! ## The checksum -/

/-- CSUM returns the running dual sum: seeds 0xAA and 0, modulus 255, sum2 uses the sum1 just updated,
check1 = (sum1 + sum2) mod 255, check2 = (sum1 + check1) mod 255; it writes nothing but its result (log 13). -/
def Obligations.CsumReturnsTheDualSum : Prop :=
  ∀ (bytes : List Byte) (s : State),
    let sums := bytes.foldl (fun (p : Nat × Nat) b =>
      ((p.1 + b.toNat) % 255, (p.2 + (p.1 + b.toNat) % 255) % 255)) (0xAA, 0)
    let check1 := (sums.1 + sums.2) % 255
    let check2 := (sums.1 + check1) % 255
    exec (.csum bytes) s = .next { s with env := { s.env with
      csumOut := (BitVec.ofNat 8 check1, BitVec.ofNat 8 check2) } }

/-- The running sums stay within 0 to 254, and so do the check bytes: 0xFF is never produced, and a frame whose
last or last but one byte is 0xFF never validates. -/
def Obligations.CheckBytesAreNever0xFF : Prop :=
  (∀ bytes : List Byte, (csumSums bytes).1 ≤ 254 ∧ (csumSums bytes).2 ≤ 254
    ∧ (csum bytes).1.toNat ≤ 254 ∧ (csum bytes).2.toNat ≤ 254)
  ∧ ∀ (body : List Byte) (a b : Byte), a = 0xFF ∨ b = 0xFF → validates (body ++ [a, b]) = false

/-- A byte 0x00 and a byte 0xFF anywhere in the input are indistinguishable to the checksum. -/
def Obligations.ZeroAndFFBytesAreIndistinguishable : Prop :=
  ∀ pre post : List Byte, csum (pre ++ 0x00 :: post) = csum (pre ++ 0xFF :: post)

/-! ## The codec -/

/-- ENCODE lays out the nine staged header bytes, the length byte, the payload and the two check bytes in TXB,
and changes nothing else but `tx_len` and `enc_valid`; while a frame is sent, or with nothing staged, it is refused. -/
def Obligations.EncodeBuildsTheFrame : Prop :=
  ∀ s : State,
    let h := s.tx.hdr
    let body := [h.dst, h.src, h.subnet, h.sendMethod, h.sp0, h.sp1, h.srcNodeType, h.msgType, h.pktByte, s.cpp.plen]
      ++ bytesAt s payBase s.cpp.plen.toNat
    (s.tx.txBusy = false → s.cpp.payOk = true →
      ∃ t, exec .encode s = .next t
        ∧ t = { s with
            tx := { s.tx with txLen := BitVec.ofNat 9 (12 + s.cpp.plen.toNat), encValid := true }
            mem := t.mem }
        ∧ Stored txbBase (body ++ [(csum body).1, (csum body).2]) s t)
    ∧ ((s.tx.txBusy = true ∨ s.cpp.payOk = false) → exec .encode s = .next (refusedWith 0x30 s))

/-- DECODE of a valid frame delivers every field to the packet slot and the payload to RXPAY, looks the message
type up in MT_REG, counts the packet and raises RXPKT. -/
def Obligations.DecodeDeliversAValidFrame : Prop :=
  ∀ (s : State) (c : Candidate) (rest : List Candidate) (n : Nat),
    s.fq = c :: rest → s.dec.rxpValid = false →
    c.bytes.length = 12 + n → (c.bytes.getD 9 0).toNat = n →
    c.bytes.drop (10 + n) = [(csum (c.bytes.take (10 + n))).1, (csum (c.bytes.take (10 + n))).2] →
    ∃ t, exec .decode s = .next t
      ∧ t = { s with
          fq := rest
          dec := { rxpValid := true, rxp := {
            dst := c.bytes.getD 0 0, src := c.bytes.getD 1 0, subnet := c.bytes.getD 2 0
            sendMethod := c.bytes.getD 3 0, sp0 := c.bytes.getD 4 0, sp1 := c.bytes.getD 5 0
            srcNodeType := c.bytes.getD 6 0, msgType := c.bytes.getD 7 0
            dataFlow := (c.bytes.getD 8 0).getLsbD 7, pktNum := (c.bytes.getD 8 0).extractLsb' 0 7
            plen := c.bytes.getD 9 0
            known := s.cfg.mtReg.getLsbD (c.bytes.getD 7 0).toNat } }
          log := { s.log with cntOk := if s.log.cntOk = 0xFFFF then 0xFFFF else s.log.cntOk + 1 }
          irq := { s.irq with irqPend := s.irq.irqPend ||| 0x01 }
          mem := t.mem }
      ∧ Stored rxpayBase ((c.bytes.drop 10).take n) s t

/-- DECODE of a bad candidate drops it and logs it: SHORT before LENGTH before CHECKSUM, and nothing else changes
(`rxp`, RXPAY, `cnt_ok` and the other candidates among it); without a candidate, or while the slot is full, DEC
has no step (the row DECODE changes nothing then, log 15). -/
def Obligations.DecodeDropsAndLogsABadFrame : Prop :=
  ∀ s : State,
    let logged (code : Byte) (len : Nat) : RxLog :=
      { s.log with rxerrCode := code, rxerrLen := BitVec.ofNat 10 len }
    let ffe := if s.log.cntFfe = 0xFFFF then 0xFFFF else s.log.cntFfe + 1
    let bad := if s.log.cntCsum = 0xFFFF then 0xFFFF else s.log.cntCsum + 1
    let irq : Irq := { s.irq with irqPend := s.irq.irqPend ||| 0x02 }
    (∀ c rest, s.fq = c :: rest → s.dec.rxpValid = false →
      let L := c.bytes.length
      (L < 10 → exec .decode s = .next { s with
        fq := rest, log := { logged 0x01 L with cntFfe := ffe }, irq := irq })
      ∧ (10 ≤ L → (L < 12 ∨ (c.bytes.getD 9 0).toNat ≠ L - 12) → exec .decode s = .next { s with
        fq := rest, log := { logged 0x02 L with cntFfe := ffe }, irq := irq })
      ∧ (12 ≤ L → (c.bytes.getD 9 0).toNat = L - 12 →
        c.bytes.drop (L - 2) ≠ [(csum (c.bytes.take (L - 2))).1, (csum (c.bytes.take (L - 2))).2] →
        exec .decode s = .next { s with
          fq := rest, log := { logged 0x03 L with cntCsum := bad }, irq := irq }))
    ∧ ((s.fq = [] ∨ s.dec.rxpValid = true) → exec .decode s = .next s)

/-- Decode of encode: the frame ENCODE left in TXB, taken by DECODE as a candidate in any state whatever, is
accepted, and gives back every staged header field, the payload length and the payload bytes. -/
def Obligations.DecodingTheEncodedFrameGivesBackThePacket : Prop :=
  ∀ (s t u : State) (o : Bool) (rest : List Candidate), s.tx.txBusy = false → s.cpp.payOk = true →
    exec .encode s = .next t →
    u.fq = { bytes := bytesAt t txbBase t.tx.txLen.toNat, ovf := o } :: rest → u.dec.rxpValid = false →
    ∃ v, exec .decode u = .next v
      ∧ v.dec = { rxpValid := true, rxp := {
          dst := s.tx.hdr.dst, src := s.tx.hdr.src, subnet := s.tx.hdr.subnet, sendMethod := s.tx.hdr.sendMethod
          sp0 := s.tx.hdr.sp0, sp1 := s.tx.hdr.sp1, srcNodeType := s.tx.hdr.srcNodeType
          msgType := s.tx.hdr.msgType, dataFlow := s.tx.hdr.pktByte.getLsbD 7
          pktNum := s.tx.hdr.pktByte.extractLsb' 0 7, plen := s.cpp.plen
          known := u.cfg.mtReg.getLsbD s.tx.hdr.msgType.toNat } }
      ∧ bytesAt v rxpayBase s.cpp.plen.toNat = bytesAt s payBase s.cpp.plen.toNat

/-- RXPOP frees the packet slot; SEND starts the frame from its first byte; with no packet, or while the frame
cannot be sent, they are refused. -/
def Obligations.RxpopFreesTheSlotAndSendStartsTheFrame : Prop :=
  ∀ s : State,
    (s.dec.rxpValid = true → exec .rxpop s = .next { s with dec := { s.dec with rxpValid := false } })
    ∧ (s.dec.rxpValid = false → exec .rxpop s = .next (refusedWith 0x30 s))
    ∧ (s.tx.encValid = true → s.tx.txBusy = false → s.tx.txg = 0 →
        exec .send s = .next { s with tx := { s.tx with txBusy := true, txIdx := 0 } })
    ∧ ((s.tx.encValid = false ∨ s.tx.txBusy = true ∨ s.tx.txg ≠ 0) → exec .send s = .next (refusedWith 0x30 s))

/-- `tx_valid` follows `tx_busy`, with TXB[tx_idx] on `tx_data`. TXBYTE hands that byte over; the last
byte of the frame ends it, loads the guard and raises TXDONE; while nothing is sent TXU has no step (the row TXBYTE changes nothing then, log 15; `env.txOut` is the model's record of
the bytes handed over, log 18). -/
def Obligations.TxbyteHandsOverOneByte : Prop :=
  ∀ s : State,
    let out : Env := { s.env with txOut := s.env.txOut ++ [byteAt s (txbBase + s.tx.txIdx.toNat)] }
    (txValid s = s.tx.txBusy ∧ txData s = byteAt s (txbBase + s.tx.txIdx.toNat))
    ∧ (s.tx.txBusy = true → s.tx.txIdx + 1 ≠ s.tx.txLen →
      exec .txbyte s = .next { s with tx := { s.tx with txIdx := s.tx.txIdx + 1 }, env := out })
    ∧ (s.tx.txBusy = true → s.tx.txIdx + 1 = s.tx.txLen →
      exec .txbyte s = .next { s with
        tx := { s.tx with txIdx := s.tx.txIdx + 1, txBusy := false, txg := s.cfg.tTxIdle }
        irq := { s.irq with irqPend := s.irq.irqPend ||| 0x10 }
        env := out })
    ∧ (s.tx.txBusy = false → exec .txbyte s = .next s)

/-- An accepted SEND and as many TXBYTE as the frame is long hand over exactly the bytes of TXB in index order (into
`env.txOut`, log 18); before the last the transmitter is busy, after it the guard runs. -/
def Obligations.SendHandsOverTheWholeFrame : Prop :=
  ∀ s : State, s.tx.encValid = true → s.tx.txBusy = false → s.tx.txg = 0 → s.tx.txLen ≠ 0 →
    (∀ k < s.tx.txLen.toNat, ∃ t, execAll (.send :: List.replicate k .txbyte) s = .next t
      ∧ t.tx.txBusy = true ∧ t.tx.txIdx.toNat = k ∧ t.env.txOut = s.env.txOut ++ bytesAt s txbBase k)
    ∧ ∃ t, execAll (.send :: List.replicate s.tx.txLen.toNat .txbyte) s = .next t
      ∧ t.tx.txBusy = false ∧ t.tx.txg = s.cfg.tTxIdle
      ∧ t.env.txOut = s.env.txOut ++ bytesAt s txbBase s.tx.txLen.toNat
      ∧ t.irq.irqPend = s.irq.irqPend ||| 0x10

/-- While the guard runs SEND is refused: it is accepted after as many ticks as the guard held, and not before. -/
def Obligations.SendWaitsForTheIdlePeriod : Prop :=
  ∀ (s : State) (k : Nat), s.tx.encValid = true → s.tx.txBusy = false →
    ∃ t, execAll (ticks k) s = .next t
      ∧ (k < s.tx.txg.toNat → exec .send t = .next (refusedWith 0x30 t))
      ∧ (s.tx.txg.toNat ≤ k → exec .send t = .next { t with tx := { t.tx with txBusy := true, txIdx := 0 } })

/-- The refusals: a command in a state it cannot act on, and every reserved opcode, records its code and changes
nothing else; PACK, NOP, RXEN, RXDIS, CLRX and SOFTRESET are never refused. -/
def Obligations.RefusalsRecordTheirCodeAndChangeNothingElse : Prop :=
  ∀ s : State,
    ((s.tx.txBusy = true ∨ s.cpp.payOk = false) → exec .encode s = .next (refusedWith 0x30 s))
    ∧ ((s.tx.encValid = false ∨ s.tx.txBusy = true ∨ s.tx.txg ≠ 0) → exec .send s = .next (refusedWith 0x30 s))
    ∧ (s.dec.rxpValid = false → exec .rxpop s = .next (refusedWith 0x30 s))
    ∧ (s.dec.rxpValid = false → exec .unpack s = .next (refusedWith 0x30 s))
    ∧ (∀ w : Word, 0x0A ≤ (w.extractLsb' 24 8).toNat →
        decode (.cmd w) = .ok (.reservedCmd (w.extractLsb' 24 8) (w.extractLsb' 0 16))
        ∧ exec (.reservedCmd (w.extractLsb' 24 8) (w.extractLsb' 0 16)) s = .next (refusedWith 0x31 s))
    ∧ (∀ (i : Instr) (t : State),
        ((∃ code, i = .pack code) ∨ i = .nop ∨ i = .rxen ∨ i = .rxdis ∨ i = .clrx ∨ i = .softreset) →
        exec i s = .next t →
        t.op = s.op ∨ (t.op.opCode ≠ 0x30 ∧ t.op.opCode ≠ 0x31))

/-! ## The system commands -/

/-- RXEN starts with an empty accumulation and does nothing with the receiver on; RXDIS flushes and switches off,
and does nothing with the receiver off; CLRX clears the valid bits. -/
def Obligations.ReceiverSwitchesAndClrx : Prop :=
  ∀ s : State,
    (s.fd.rxEn = false → exec .rxen s = .next { s with fd := { rxEn := true, acc := [], accOvf := false, ict := 0 } })
    ∧ (s.fd.rxEn = true → exec .rxen s = .next s)
    ∧ (s.fd.rxEn = true → ∃ u, exec .flush s = .next u
        ∧ exec .rxdis s = .next { u with fd := { u.fd with rxEn := false } })
    ∧ (s.fd.rxEn = false → exec .rxdis s = .next s)
    ∧ (∃ t, exec .clrx s = .next t ∧ t = { s with cpp := { s.cpp with x := t.cpp.x, xv := 0 } })

/-- SOFTRESET puts everything but the configuration, SHM, CMDTAB and ESET at its reset value; a frame being
transmitted is abandoned where it is, the bytes already handed over stay handed over (`env.txOut`, log 18). -/
def Obligations.SoftresetKeepsTheConfiguration : Prop :=
  ∀ s : State, ∃ t, exec .softreset s = .next t
    ∧ t.fd = { rxEn := false, ict := 0, acc := [], accOvf := false }
    ∧ t.fq = [] ∧ t.dec.rxpValid = false
    ∧ t.log = { rxerrCode := 0, rxerrLen := 0, cntFfe := 0, cntCsum := 0, cntDrop := 0, cntOk := 0 }
    ∧ t.tx = { hdr := Header.zero, txLen := 0, encValid := false, txBusy := false, txIdx := 0, txg := 0 }
    ∧ t.cpp = { plen := 0, payOk := false, tailLen := 0, x := t.cpp.x, xv := 0, pc := 0, cur := 0,
                pkState := .idle, pkDir := .pack, cmdCode := 0 }
    ∧ t.op = { opCode := 0, opPc := 0, opCur := 0 } ∧ t.irq = { irqPend := 0, irqEn := 0 }
    ∧ t.cfg = s.cfg ∧ (∀ a, 0x1000 ≤ a → byteAt t a = byteAt s a)
    ∧ t.env.txOut = s.env.txOut ∧ t.env.pending = s.env.pending

/-! ## The descriptors: `exec` of one is one iteration of RUN that has fetched it (log 19) -/

/-- END: in pack direction the payload length becomes the cursor and the payload is complete; in unpack direction
the program is done; `pc` is left at the END. -/
def Obligations.EndCompletesTheShape : Prop :=
  ∀ s : State,
    (s.cpp.pkDir = .pack → exec .endShape s = .next { s with cpp := { s.cpp with
      plen := s.cpp.cur, payOk := true, pkState := .done } })
    ∧ (s.cpp.pkDir = .unpack → exec .endShape s = .next { s with cpp := { s.cpp with pkState := .done } })

/-- ENUM8 stores, and takes from a received byte, a value of its closed set; membership is bit v[4:0] of word
v[7:5] of the set. -/
def Obligations.Enum8CarriesAMemberOfItsSet : Prop :=
  ∀ (s : State) (xr : XIndex) (set : BitVec 5) (v : Byte),
    (wordAt s (0x1800 + 32 * set.toNat + 4 * (v.toNat / 32))).getLsbD (v.toNat % 32) = true →
    (PackReady s → getx s xr = some (v.setWidth 32) → s.cpp.cur.toNat + 1 ≤ 255 →
      ∃ t, exec (.enum8 xr set) s = .next t ∧ PackedField [v] 1 s t)
    ∧ (UnpackReady s → s.cpp.cur.toNat + 1 ≤ s.dec.rxp.plen.toNat →
        byteAt s (rxpayBase + s.cpp.cur.toNat) = v →
        exec (.enum8 xr set) s = .next (unpackedField xr (v.setWidth 32) 1 s))

/-- TWOS in pack direction, in every spelling: a representable value is stored modulo 2^N, the upper bits 0, in
the byte order of LE. -/
def Obligations.TwosStoresARepresentableValue : Prop :=
  ∀ (s : State) (i : Instr) (xr : XIndex) (w16 le : Bool) (n : BitVec 5) (x : Word),
    TwosForm i xr w16 le n → 1 ≤ n.toNat → n.toNat ≤ (if w16 then 16 else 8) →
    PackReady s → getx s xr = some x →
    -(2 : Int) ^ (n.toNat - 1) ≤ x.toInt → x.toInt ≤ (2 : Int) ^ (n.toNat - 1) - 1 →
    s.cpp.cur.toNat + (if w16 then 2 else 1) ≤ 255 →
    ∃ t, exec i s = .next t
      ∧ PackedField (orderedBytes w16 le (BitVec.ofInt 16 (x.toInt % 2 ^ n.toNat))) (if w16 then 2 else 1) s t

/-- TWOS in unpack direction, in every spelling: the register takes the low N bits of the field as a two's
complement number; the upper bits are ignored. -/
def Obligations.TwosReadsTheLowBitsAsSigned : Prop :=
  ∀ (s : State) (i : Instr) (xr : XIndex) (w16 le : Bool) (n : BitVec 5) (w : BitVec 16),
    TwosForm i xr w16 le n → 1 ≤ n.toNat → n.toNat ≤ (if w16 then 16 else 8) →
    UnpackReady s → s.cpp.cur.toNat + (if w16 then 2 else 1) ≤ s.dec.rxp.plen.toNat →
    bytesAt s (rxpayBase + s.cpp.cur.toNat) (if w16 then 2 else 1) = orderedBytes w16 le w →
    exec i s = .next (unpackedField xr (BitVec.ofInt 32 (BitVec.ofNat n.toNat w.toNat).toInt)
      (if w16 then 2 else 1) s)

/-- FIXP in pack direction, in every spelling: round(value * scale), with 16 fraction bits in the register, is
stored when it fits the field. -/
def Obligations.FixpStoresTheRoundedProduct : Prop :=
  ∀ (s : State) (i : Instr) (xr : XIndex) (w16 le sgn : Bool) (scale : BitVec 16) (x : Word),
    FixpForm i xr w16 le sgn scale → scale ≠ 0 → PackReady s → getx s xr = some x →
    let q := roundTie s.cfg.tieEven ((if sgn then x.toInt else (x.toNat : Int)) * scale.toNat) 65536
    let fw := if w16 then 16 else 8
    (sgn = false → q ≤ (2 : Int) ^ fw - 1) →
    (sgn = true → -(2 : Int) ^ (fw - 1) ≤ q ∧ q ≤ (2 : Int) ^ (fw - 1) - 1) →
    s.cpp.cur.toNat + (if w16 then 2 else 1) ≤ 255 →
    ∃ t, exec i s = .next t
      ∧ PackedField (orderedBytes w16 le (BitVec.ofInt 16 q)) (if w16 then 2 else 1) s t

/-- FIXP in unpack direction, in every spelling: the register takes stored / scale with 16 fraction bits,
rounded. -/
def Obligations.FixpReadsTheRoundedQuotient : Prop :=
  ∀ (s : State) (i : Instr) (xr : XIndex) (w16 le sgn : Bool) (scale : BitVec 16) (w : BitVec 16),
    FixpForm i xr w16 le sgn scale → scale ≠ 0 → UnpackReady s →
    s.cpp.cur.toNat + (if w16 then 2 else 1) ≤ s.dec.rxp.plen.toNat →
    bytesAt s (rxpayBase + s.cpp.cur.toNat) (if w16 then 2 else 1) = orderedBytes w16 le w →
    exec i s = .next (unpackedField xr
      (BitVec.ofInt 32 (roundTie s.cfg.tieEven (fieldNumber w16 sgn w * 65536) scale.toNat))
      (if w16 then 2 else 1) s)

/-- BITF in pack direction, in every spelling: the bits POS to POS + WID - 1 of the byte at the cursor take the
value, every other bit of it is kept; ADV moves the cursor. -/
def Obligations.BitfSetsOnlyItsBits : Prop :=
  ∀ (s : State) (i : Instr) (xr : XIndex) (adv : Bool) (wid : BitVec 4) (pos : BitVec 3) (x : Word),
    BitfForm i xr adv wid pos → 1 ≤ wid.toNat → pos.toNat + wid.toNat ≤ 8 →
    PackReady s → getx s xr = some x → x.toNat < 2 ^ wid.toNat → s.cpp.cur.toNat + 1 ≤ 255 →
    ∃ t b, exec i s = .next t ∧ PackedField [b] (if adv then 1 else 0) s t
      ∧ ∀ k < 8, b.getLsbD k =
          if pos.toNat ≤ k ∧ k < pos.toNat + wid.toNat then x.getLsbD (k - pos.toNat)
          else (byteAt s (payBase + s.cpp.cur.toNat)).getLsbD k

/-- BITF in unpack direction, in every spelling: the register takes the bits POS to POS + WID - 1 of the byte at
the cursor, zero-extended; ADV moves the cursor. -/
def Obligations.BitfReadsOnlyItsBits : Prop :=
  ∀ (s : State) (i : Instr) (xr : XIndex) (adv : Bool) (wid : BitVec 4) (pos : BitVec 3),
    BitfForm i xr adv wid pos → 1 ≤ wid.toNat → pos.toNat + wid.toNat ≤ 8 →
    UnpackReady s → s.cpp.cur.toNat + 1 ≤ s.dec.rxp.plen.toNat →
    ∃ w, exec i s = .next (unpackedField xr w (if adv then 1 else 0) s)
      ∧ ∀ k < 32, w.getLsbD k =
          (decide (k < wid.toNat) && (byteAt s (rxpayBase + s.cpp.cur.toNat)).getLsbD (pos.toNat + k))

/-- TAIL: in pack direction the staged tail goes to the cursor; in unpack direction every remaining payload byte
goes to TAIL. -/
def Obligations.TailCopiesTheTail : Prop :=
  ∀ s : State,
    (PackReady s → s.cpp.cur.toNat + s.cpp.tailLen.toNat ≤ 255 →
      ∃ t, exec .tail s = .next t
        ∧ PackedField (bytesAt s tailBase s.cpp.tailLen.toNat) s.cpp.tailLen.toNat s t)
    ∧ (UnpackReady s → s.cpp.cur.toNat ≤ s.dec.rxp.plen.toNat →
      let k := s.dec.rxp.plen.toNat - s.cpp.cur.toNat
      ∃ t, exec .tail s = .next t
        ∧ t = { s with
            cpp := { s.cpp with pc := s.cpp.pc + 1, tailLen := BitVec.ofNat 8 k, cur := s.dec.rxp.plen }
            mem := t.mem }
        ∧ Stored tailBase (bytesAt s (rxpayBase + s.cpp.cur.toNat) k) s t)

/-- RTIMER: minutes clamp to 15 in the high nibble, seconds round to the nearest multiple of 3.75 in the low one;
unpacking gives the minutes and exactly that multiple, the seconds written last. -/
def Obligations.RtimerCarriesMinutesAndSeconds : Prop :=
  ∀ (s : State) (xr xr2 : XIndex),
    (∀ m sec : Word, PackReady s → getx s xr = some m → getx s xr2 = some sec → 0 ≤ m.toInt → 0 ≤ sec.toInt →
      let n := roundTie s.cfg.tieEven (sec.toInt * 4) 983040
      n ≤ 15 → s.cpp.cur.toNat + 1 ≤ 255 →
      ∃ t b, exec (.rtimer xr xr2) s = .next t ∧ PackedField [b] 1 s t
        ∧ (b.toNat : Int) = 16 * min m.toInt 15 + n)
    ∧ (UnpackReady s → s.cpp.cur.toNat + 1 ≤ s.dec.rxp.plen.toNat →
      let b := (byteAt s (rxpayBase + s.cpp.cur.toNat)).toNat
      exec (.rtimer xr xr2) s = .next { s with cpp := { s.cpp with
        pc := s.cpp.pc + 1
        cur := BitVec.ofNat 8 (s.cpp.cur.toNat + 1)
        x := (s.cpp.x.set xr.toNat (BitVec.ofNat 32 (b / 16)) xr.isLt).set xr2.toNat
          (BitVec.ofNat 32 (b % 16 * 245760)) xr2.isLt
        xv := s.cpp.xv ||| ((1 : BitVec 16) <<< xr.toNat) ||| ((1 : BitVec 16) <<< xr2.toNat) } })

/-- ShapeFault: every descriptor but END at index 255, every reserved kind, and every illegal parameter, before
any other test, in both directions. -/
def Obligations.MalformedShapesRaiseShapeFault : Prop :=
  ∀ s : State,
    (∀ i : Instr, isField i = true → s.cpp.pc = 255 →
      ∃ t, exec i s = .next t ∧ Faulted 0x20 255 s.cpp.cur s t)
    ∧ (s.cpp.pc ≠ 255 →
      (∀ kind xr xr2 w16 le sgn adv param, ∃ t, exec (.reservedKind kind xr xr2 w16 le sgn adv param) s = .next t
        ∧ Faulted 0x20 s.cpp.pc s.cpp.cur (pcAdvanced s) t)
      ∧ (∀ i xr w16 le n, TwosForm i xr w16 le n → (n.toNat = 0 ∨ (if w16 then 16 else 8) < n.toNat) →
        ∃ t, exec i s = .next t ∧ Faulted 0x20 s.cpp.pc s.cpp.cur (pcAdvanced s) t)
      ∧ (∀ i xr w16 le sgn, FixpForm i xr w16 le sgn 0 →
        ∃ t, exec i s = .next t ∧ Faulted 0x20 s.cpp.pc s.cpp.cur (pcAdvanced s) t)
      ∧ (∀ i xr adv wid pos, BitfForm i xr adv wid pos → (wid.toNat = 0 ∨ 8 < pos.toNat + wid.toNat) →
        ∃ t, exec i s = .next t ∧ Faulted 0x20 s.cpp.pc s.cpp.cur (pcAdvanced s) t))
    ∧ (∀ w : Word, 7 ≤ (w.extractLsb' 28 4).toNat →
        ∃ xr xr2 w16 le sgn adv param,
          decode (.desc w) = .ok (.reservedKind (w.extractLsb' 28 4) xr xr2 w16 le sgn adv param))

/-- An operand the host has not written raises CommandEncodingError(OPERAND), before the domain and space tests; `pc`
is past the descriptor, the fault is recorded, and nothing else changes but the bytes of PAY, of which R180 says nothing
and neither does the statement (free values, log 10). -/
def Obligations.UnwrittenOperandRaisesOperand : Prop :=
  ∀ (s : State) (xr : XIndex), PackReady s → s.cpp.xv.getLsbD xr.toNat = false →
    ∀ i : Instr,
      ((∃ set, i = .enum8 xr set)
        ∨ (∃ w16 le n, TwosForm i xr w16 le n ∧ twosLegal w16 n = true)
        ∨ (∃ w16 le sgn scale, FixpForm i xr w16 le sgn scale ∧ fixpLegal scale = true)
        ∨ (∃ adv wid pos, BitfForm i xr adv wid pos ∧ bitfLegal wid pos = true)
        ∨ (∃ x2, i = .rtimer xr x2 ∨ i = .rtimer x2 xr)) →
      ∃ t, exec i s = .next t ∧ Faulted 0x12 s.cpp.pc s.cpp.cur (pcAdvanced s) t

/-- A value outside a descriptor's domain is not masked, wrapped or saturated: it raises the exception of that
descriptor; `pc` is past the descriptor, the fault is recorded, and nothing else changes but the bytes of PAY, of which
R180 says nothing and neither does the statement (free values, log 10). -/
def Obligations.OutOfDomainValuesRaise : Prop :=
  ∀ (s : State) (xr : XIndex) (x : Word), PackReady s → getx s xr = some x →
    (∀ set, (255 < x.toNat ∨ esetHas s set x.toNat = false) →
      ∃ t, exec (.enum8 xr set) s = .next t ∧ Faulted 0x10 s.cpp.pc s.cpp.cur (pcAdvanced s) t)
    ∧ (∀ i w16 le n, TwosForm i xr w16 le n → twosLegal w16 n = true →
      (x.toInt < -(2 : Int) ^ (n.toNat - 1) ∨ (2 : Int) ^ (n.toNat - 1) - 1 < x.toInt) →
      ∃ t, exec i s = .next t ∧ Faulted 0x11 s.cpp.pc s.cpp.cur (pcAdvanced s) t)
    ∧ (∀ i w16 le sgn scale, FixpForm i xr w16 le sgn scale → fixpLegal scale = true →
      let q := roundTie s.cfg.tieEven ((if sgn then x.toInt else (x.toNat : Int)) * scale.toNat) 65536
      let fw := if w16 then 16 else 8
      ((sgn = false ∧ (2 : Int) ^ fw - 1 < q)
        ∨ (sgn = true ∧ (q < -(2 : Int) ^ (fw - 1) ∨ (2 : Int) ^ (fw - 1) - 1 < q))) →
      ∃ t, exec i s = .next t ∧ Faulted 0x11 s.cpp.pc s.cpp.cur (pcAdvanced s) t)
    ∧ (∀ i adv wid pos, BitfForm i xr adv wid pos → bitfLegal wid pos = true → 2 ^ wid.toNat ≤ x.toNat →
      ∃ t, exec i s = .next t ∧ Faulted 0x11 s.cpp.pc s.cpp.cur (pcAdvanced s) t)
    ∧ (∀ xr2 sec, getx s xr2 = some sec →
      (x.toInt < 0 ∨ sec.toInt < 0 ∨ 15 < roundTie s.cfg.tieEven (sec.toInt * 4) 983040) →
      ∃ t, exec (.rtimer xr xr2) s = .next t ∧ Faulted 0x11 s.cpp.pc s.cpp.cur (pcAdvanced s) t)

/-- In unpack direction a descriptor that needs more bytes than the payload has raises UnpackUnderrun and writes
no register; a received byte outside an ENUM8's set raises UnpackEnum. -/
def Obligations.ShortOrForeignPayloadsRaise : Prop :=
  ∀ s : State, UnpackReady s →
    (∀ (i : Instr) (xr : XIndex) (k : Nat),
      ((∃ set, i = .enum8 xr set ∧ k = 1)
        ∨ (∃ w16 le n, TwosForm i xr w16 le n ∧ twosLegal w16 n = true ∧ k = if w16 then 2 else 1)
        ∨ (∃ w16 le sgn scale, FixpForm i xr w16 le sgn scale ∧ fixpLegal scale = true ∧ k = if w16 then 2 else 1)
        ∨ (∃ adv wid pos, BitfForm i xr adv wid pos ∧ bitfLegal wid pos = true ∧ k = 1)
        ∨ (∃ xr2, i = .rtimer xr xr2 ∧ k = 1)) →
      s.dec.rxp.plen.toNat < s.cpp.cur.toNat + k →
      ∃ t, exec i s = .next t ∧ Faulted 0x21 s.cpp.pc s.cpp.cur (pcAdvanced s) t)
    ∧ (∀ xr set, s.cpp.cur.toNat + 1 ≤ s.dec.rxp.plen.toNat →
      esetHas s set (byteAt s (rxpayBase + s.cpp.cur.toNat)).toNat = false →
      ∃ t, exec (.enum8 xr set) s = .next t ∧ Faulted 0x22 s.cpp.pc s.cpp.cur (pcAdvanced s) t)

/-- In pack direction a descriptor whose bytes would pass PAY_MAX raises CommandEncodingError(OVERFLOW): 16-bit
fields from cursor 254 on, every one-byte field at cursor 255, and a tail that does not fit; the value being in
the descriptor's domain. -/
def Obligations.FullPayloadRaisesOverflow : Prop :=
  ∀ s : State, PackReady s →
    (255 < s.cpp.cur.toNat + s.cpp.tailLen.toNat →
      ∃ t, exec .tail s = .next t ∧ Faulted 0x13 s.cpp.pc s.cpp.cur (pcAdvanced s) t)
    ∧ (∀ (xr : XIndex) (x : Word), getx s xr = some x →
      (∀ set, x.toNat ≤ 255 → esetHas s set x.toNat = true → 255 < s.cpp.cur.toNat + 1 →
        ∃ t, exec (.enum8 xr set) s = .next t ∧ Faulted 0x13 s.cpp.pc s.cpp.cur (pcAdvanced s) t)
      ∧ (∀ i w16 le n, TwosForm i xr w16 le n → twosLegal w16 n = true →
        -(2 : Int) ^ (n.toNat - 1) ≤ x.toInt → x.toInt ≤ (2 : Int) ^ (n.toNat - 1) - 1 →
        255 < s.cpp.cur.toNat + (if w16 then 2 else 1) →
        ∃ t, exec i s = .next t ∧ Faulted 0x13 s.cpp.pc s.cpp.cur (pcAdvanced s) t)
      ∧ (∀ i w16 le sgn scale, FixpForm i xr w16 le sgn scale → scale ≠ 0 →
        let q := roundTie s.cfg.tieEven ((if sgn then x.toInt else (x.toNat : Int)) * scale.toNat) 65536
        let fw := if w16 then 16 else 8
        (sgn = false → q ≤ (2 : Int) ^ fw - 1) →
        (sgn = true → -(2 : Int) ^ (fw - 1) ≤ q ∧ q ≤ (2 : Int) ^ (fw - 1) - 1) →
        255 < s.cpp.cur.toNat + (if w16 then 2 else 1) →
        ∃ t, exec i s = .next t ∧ Faulted 0x13 s.cpp.pc s.cpp.cur (pcAdvanced s) t)
      ∧ (∀ i adv wid pos, BitfForm i xr adv wid pos → bitfLegal wid pos = true → x.toNat < 2 ^ wid.toNat →
        255 < s.cpp.cur.toNat + 1 →
        ∃ t, exec i s = .next t ∧ Faulted 0x13 s.cpp.pc s.cpp.cur (pcAdvanced s) t)
      ∧ (∀ xr2 sec, getx s xr2 = some sec → 0 ≤ x.toInt → 0 ≤ sec.toInt →
        roundTie s.cfg.tieEven (sec.toInt * 4) 983040 ≤ 15 → 255 < s.cpp.cur.toNat + 1 →
        ∃ t, exec (.rtimer xr xr2) s = .next t ∧ Faulted 0x13 s.cpp.pc s.cpp.cur (pcAdvanced s) t))

/-! ## Rounding and the round trips of the primitives -/

/-- `round_tie(num, den)` is an integer nearest to num / den: within half, and on an exact half the one away from
zero or the even one, as CTRL.TIE_EVEN says. -/
def Obligations.RoundTieIsNearest : Prop :=
  ∀ (even : Bool) (num den : Int), 0 < den →
    let q := roundTie even num den
    2 * |num - q * den| ≤ den
    ∧ (2 * |num - q * den| = den → even = true → q % 2 = 0)
    ∧ (2 * |num - q * den| = den → even = false → |num| < |q * den|)

/-- TWOS round trip: what a TWOS stores from a register, a TWOS of the same fields gives back as the same 32-bit
register word, for every width N and every representable value, in any two states and into any register. -/
def Obligations.TwosRoundTripIsExact : Prop :=
  ∀ (s t u : State) (xr yr : XIndex) (w16 le : Bool) (n : BitVec 5) (x : Word),
    twosLegal w16 n = true → PackReady s → getx s xr = some x →
    -(2 : Int) ^ (n.toNat - 1) ≤ x.toInt → x.toInt ≤ (2 : Int) ^ (n.toNat - 1) - 1 →
    s.cpp.cur.toNat + (if w16 then 2 else 1) ≤ 255 →
    exec (.twos xr w16 le n) s = .next t →
    UnpackReady u → u.cpp.cur.toNat + (if w16 then 2 else 1) ≤ u.dec.rxp.plen.toNat →
    bytesAt u (rxpayBase + u.cpp.cur.toNat) (if w16 then 2 else 1)
      = bytesAt t (payBase + s.cpp.cur.toNat) (if w16 then 2 else 1) →
    ∃ v, exec (.twos yr w16 le n) u = .next v ∧ getx v yr = some x

/-- FIXP round trip: the register word a FIXP reads from any stored number packs back to the same bytes, for
every scale, width, order and sign and under either tie rule, even if the rule changes in between. -/
def Obligations.FixpStoredNumberSurvivesTheRoundTrip : Prop :=
  ∀ (u v s : State) (xr yr : XIndex) (w16 le sgn : Bool) (scale : BitVec 16) (x : Word),
    scale ≠ 0 → UnpackReady u → u.cpp.cur.toNat + (if w16 then 2 else 1) ≤ u.dec.rxp.plen.toNat →
    exec (.fixp xr w16 le sgn scale) u = .next v → getx v xr = some x →
    PackReady s → getx s yr = some x → s.cpp.cur.toNat + (if w16 then 2 else 1) ≤ 255 →
    ∃ t, exec (.fixp yr w16 le sgn scale) s = .next t
      ∧ bytesAt t (payBase + s.cpp.cur.toNat) (if w16 then 2 else 1)
        = bytesAt u (rxpayBase + u.cpp.cur.toNat) (if w16 then 2 else 1)

/-! ## Shape programs -/

/-- A lookup takes the valid CMDTAB entry of lowest index that has the code, and finds none only when there is
none; an entry's one effect is that dispatch (log 14). -/
def Obligations.LookupTakesTheLowestValidEntry : Prop :=
  (∀ (s : State) (code : BitVec 16) (start : Byte),
    lookup s code = some start ↔
      ∃ e < 128, decode (.entry (wordAt s (0x1400 + 4 * e))) = .ok (.cmdtabEntry start code)
        ∧ ∀ e' < e, ∀ st, decode (.entry (wordAt s (0x1400 + 4 * e'))) ≠ .ok (.cmdtabEntry st code))
  ∧ (∀ (s : State) (code : BitVec 16) (start : Byte),
    (s.cpp.cmdCode = code → exec (.cmdtabEntry start code) s = .next { s with cpp := { s.cpp with pc := start } })
    ∧ (s.cpp.cmdCode ≠ code → exec (.cmdtabEntry start code) s = .next s))

/-- PACK of a shape that is a lone END stages a payload that holds the command code only, one byte or two with
the low one first, the rest of PAY cleared. -/
def Obligations.PackOfALoneEndStagesTheCode : Prop :=
  ∀ (s : State) (code : BitVec 16) (start : Byte),
    (s.cfg.cc16 = true ∨ code.toNat ≤ 0xFF) → lookup s code = some start →
    decode (.desc (shmWord s start)) = .ok .endShape →
    let bs : List Byte := if s.cfg.cc16 then [code.extractLsb' 0 8, code.extractLsb' 8 8] else [code.extractLsb' 0 8]
    ∃ t, exec (.pack code) s = .next t
      ∧ t = { s with
          cpp := { s.cpp with
            pkDir := .pack, pkState := .done, payOk := true, cmdCode := code
            cur := BitVec.ofNat 8 bs.length, plen := BitVec.ofNat 8 bs.length, pc := start }
          mem := t.mem }
      ∧ Stored payBase (bs ++ List.replicate (255 - bs.length) 0) s t

/-- PACK and UNPACK run the shape of their catalogue entry: whatever the entry, with one-byte and with two-byte codes,
they are RUN from the state they enter it in, `pc` at the entry's start and the cursor past the code, which PACK has put
at the head of a cleared PAY and UNPACK has read from the head of the payload. With the shape `U8 xR; END` PACK stages
the code and the register's byte, as the source's command 0x01 does, and UNPACK of such a payload gives both back. -/
def Obligations.PackAndUnpackOfAByteCommand : Prop :=
  ∀ (s : State) (code : BitVec 16) (start : Byte),
    let bs : List Byte := if s.cfg.cc16 then [code.extractLsb' 0 8, code.extractLsb' 8 8] else [code.extractLsb' 0 8]
    (s.cfg.cc16 = true ∨ code.toNat ≤ 0xFF) → lookup s code = some start →
    (∃ u, exec (.pack code) s = runLoop 256 u
      ∧ u = { s with
          cpp := { s.cpp with
            pkDir := .pack, pkState := .idle, payOk := false, cmdCode := code
            cur := BitVec.ofNat 8 bs.length, plen := 0, pc := start }
          mem := u.mem }
      ∧ Stored payBase (bs ++ List.replicate (255 - bs.length) 0) s u)
    ∧ (s.dec.rxpValid = true → bs.length ≤ s.dec.rxp.plen.toNat → bytesAt s rxpayBase bs.length = bs →
      exec .unpack s = runLoop 256 { s with cpp := { s.cpp with
        pkDir := .unpack, pkState := .idle, cmdCode := code, cur := BitVec.ofNat 8 bs.length, pc := start } })
    ∧ (∀ (xr : XIndex) (v : Byte), start ≠ 255 →
      decode (.desc (shmWord s start)) = .ok (.u8 xr) → decode (.desc (shmWord s (start + 1))) = .ok .endShape →
      (getx s xr = some (v.setWidth 32) →
        ∃ t, exec (.pack code) s = .next t
          ∧ t = { s with
              cpp := { s.cpp with
                pkDir := .pack, pkState := .done, payOk := true, cmdCode := code
                cur := BitVec.ofNat 8 (bs.length + 1), plen := BitVec.ofNat 8 (bs.length + 1), pc := start + 1 }
              mem := t.mem }
          ∧ Stored payBase (bs ++ v :: List.replicate (254 - bs.length) 0) s t)
      ∧ (s.dec.rxpValid = true → bs.length + 1 ≤ s.dec.rxp.plen.toNat →
        bytesAt s rxpayBase (bs.length + 1) = bs ++ [v] →
        exec .unpack s = .next { s with cpp := { s.cpp with
          pkDir := .unpack, pkState := .done, cmdCode := code
          cur := BitVec.ofNat 8 (bs.length + 1), pc := start + 1
          x := s.cpp.x.set xr.toNat (v.setWidth 32) xr.isLt
          xv := s.cpp.xv ||| ((1 : BitVec 16) <<< xr.toNat) } }))

/-- PACK and UNPACK fault before RUN: a code too wide for CC16 = 0, a code no valid entry has, a payload shorter
than the code; descriptor index and cursor are recorded as 0. -/
def Obligations.FaultsBeforeRunRecordNoDescriptor : Prop :=
  ∀ s : State,
    (∀ code : BitVec 16,
      let p : State := { s with cpp := { s.cpp with
        pkDir := .pack, pkState := .idle, payOk := false, cmdCode := code, cur := 0, plen := 0 } }
      (s.cfg.cc16 = false → 0xFF < code.toNat →
        ∃ t, exec (.pack code) s = .next t ∧ Faulted 0x11 0 0 p t)
      ∧ ((s.cfg.cc16 = true ∨ code.toNat ≤ 0xFF) → lookup s code = none →
        ∃ t, exec (.pack code) s = .next t ∧ Faulted 0x14 0 0 p t))
    ∧ (s.dec.rxpValid = true →
      let n := if s.cfg.cc16 then 2 else 1
      let code : BitVec 16 := if s.cfg.cc16 then byteAt s (rxpayBase + 1) ++ byteAt s rxpayBase
        else (byteAt s rxpayBase).setWidth 16
      (s.dec.rxp.plen.toNat < n →
        ∃ t, exec .unpack s = .next t
          ∧ Faulted 0x21 0 0 { s with cpp := { s.cpp with pkDir := .unpack, pkState := .idle, cur := 0 } } t)
      ∧ (n ≤ s.dec.rxp.plen.toNat → lookup s code = none →
        ∃ t, exec .unpack s = .next t
          ∧ Faulted 0x14 0 0 { s with cpp := { s.cpp with
              pkDir := .unpack, pkState := .idle, cmdCode := code, cur := BitVec.ofNat 8 n } } t))

/-- Every PACK ends, at an END or with an exception: DONE with the payload complete, or FAULT with nothing staged
and a recorded code; and whatever the shape, it changes nothing but the packer's registers, PAY, and the record of
the fault: no x register, no header, no other memory. -/
def Obligations.EveryPackEndsAndTouchesOnlyThePayload : Prop :=
  ∀ (s : State) (code : BitVec 16), ∃ t, exec (.pack code) s = .next t
    ∧ ((t.cpp.pkState = .done ∧ t.cpp.payOk = true ∧ t.cpp.plen = t.cpp.cur ∧ t.op = s.op ∧ t.irq = s.irq)
      ∨ (t.cpp.pkState = .fault ∧ t.cpp.payOk = false ∧ t.cpp.plen = 0
        ∧ t.op.opCode ∈ ([0x10, 0x11, 0x12, 0x13, 0x14, 0x20] : List Byte)
        ∧ t.irq = { s.irq with irqPend := s.irq.irqPend ||| 0x20 }))
    ∧ t = { s with
        cpp := { t.cpp with x := s.cpp.x, xv := s.cpp.xv, tailLen := s.cpp.tailLen, cmdCode := code, pkDir := .pack }
        op := t.op, irq := t.irq, mem := t.mem }
    ∧ SameMemoryOutside payBase 255 s t

/-- Every UNPACK of a packet ends, at an END or with an exception; and whatever the shape, it changes nothing but
the packer's registers, TAIL, and the record of the fault: the payload staged for transmission, the packet and its
payload stay. -/
def Obligations.EveryUnpackEndsAndLeavesTheStagedPayload : Prop :=
  ∀ s : State, s.dec.rxpValid = true → ∃ t, exec .unpack s = .next t
    ∧ ((t.cpp.pkState = .done ∧ t.op = s.op ∧ t.irq = s.irq)
      ∨ (t.cpp.pkState = .fault ∧ t.op.opCode ∈ ([0x14, 0x20, 0x21, 0x22] : List Byte)
        ∧ t.irq = { s.irq with irqPend := s.irq.irqPend ||| 0x20 }))
    ∧ t = { s with
        cpp := { t.cpp with plen := s.cpp.plen, payOk := s.cpp.payOk, pkDir := .unpack }
        op := t.op, irq := t.irq, mem := t.mem }
    ∧ SameMemoryOutside tailBase 255 s t

/-- A payload half built by a PACK that faulted does not reach the wire: ENCODE is refused right after it. -/
def Obligations.EncodeIsRefusedAfterAFaultedPack : Prop :=
  ∀ (s t : State) (code : BitVec 16), exec (.pack code) s = .next t → t.cpp.pkState = .fault →
    exec .encode t = .next (refusedWith 0x30 t)

/-! ## The host bus and the whole machine -/

/-- A host read leaves its value on the bus (`env.rdata`, log 18) and changes nothing else; an access no rule
maps, or misaligned in a word space, reads 0 and writes nothing. -/
def Obligations.HostReadsAndUnmappedAccesses : Prop :=
  ∀ (s : State) (off : BitVec 16) (rest : List Event),
    let taken : State := { s with env := { s.env with pending := rest, draw := s.env.draw + 1 } }
    let unmapped : Prop :=
      (off.toNat < 0x400 ∧ (off.toNat % 4 ≠ 0 ∨ 0x100 ≤ off.toNat ∨ off.toNat = 0x06C ∨ off.toNat = 0x07C
        ∨ (0x0A0 ≤ off.toNat ∧ off.toNat < 0x0C0)))
      ∨ off.toNat = 0x4FF ∨ off.toNat = 0x5FF ∨ (0x6FF ≤ off.toNat ∧ off.toNat < 0x800)
      ∨ (0x90B ≤ off.toNat ∧ off.toNat < 0x1000) ∨ (0x1600 ≤ off.toNat ∧ off.toNat < 0x1800)
      ∨ 0x1C00 ≤ off.toNat ∨ (0x1000 ≤ off.toNat ∧ off.toNat % 4 ≠ 0)
    (s.env.pending = .hostRead off :: rest →
      ∃ t, step s = .next t ∧ t = { taken with env := { taken.env with rdata := t.env.rdata } }
        ∧ (unmapped → t.env.rdata = 0))
    ∧ (∀ w, s.env.pending = .hostWrite off w :: rest → unmapped → step s = .next taken)

/-- Host reads show the state the register map and the windows name: every register of the map, STATUS bit by bit; the
header registers and RXPAY of the packet in the slot; X<i> once it holds a value; PAY and TAIL byte by byte, TXB up to
the end of the encoded frame; SHM, CMDTAB and ESET word by word. ACC_STAT and FQ_COUNT show lengths that fit their
fields (RxInv). What the rules call unspecified is left out: RXH0 to RXH2, X<i>, RXPAY and TXB beyond these conditions
(free values, log 8); an unwritten byte of a window shows what `byteAt` reads there (log 7). The value read stands in
`env.rdata` (log 18). -/
def Obligations.RegisterReadsShowTheState : Prop :=
  ∀ s : State,
    let reads (off : BitVec 16) (w : Word) : Prop :=
      ∀ rest, s.env.pending = .hostRead off :: rest → ∃ t, step s = .next t ∧ t.env.rdata = w
    (∀ rest, s.env.pending = .hostRead 0x004 :: rest → ∃ t, step s = .next t
      ∧ ∀ k < 32, t.env.rdata.getLsbD k =
          ([s.fd.rxEn, decide (s.fd.acc ≠ []), decide (s.fq ≠ []), s.dec.rxpValid,
            s.dec.rxpValid && s.dec.rxp.known, s.tx.encValid, s.tx.txBusy, decide (s.tx.txg ≠ 0),
            decide (s.cpp.pkState = .done), decide (s.cpp.pkState = .fault), decide (s.cpp.pkDir = .unpack),
            s.cpp.payOk]).getD k false)
    ∧ reads 0x000 ((BitVec.ofBool s.cfg.cc16 ++ BitVec.ofBool s.cfg.tieEven).setWidth 32)
    ∧ reads 0x008 (s.irq.irqPend.setWidth 32) ∧ reads 0x00C (s.irq.irqEn.setWidth 32)
    ∧ reads 0x010 (s.cfg.tChar.setWidth 32) ∧ reads 0x014 (s.cfg.tPkt.setWidth 32)
    ∧ reads 0x018 (s.cfg.tTxIdle.setWidth 32) ∧ reads 0x01C (s.fd.ict.setWidth 32)
    ∧ (RxInv s → reads 0x020 ((BitVec.ofBool s.fd.accOvf ++ BitVec.ofNat 16 s.fd.acc.length).setWidth 32)
      ∧ reads 0x024 (BitVec.ofNat 32 s.fq.length))
    ∧ reads 0x028 ((s.log.rxerrLen ++ (0 : Byte) ++ s.log.rxerrCode).setWidth 32)
    ∧ reads 0x02C ((s.op.opCur ++ s.op.opPc ++ s.op.opCode).setWidth 32)
    ∧ reads 0x030 (s.log.cntFfe.setWidth 32) ∧ reads 0x034 (s.log.cntCsum.setWidth 32)
    ∧ reads 0x038 (s.log.cntDrop.setWidth 32) ∧ reads 0x03C (s.log.cntOk.setWidth 32)
    ∧ reads 0x040 0 ∧ reads 0x044 (s.cpp.plen.setWidth 32)
    ∧ reads 0x048 ((s.cpp.cur ++ s.cpp.pc).setWidth 32) ∧ reads 0x04C (s.cpp.tailLen.setWidth 32)
    ∧ reads 0x050 ((s.tx.txIdx ++ (0 : BitVec 7) ++ s.tx.txLen).setWidth 32)
    ∧ reads 0x054 (s.tx.txg.setWidth 32) ∧ reads 0x058 (s.cpp.xv.setWidth 32)
    ∧ reads 0x05C (s.cpp.cmdCode.setWidth 32)
    ∧ reads 0x060 (s.tx.hdr.sendMethod ++ s.tx.hdr.subnet ++ s.tx.hdr.src ++ s.tx.hdr.dst)
    ∧ reads 0x064 (s.tx.hdr.msgType ++ s.tx.hdr.srcNodeType ++ s.tx.hdr.sp1 ++ s.tx.hdr.sp0)
    ∧ reads 0x068 (s.tx.hdr.pktByte.setWidth 32)
    ∧ (∀ k : BitVec 3, reads (0x080 + 4 * k.setWidth 16) (s.cfg.mtReg.extractLsb' (32 * k.toNat) 32))
    ∧ (∀ (i : XIndex) (w : Word), getx s i = some w → reads (0x0C0 + 4 * i.setWidth 16) w)
    ∧ (∀ off : BitVec 16, ((0x400 ≤ off.toNat ∧ off.toNat < 0x4FF) ∨ (0x500 ≤ off.toNat ∧ off.toNat < 0x5FF)) →
        reads off ((byteAt s off.toNat).setWidth 32))
    ∧ (∀ off : BitVec 16, 0x600 ≤ off.toNat → off.toNat < 0x600 + s.dec.rxp.plen.toNat → s.dec.rxpValid = true →
        reads off ((byteAt s off.toNat).setWidth 32))
    ∧ (∀ off : BitVec 16, 0x800 ≤ off.toNat → off.toNat < 0x90B → off.toNat < 0x800 + s.tx.txLen.toNat →
        s.tx.encValid = true → reads off ((byteAt s off.toNat).setWidth 32))
    ∧ (∀ off : BitVec 16, off.toNat % 4 = 0 →
        ((0x1000 ≤ off.toNat ∧ off.toNat < 0x1600) ∨ (0x1800 ≤ off.toNat ∧ off.toNat < 0x1C00)) →
        reads off (wordAt s off.toNat))
    ∧ (s.dec.rxpValid = true →
      reads 0x070 (s.dec.rxp.sendMethod ++ s.dec.rxp.subnet ++ s.dec.rxp.src ++ s.dec.rxp.dst)
      ∧ reads 0x074 (s.dec.rxp.msgType ++ s.dec.rxp.srcNodeType ++ s.dec.rxp.sp1 ++ s.dec.rxp.sp0)
      ∧ reads 0x078 ((BitVec.ofBool s.dec.rxp.known ++ s.dec.rxp.plen ++ BitVec.ofBool s.dec.rxp.dataFlow
          ++ s.dec.rxp.pktNum).setWidth 32))

/-- Register writes store the fields the register map names and perform its side effects: IRQ_PEND clears the bits
written 1, PLEN stages a payload, X<i> becomes valid, MT_REG<k> sets 32 bits of the registry and keeps the others;
a byte window stores one byte, a word space a word; a write to a read-only location does nothing. -/
def Obligations.RegisterWritesStoreTheirFields : Prop :=
  ∀ (s : State) (w : Word) (rest : List Event),
    let taken : State := { s with env := { s.env with pending := rest, draw := s.env.draw + 1 } }
    let wrote (off : BitVec 16) (t : State) : Prop := s.env.pending = .hostWrite off w :: rest → step s = .next t
    wrote 0x000 { taken with cfg := { s.cfg with tieEven := w.getLsbD 0, cc16 := w.getLsbD 1 } }
    ∧ wrote 0x008 { taken with irq := { s.irq with irqPend := s.irq.irqPend &&& ~~~(w.extractLsb' 0 6) } }
    ∧ wrote 0x00C { taken with irq := { s.irq with irqEn := w.extractLsb' 0 6 } }
    ∧ wrote 0x010 { taken with cfg := { s.cfg with tChar := w.extractLsb' 0 16 } }
    ∧ wrote 0x014 { taken with cfg := { s.cfg with tPkt := w.extractLsb' 0 16 } }
    ∧ wrote 0x018 { taken with cfg := { s.cfg with tTxIdle := w.extractLsb' 0 16 } }
    ∧ wrote 0x044 { taken with cpp := { s.cpp with plen := w.extractLsb' 0 8, payOk := true, pkState := .idle } }
    ∧ wrote 0x04C { taken with cpp := { s.cpp with tailLen := w.extractLsb' 0 8 } }
    ∧ wrote 0x060 { taken with tx := { s.tx with hdr := { s.tx.hdr with
        dst := w.extractLsb' 0 8, src := w.extractLsb' 8 8
        subnet := w.extractLsb' 16 8, sendMethod := w.extractLsb' 24 8 } } }
    ∧ wrote 0x064 { taken with tx := { s.tx with hdr := { s.tx.hdr with
        sp0 := w.extractLsb' 0 8, sp1 := w.extractLsb' 8 8
        srcNodeType := w.extractLsb' 16 8, msgType := w.extractLsb' 24 8 } } }
    ∧ wrote 0x068 { taken with tx := { s.tx with hdr := { s.tx.hdr with pktByte := w.extractLsb' 0 8 } } }
    ∧ (∀ k : BitVec 3, s.env.pending = .hostWrite (0x080 + 4 * k.setWidth 16) w :: rest →
        ∃ t, step s = .next t ∧ t = { taken with cfg := { s.cfg with mtReg := t.cfg.mtReg } }
          ∧ ∀ j < 256, t.cfg.mtReg.getLsbD j =
              if 32 * k.toNat ≤ j ∧ j < 32 * k.toNat + 32 then w.getLsbD (j - 32 * k.toNat)
              else s.cfg.mtReg.getLsbD j)
    ∧ (∀ i : XIndex, wrote (0x0C0 + 4 * i.setWidth 16) { taken with cpp := { s.cpp with
        x := s.cpp.x.set i.toNat w i.isLt, xv := s.cpp.xv ||| ((1 : BitVec 16) <<< i.toNat) } })
    ∧ (∀ off : BitVec 16, ((0x400 ≤ off.toNat ∧ off.toNat < 0x4FF) ∨ (0x500 ≤ off.toNat ∧ off.toNat < 0x5FF)) →
        s.env.pending = .hostWrite off w :: rest →
        ∃ t, step s = .next t ∧ t = { taken with mem := t.mem }
          ∧ Stored off.toNat [w.extractLsb' 0 8] taken t)
    ∧ (∀ off : BitVec 16, off.toNat % 4 = 0 → ((0x1000 ≤ off.toNat ∧ off.toNat < 0x1600)
          ∨ (0x1800 ≤ off.toNat ∧ off.toNat < 0x1C00)) →
        s.env.pending = .hostWrite off w :: rest →
        ∃ t, step s = .next t ∧ t = { taken with mem := t.mem } ∧ wordAt t off.toNat = w
          ∧ SameMemoryOutside off.toNat 4 taken t)
    ∧ (∀ off : BitVec 16,
        (off ∈ ([0x004, 0x01C, 0x020, 0x024, 0x028, 0x02C, 0x030, 0x034, 0x038, 0x03C, 0x048, 0x050, 0x054, 0x058,
            0x05C, 0x070, 0x074, 0x078] : List (BitVec 16))
          ∨ (0x600 ≤ off.toNat ∧ off.toNat < 0x6FF) ∨ (0x800 ≤ off.toNat ∧ off.toNat < 0x90B)) →
        wrote off taken)

/-- The interrupt output is 1 exactly when some source is pending and enabled; and interrupts do not change what
any operation does: two states that differ only in IRQ_PEND, IRQ_EN and the bus read data step to states that
differ only in these. -/
def Obligations.InterruptBitsInfluenceNothingElse : Prop :=
  (∀ s : State, irqOut s = true ↔ ∃ k < 6, s.irq.irqPend.getLsbD k = true ∧ s.irq.irqEn.getLsbD k = true)
  ∧ ∀ s u : State, withoutIrq s = withoutIrq u →
      ∃ t v, step s = .next t ∧ step u = .next v ∧ withoutIrq t = withoutIrq v

/-- The frame queue is strictly first-in first-out. A step leaves it; or, at a sample or at RXDIS, appends at its tail
(two candidates at most: a late byte and the tick of the same sample can each close an accumulation; never beyond
FQ_DEPTH = 4, log 16); or, at a turn of DEC with the packet slot free, takes its head; or is emptied, at a clock
with rst = 1 or at a SOFTRESET written to CMD. No step reorders it. With nothing pending DEC
takes its turn (log 2). -/
def Obligations.FrameQueueIsFirstInFirstOut : Prop :=
  ∀ s t : State, step s = .next t →
    t.fq = s.fq
    ∨ (∃ cs, t.fq = s.fq ++ cs ∧ cs.length ≤ 2 ∧ t.fq.length ≤ 4
        ∧ ∃ rest, (∃ w, s.env.pending = .sample w :: rest)
          ∨ ∃ w, s.env.pending = .hostWrite 0x040 w :: rest ∧ decode (.cmd w) = .ok .rxdis)
    ∨ (∃ c, s.fq = c :: t.fq ∧ s.dec.rxpValid = false
        ∧ (s.env.pending = [] ∨ ∃ rest, s.env.pending = .decTurn :: rest))
    ∨ (t.fq = []
        ∧ ∃ rest, s.env.pending = .rst :: rest
          ∨ ∃ w, s.env.pending = .hostWrite 0x040 w :: rest ∧ decode (.cmd w) = .ok .softreset)

/-- Only host writes and hard reset change the configuration, the registry and the catalogue (SHM, CMDTAB, ESET):
no line event, no command, no turn of DEC or TXU, and no shape program does. -/
def Obligations.OperationsNeverTouchTheCatalogue : Prop :=
  ∀ (i : Instr) (s t : State), exec i s = .next t →
    t.cfg = s.cfg ∧ ∀ a, 0x1000 ≤ a → byteAt t a = byteAt s a
end

