-- ==== Sys2Proof/Laws/Memory.lean ====
section
/-! SUPPORT. Laws/Memory.lean: what the memory operations do, through the read of one byte, and that each keeps
the canonical form. -/

namespace Sys2Proof.Machine

/-! ## Reading a list of cells -/

theorem Memory.read?_of_absent {m : Memory} {a : Nat} (h : ∀ c ∈ m, c.1 ≠ a) : Memory.read? m a = unlisted a := by
  induction m with
  | nil => rfl
  | cons c r ih =>
    obtain ⟨b, v⟩ := c
    have hb : a ≠ b := fun e => h (b, v) (by simp) e.symm
    simp only [Memory.read?, hb, if_false]
    exact ih (fun c hc => h c (by simp [hc]))

theorem Memory.read?_append_of_absent {l r : Memory} {a : Nat} (h : ∀ c ∈ l, c.1 ≠ a) :
    Memory.read? (l ++ r) a = Memory.read? r a := by
  induction l with
  | nil => rfl
  | cons c t ih =>
    obtain ⟨b, v⟩ := c
    have hb : a ≠ b := fun e => h (b, v) (by simp) e.symm
    simp only [List.cons_append, Memory.read?, hb, if_false]
    exact ih (fun c hc => h c (by simp [hc]))

/-- Cells a filter keeps by offset read as before, whatever is appended at other offsets. -/
theorem Memory.read?_filter_append {p : Nat → Bool} {m r : Memory} {a : Nat} (hp : p a = true)
    (hr : ∀ c ∈ r, c.1 ≠ a) :
    Memory.read? (m.filter (fun c => p c.1) ++ r) a = Memory.read? m a := by
  induction m with
  | nil => simpa [Memory.read?] using Memory.read?_of_absent hr
  | cons c t ih =>
    obtain ⟨b, v⟩ := c
    by_cases hb : a = b
    · subst hb; simp [hp, Memory.read?]
    · by_cases hpb : p b = true
      · simpa [List.filter_cons, hpb, Memory.read?, hb] using ih
      · simpa [List.filter_cons, hpb, Memory.read?, hb] using ih

theorem Memory.read?_filter {p : Nat → Bool} {m : Memory} {a : Nat} (hp : p a = true) :
    Memory.read? (m.filter (fun c => p c.1)) a = Memory.read? m a := by
  simpa using Memory.read?_filter_append (m := m) (r := []) hp (by simp)

/-! ## Writing consecutive bytes -/

theorem mem_cellsFrom {c : Host.Cell} {a : Nat} {bs : List Byte} (h : c ∈ cellsFrom a bs) :
    a ≤ c.1 ∧ c.1 < a + bs.length ∧ unlisted c.1 ≠ some c.2 := by
  induction bs generalizing a with
  | nil => simp [cellsFrom] at h
  | cons v t ih =>
    simp only [cellsFrom] at h
    split at h
    · have := ih h
      exact ⟨by omega, by simp only [List.length_cons]; omega, this.2.2⟩
    · rename_i hv
      rcases List.mem_cons.mp h with rfl | h
      · simp [hv]
      · have := ih h
        exact ⟨by omega, by simp only [List.length_cons]; omega, this.2.2⟩

theorem read?_cellsFrom_append {a base : Nat} {bs : List Byte} {r : Memory} (h1 : base ≤ a)
    (h2 : a < base + bs.length) (hr : ∀ c ∈ r, c.1 ≠ a) :
    Memory.read? (cellsFrom base bs ++ r) a = some (bs.getD (a - base) 0) := by
  induction bs generalizing base with
  | nil => simp at h2; omega
  | cons v t ih =>
    by_cases hab : a = base
    · subst hab
      have hrest : ∀ c ∈ cellsFrom (a + 1) t ++ r, c.1 ≠ a := by
        intro c hc
        rcases List.mem_append.mp hc with hc | hc
        · have := mem_cellsFrom hc; omega
        · exact hr c hc
      simp only [cellsFrom]
      split
      · rename_i hv
        rw [Memory.read?_of_absent hrest, hv]; simp
      · simp [Memory.read?]
    · have hlt : base + 1 ≤ a := by omega
      have ht : a < base + 1 + t.length := by simp only [List.length_cons] at h2; omega
      have e : a - base = (a - (base + 1)) + 1 := by omega
      simp only [cellsFrom]
      split
      · rw [ih hlt ht, e]; simp
      · simp only [List.cons_append, Memory.read?, hab, if_false]
        rw [ih hlt ht, e]; simp

/-- Everything a write of consecutive bytes can do: it gives the bytes at their offsets and leaves every other
offset as it was. -/
theorem Memory.read?_writeBlock (m : Memory) (base : Nat) (bs : List Byte) (a : Nat) :
    Memory.read? (Memory.writeBlock m base bs) a =
      if base ≤ a ∧ a < base + bs.length then some (bs.getD (a - base) 0) else Memory.read? m a := by
  have hlow : ∀ c ∈ m.filter (fun c => decide (c.1 < base)), c.1 < base := by
    intro c hc; simpa using (List.mem_filter.mp hc).2
  have hhigh : ∀ c ∈ m.filter (fun c => decide (base + bs.length ≤ c.1)), base + bs.length ≤ c.1 := by
    intro c hc; simpa using (List.mem_filter.mp hc).2
  unfold Memory.writeBlock
  by_cases h : base ≤ a ∧ a < base + bs.length
  · rw [if_pos h, Memory.read?_append_of_absent (fun c hc => by have := hlow c hc; omega)]
    exact read?_cellsFrom_append h.1 h.2 (fun c hc => by have := hhigh c hc; omega)
  · rw [if_neg h]
    by_cases ha : a < base
    · refine Memory.read?_filter_append (p := fun b => decide (b < base)) (by simpa using ha) ?_
      intro c hc
      rcases List.mem_append.mp hc with hc | hc
      · have := mem_cellsFrom hc; omega
      · have := hhigh c hc; omega
    · have ha' : base + bs.length ≤ a := by omega
      rw [Memory.read?_append_of_absent (fun c hc => by have := hlow c hc; omega),
        Memory.read?_append_of_absent (fun c hc => by have := mem_cellsFrom hc; omega)]
      exact Memory.read?_filter (p := fun b => decide (base + bs.length ≤ b)) (by simpa using ha')

theorem cellsFrom_pairwise (a : Nat) (bs : List Byte) : (cellsFrom a bs).Pairwise (fun c d => c.1 < d.1) := by
  induction bs generalizing a with
  | nil => simp [cellsFrom]
  | cons v t ih =>
    simp only [cellsFrom]
    split
    · exact ih (a + 1)
    · refine List.pairwise_cons.mpr ⟨fun d hd => ?_, ih (a + 1)⟩
      have := mem_cellsFrom hd; simp; omega

/-- A write keeps the canonical form. -/
theorem Memory.wf_writeBlock {m : Memory} (h : Memory.wf m) (base : Nat) (bs : List Byte) :
    Memory.wf (Memory.writeBlock m base bs) := by
  have hlow : ∀ c ∈ m.filter (fun c => decide (c.1 < base)), c.1 < base := by
    intro c hc; simpa using (List.mem_filter.mp hc).2
  have hhigh : ∀ c ∈ m.filter (fun c => decide (base + bs.length ≤ c.1)), base + bs.length ≤ c.1 := by
    intro c hc; simpa using (List.mem_filter.mp hc).2
  refine ⟨?_, ?_⟩
  · refine List.pairwise_append.mpr ⟨h.1.filter _, ?_, ?_⟩
    · refine List.pairwise_append.mpr ⟨cellsFrom_pairwise base bs, h.1.filter _, ?_⟩
      intro c hc d hd
      have := mem_cellsFrom hc; have := hhigh d hd; omega
    · intro c hc d hd
      have := hlow c hc
      rcases List.mem_append.mp hd with hd | hd
      · have := mem_cellsFrom hd; omega
      · have := hhigh d hd; omega
  · intro c hc
    simp only [Memory.writeBlock, List.mem_append] at hc
    rcases hc with hc | hc | hc
    · exact h.2 c (List.mem_filter.mp hc).1
    · exact (mem_cellsFrom hc).2.2
    · exact h.2 c (List.mem_filter.mp hc).1

/-- A write inside the existing offsets lists no other. -/
theorem Memory.allMapped_writeBlock {m : Memory} (h : Memory.allMapped m) {base : Nat} {bs : List Byte}
    (hb : ∀ a, base ≤ a → a < base + bs.length → mapped a = true) :
    Memory.allMapped (Memory.writeBlock m base bs) := by
  intro c hc
  simp only [Memory.writeBlock, List.mem_append] at hc
  rcases hc with hc | hc | hc
  · exact h c (List.mem_filter.mp hc).1
  · exact hb c.1 (mem_cellsFrom hc).1 (mem_cellsFrom hc).2.1
  · exact h c (List.mem_filter.mp hc).1

/-! ## Forgetting -/

theorem Memory.read?_forgetBelow {m : Memory} {limit a : Nat} (h : limit ≤ a) :
    Memory.read? (Memory.forgetBelow m limit) a = Memory.read? m a :=
  Memory.read?_filter (p := fun b => decide (limit ≤ b)) (by simpa using h)

theorem Memory.wf_forgetBelow {m : Memory} (h : Memory.wf m) (limit : Nat) :
    Memory.wf (Memory.forgetBelow m limit) :=
  ⟨h.1.filter _, fun c hc => h.2 c (List.mem_filter.mp hc).1⟩

theorem Memory.allMapped_forgetBelow {m : Memory} (h : Memory.allMapped m) (limit : Nat) :
    Memory.allMapped (Memory.forgetBelow m limit) := fun c hc => h c (List.mem_filter.mp hc).1

theorem Memory.wf_nil : Memory.wf ([] : Memory) := ⟨List.Pairwise.nil, by simp⟩

theorem Memory.allMapped_nil : Memory.allMapped ([] : Memory) := by simp [Memory.allMapped]

/-! ## The bytes a state holds -/

theorem byteAt_of_parts {s t : State} (hm : t.mem = s.mem) (hb : t.env.bufFill = s.env.bufFill)
    (hc : t.env.catFill = s.env.catFill) (a : Nat) : byteAt t a = byteAt s a := by
  simp [byteAt, fillByte, hm, hb, hc]

/-- The read of one byte after a store. -/
theorem byteAt_store (base : Nat) (bs : List Byte) (s : State) (a : Nat) :
    byteAt (store base bs s) a =
      if base ≤ a ∧ a < base + bs.length then bs.getD (a - base) 0 else byteAt s a := by
  simp only [byteAt, store, Memory.read?_writeBlock, fillByte]
  split <;> simp

theorem byteAt_store_outside {base : Nat} {bs : List Byte} {s : State} {a : Nat}
    (h : a < base ∨ base + bs.length ≤ a) : byteAt (store base bs s) a = byteAt s a := by
  rw [byteAt_store, if_neg (by omega)]

theorem bytesAt_length (s : State) (a n : Nat) : (bytesAt s a n).length = n := by simp [bytesAt]

theorem bytesAt_getElem (s : State) (a n i : Nat) (h : i < (bytesAt s a n).length) :
    (bytesAt s a n)[i] = byteAt s (a + i) := by simp [bytesAt]

theorem bytesAt_congr {s t : State} {a n : Nat} (h : ∀ b, a ≤ b → b < a + n → byteAt t b = byteAt s b) :
    bytesAt t a n = bytesAt s a n := by
  simp only [bytesAt]
  exact List.map_congr_left (fun i hi => h (a + i) (by omega) (by have := List.mem_range.mp hi; omega))

/-- The stored bytes read back whole. -/
theorem bytesAt_store_self (base : Nat) (bs : List Byte) (s : State) :
    bytesAt (store base bs s) base bs.length = bs := by
  apply List.ext_getElem (by simp [bytesAt])
  intro i h1 h2
  rw [bytesAt_getElem, byteAt_store, if_pos (by omega), Nat.add_sub_cancel_left, List.getD_eq_getElem _ _ h2]

theorem bytesAt_store_outside {base a n : Nat} {bs : List Byte} {s : State}
    (h : a + n ≤ base ∨ base + bs.length ≤ a) : bytesAt (store base bs s) a n = bytesAt s a n :=
  bytesAt_congr (fun b h1 h2 => byteAt_store_outside (by omega))

theorem wordAt_store_outside {base a : Nat} {bs : List Byte} {s : State}
    (h : a + 4 ≤ base ∨ base + bs.length ≤ a) : wordAt (store base bs s) a = wordAt s a := by
  simp only [wordAt]
  rw [byteAt_store_outside (by omega), byteAt_store_outside (by omega), byteAt_store_outside (by omega),
    byteAt_store_outside (by omega)]

theorem wordAt_congr {s t : State} {a : Nat} (h : ∀ b, a ≤ b → b < a + 4 → byteAt t b = byteAt s b) :
    wordAt t a = wordAt s a := by
  simp only [wordAt]
  rw [h _ (by omega) (by omega), h _ (by omega) (by omega), h _ (by omega) (by omega), h _ (by omega) (by omega)]

end Sys2Proof.Machine
end

