-- ==== Sys2Proof/Laws/State.lean ====
section
/-! SUPPORT. Laws/State.lean: what each update of the state does to each unit of it, one lemma per unit. -/

namespace Sys2Proof.Machine

/-! ## raiseIrq -/

@[simp] theorem raiseIrq_fd (k : IrqBit) (s : State) : (raiseIrq k s).fd = s.fd := rfl
@[simp] theorem raiseIrq_fq (k : IrqBit) (s : State) : (raiseIrq k s).fq = s.fq := rfl
@[simp] theorem raiseIrq_dec (k : IrqBit) (s : State) : (raiseIrq k s).dec = s.dec := rfl
@[simp] theorem raiseIrq_log (k : IrqBit) (s : State) : (raiseIrq k s).log = s.log := rfl
@[simp] theorem raiseIrq_tx (k : IrqBit) (s : State) : (raiseIrq k s).tx = s.tx := rfl
@[simp] theorem raiseIrq_cpp (k : IrqBit) (s : State) : (raiseIrq k s).cpp = s.cpp := rfl
@[simp] theorem raiseIrq_op (k : IrqBit) (s : State) : (raiseIrq k s).op = s.op := rfl
@[simp] theorem raiseIrq_irq (k : IrqBit) (s : State) :
    (raiseIrq k s).irq = { s.irq with irqPend := s.irq.irqPend ||| irqMask k } := rfl
@[simp] theorem raiseIrq_cfg (k : IrqBit) (s : State) : (raiseIrq k s).cfg = s.cfg := rfl
@[simp] theorem raiseIrq_mem (k : IrqBit) (s : State) : (raiseIrq k s).mem = s.mem := rfl
@[simp] theorem raiseIrq_env (k : IrqBit) (s : State) : (raiseIrq k s).env = s.env := rfl

/-! ## store -/

@[simp] theorem store_fd (a : Nat) (bs : List Byte) (s : State) : (store a bs s).fd = s.fd := rfl
@[simp] theorem store_fq (a : Nat) (bs : List Byte) (s : State) : (store a bs s).fq = s.fq := rfl
@[simp] theorem store_dec (a : Nat) (bs : List Byte) (s : State) : (store a bs s).dec = s.dec := rfl
@[simp] theorem store_log (a : Nat) (bs : List Byte) (s : State) : (store a bs s).log = s.log := rfl
@[simp] theorem store_tx (a : Nat) (bs : List Byte) (s : State) : (store a bs s).tx = s.tx := rfl
@[simp] theorem store_cpp (a : Nat) (bs : List Byte) (s : State) : (store a bs s).cpp = s.cpp := rfl
@[simp] theorem store_op (a : Nat) (bs : List Byte) (s : State) : (store a bs s).op = s.op := rfl
@[simp] theorem store_irq (a : Nat) (bs : List Byte) (s : State) : (store a bs s).irq = s.irq := rfl
@[simp] theorem store_cfg (a : Nat) (bs : List Byte) (s : State) : (store a bs s).cfg = s.cfg := rfl
@[simp] theorem store_mem (a : Nat) (bs : List Byte) (s : State) :
    (store a bs s).mem = Memory.writeBlock s.mem a bs := rfl
@[simp] theorem store_env (a : Nat) (bs : List Byte) (s : State) : (store a bs s).env = s.env := rfl

/-! ## setx -/

@[simp] theorem setx_fd (i : XIndex) (w : Word) (s : State) : (setx i w s).fd = s.fd := rfl
@[simp] theorem setx_fq (i : XIndex) (w : Word) (s : State) : (setx i w s).fq = s.fq := rfl
@[simp] theorem setx_dec (i : XIndex) (w : Word) (s : State) : (setx i w s).dec = s.dec := rfl
@[simp] theorem setx_log (i : XIndex) (w : Word) (s : State) : (setx i w s).log = s.log := rfl
@[simp] theorem setx_tx (i : XIndex) (w : Word) (s : State) : (setx i w s).tx = s.tx := rfl
@[simp] theorem setx_cpp (i : XIndex) (w : Word) (s : State) : (setx i w s).cpp = { s.cpp with
      x := s.cpp.x.set i.toNat w i.isLt, xv := s.cpp.xv ||| ((1 : BitVec 16) <<< i.toNat) } := rfl
@[simp] theorem setx_op (i : XIndex) (w : Word) (s : State) : (setx i w s).op = s.op := rfl
@[simp] theorem setx_irq (i : XIndex) (w : Word) (s : State) : (setx i w s).irq = s.irq := rfl
@[simp] theorem setx_cfg (i : XIndex) (w : Word) (s : State) : (setx i w s).cfg = s.cfg := rfl
@[simp] theorem setx_mem (i : XIndex) (w : Word) (s : State) : (setx i w s).mem = s.mem := rfl
@[simp] theorem setx_env (i : XIndex) (w : Word) (s : State) : (setx i w s).env = s.env := rfl

/-! ## clearX -/

@[simp] theorem clearX_fd (s : State) : (clearX s).fd = s.fd := rfl
@[simp] theorem clearX_fq (s : State) : (clearX s).fq = s.fq := rfl
@[simp] theorem clearX_dec (s : State) : (clearX s).dec = s.dec := rfl
@[simp] theorem clearX_log (s : State) : (clearX s).log = s.log := rfl
@[simp] theorem clearX_tx (s : State) : (clearX s).tx = s.tx := rfl
@[simp] theorem clearX_cpp (s : State) : (clearX s).cpp = { s.cpp with x := Config.freeX s.env.draw, xv := 0 } := rfl
@[simp] theorem clearX_op (s : State) : (clearX s).op = s.op := rfl
@[simp] theorem clearX_irq (s : State) : (clearX s).irq = s.irq := rfl
@[simp] theorem clearX_cfg (s : State) : (clearX s).cfg = s.cfg := rfl
@[simp] theorem clearX_mem (s : State) : (clearX s).mem = s.mem := rfl
@[simp] theorem clearX_env (s : State) : (clearX s).env = s.env := rfl

/-! ## advance -/

@[simp] theorem advance_fd (k : Nat) (s : State) : (advance k s).fd = s.fd := rfl
@[simp] theorem advance_fq (k : Nat) (s : State) : (advance k s).fq = s.fq := rfl
@[simp] theorem advance_dec (k : Nat) (s : State) : (advance k s).dec = s.dec := rfl
@[simp] theorem advance_log (k : Nat) (s : State) : (advance k s).log = s.log := rfl
@[simp] theorem advance_tx (k : Nat) (s : State) : (advance k s).tx = s.tx := rfl
@[simp] theorem advance_cpp (k : Nat) (s : State) :
    (advance k s).cpp = { s.cpp with cur := BitVec.ofNat 8 (s.cpp.cur.toNat + k) } := rfl
@[simp] theorem advance_op (k : Nat) (s : State) : (advance k s).op = s.op := rfl
@[simp] theorem advance_irq (k : Nat) (s : State) : (advance k s).irq = s.irq := rfl
@[simp] theorem advance_cfg (k : Nat) (s : State) : (advance k s).cfg = s.cfg := rfl
@[simp] theorem advance_mem (k : Nat) (s : State) : (advance k s).mem = s.mem := rfl
@[simp] theorem advance_env (k : Nat) (s : State) : (advance k s).env = s.env := rfl

/-! ## setPc -/

@[simp] theorem setPc_fd (p : Byte) (s : State) : (setPc p s).fd = s.fd := rfl
@[simp] theorem setPc_fq (p : Byte) (s : State) : (setPc p s).fq = s.fq := rfl
@[simp] theorem setPc_dec (p : Byte) (s : State) : (setPc p s).dec = s.dec := rfl
@[simp] theorem setPc_log (p : Byte) (s : State) : (setPc p s).log = s.log := rfl
@[simp] theorem setPc_tx (p : Byte) (s : State) : (setPc p s).tx = s.tx := rfl
@[simp] theorem setPc_cpp (p : Byte) (s : State) : (setPc p s).cpp = { s.cpp with pc := p } := rfl
@[simp] theorem setPc_op (p : Byte) (s : State) : (setPc p s).op = s.op := rfl
@[simp] theorem setPc_irq (p : Byte) (s : State) : (setPc p s).irq = s.irq := rfl
@[simp] theorem setPc_cfg (p : Byte) (s : State) : (setPc p s).cfg = s.cfg := rfl
@[simp] theorem setPc_mem (p : Byte) (s : State) : (setPc p s).mem = s.mem := rfl
@[simp] theorem setPc_env (p : Byte) (s : State) : (setPc p s).env = s.env := rfl

/-! ## enterShape -/

@[simp] theorem enterShape_fd (p : Byte) (s : State) : (enterShape p s).fd = s.fd := rfl
@[simp] theorem enterShape_fq (p : Byte) (s : State) : (enterShape p s).fq = s.fq := rfl
@[simp] theorem enterShape_dec (p : Byte) (s : State) : (enterShape p s).dec = s.dec := rfl
@[simp] theorem enterShape_log (p : Byte) (s : State) : (enterShape p s).log = s.log := rfl
@[simp] theorem enterShape_tx (p : Byte) (s : State) : (enterShape p s).tx = s.tx := rfl
@[simp] theorem enterShape_cpp (p : Byte) (s : State) : (enterShape p s).cpp = { s.cpp with pc := p } := rfl
@[simp] theorem enterShape_op (p : Byte) (s : State) : (enterShape p s).op = s.op := rfl
@[simp] theorem enterShape_irq (p : Byte) (s : State) : (enterShape p s).irq = s.irq := rfl
@[simp] theorem enterShape_cfg (p : Byte) (s : State) : (enterShape p s).cfg = s.cfg := rfl
@[simp] theorem enterShape_mem (p : Byte) (s : State) : (enterShape p s).mem = s.mem := rfl
@[simp] theorem enterShape_env (p : Byte) (s : State) : (enterShape p s).env = s.env := rfl

/-! ## scramblePay -/

@[simp] theorem scramblePay_fd (s : State) : (scramblePay s).fd = s.fd := rfl
@[simp] theorem scramblePay_fq (s : State) : (scramblePay s).fq = s.fq := rfl
@[simp] theorem scramblePay_dec (s : State) : (scramblePay s).dec = s.dec := rfl
@[simp] theorem scramblePay_log (s : State) : (scramblePay s).log = s.log := rfl
@[simp] theorem scramblePay_tx (s : State) : (scramblePay s).tx = s.tx := rfl
@[simp] theorem scramblePay_cpp (s : State) : (scramblePay s).cpp = s.cpp := rfl
@[simp] theorem scramblePay_op (s : State) : (scramblePay s).op = s.op := rfl
@[simp] theorem scramblePay_irq (s : State) : (scramblePay s).irq = s.irq := rfl
@[simp] theorem scramblePay_cfg (s : State) : (scramblePay s).cfg = s.cfg := rfl
@[simp] theorem scramblePay_mem (s : State) :
    (scramblePay s).mem =
      Memory.writeBlock s.mem payBase ((List.range 255).map (fun i => Config.freePay s.env.draw i)) := rfl
@[simp] theorem scramblePay_env (s : State) : (scramblePay s).env = s.env := rfl

/-! ## refuse -/

@[simp] theorem refuse_fd (r : RefuseReason) (s : State) : (refuse r s).fd = s.fd := rfl
@[simp] theorem refuse_fq (r : RefuseReason) (s : State) : (refuse r s).fq = s.fq := rfl
@[simp] theorem refuse_dec (r : RefuseReason) (s : State) : (refuse r s).dec = s.dec := rfl
@[simp] theorem refuse_log (r : RefuseReason) (s : State) : (refuse r s).log = s.log := rfl
@[simp] theorem refuse_tx (r : RefuseReason) (s : State) : (refuse r s).tx = s.tx := rfl
@[simp] theorem refuse_cpp (r : RefuseReason) (s : State) : (refuse r s).cpp = s.cpp := rfl
@[simp] theorem refuse_op (r : RefuseReason) (s : State) :
    (refuse r s).op = { opCode := refuseCode r, opPc := 0, opCur := 0 } := rfl
@[simp] theorem refuse_irq (r : RefuseReason) (s : State) :
    (refuse r s).irq = { s.irq with irqPend := s.irq.irqPend ||| irqMask .operr } := rfl
@[simp] theorem refuse_cfg (r : RefuseReason) (s : State) : (refuse r s).cfg = s.cfg := rfl
@[simp] theorem refuse_mem (r : RefuseReason) (s : State) : (refuse r s).mem = s.mem := rfl
@[simp] theorem refuse_env (r : RefuseReason) (s : State) : (refuse r s).env = s.env := rfl

/-! ## hostRead -/

@[simp] theorem hostRead_fd (off : BitVec 16) (s : State) : (hostRead off s).fd = s.fd := rfl
@[simp] theorem hostRead_fq (off : BitVec 16) (s : State) : (hostRead off s).fq = s.fq := rfl
@[simp] theorem hostRead_dec (off : BitVec 16) (s : State) : (hostRead off s).dec = s.dec := rfl
@[simp] theorem hostRead_log (off : BitVec 16) (s : State) : (hostRead off s).log = s.log := rfl
@[simp] theorem hostRead_tx (off : BitVec 16) (s : State) : (hostRead off s).tx = s.tx := rfl
@[simp] theorem hostRead_cpp (off : BitVec 16) (s : State) : (hostRead off s).cpp = s.cpp := rfl
@[simp] theorem hostRead_op (off : BitVec 16) (s : State) : (hostRead off s).op = s.op := rfl
@[simp] theorem hostRead_irq (off : BitVec 16) (s : State) : (hostRead off s).irq = s.irq := rfl
@[simp] theorem hostRead_cfg (off : BitVec 16) (s : State) : (hostRead off s).cfg = s.cfg := rfl
@[simp] theorem hostRead_mem (off : BitVec 16) (s : State) : (hostRead off s).mem = s.mem := rfl
@[simp] theorem hostRead_env (off : BitVec 16) (s : State) :
    (hostRead off s).env = { s.env with rdata := readValue off s } := rfl

/-! ## setMtReg -/

@[simp] theorem setMtReg_fd (k : Nat) (w : Word) (s : State) : (setMtReg k w s).fd = s.fd := rfl
@[simp] theorem setMtReg_fq (k : Nat) (w : Word) (s : State) : (setMtReg k w s).fq = s.fq := rfl
@[simp] theorem setMtReg_dec (k : Nat) (w : Word) (s : State) : (setMtReg k w s).dec = s.dec := rfl
@[simp] theorem setMtReg_log (k : Nat) (w : Word) (s : State) : (setMtReg k w s).log = s.log := rfl
@[simp] theorem setMtReg_tx (k : Nat) (w : Word) (s : State) : (setMtReg k w s).tx = s.tx := rfl
@[simp] theorem setMtReg_cpp (k : Nat) (w : Word) (s : State) : (setMtReg k w s).cpp = s.cpp := rfl
@[simp] theorem setMtReg_op (k : Nat) (w : Word) (s : State) : (setMtReg k w s).op = s.op := rfl
@[simp] theorem setMtReg_irq (k : Nat) (w : Word) (s : State) : (setMtReg k w s).irq = s.irq := rfl
@[simp] theorem setMtReg_cfg (k : Nat) (w : Word) (s : State) : (setMtReg k w s).cfg = { s.cfg with
      mtReg := (s.cfg.mtReg &&& ~~~((0xFFFFFFFF : BitVec 256) <<< (32 * k))) ||| w.setWidth 256 <<< (32 * k) } := rfl
@[simp] theorem setMtReg_mem (k : Nat) (w : Word) (s : State) : (setMtReg k w s).mem = s.mem := rfl
@[simp] theorem setMtReg_env (k : Nat) (w : Word) (s : State) : (setMtReg k w s).env = s.env := rfl

/-! ## writePlen -/

@[simp] theorem writePlen_fd (n : Byte) (s : State) : (writePlen n s).fd = s.fd := rfl
@[simp] theorem writePlen_fq (n : Byte) (s : State) : (writePlen n s).fq = s.fq := rfl
@[simp] theorem writePlen_dec (n : Byte) (s : State) : (writePlen n s).dec = s.dec := rfl
@[simp] theorem writePlen_log (n : Byte) (s : State) : (writePlen n s).log = s.log := rfl
@[simp] theorem writePlen_tx (n : Byte) (s : State) : (writePlen n s).tx = s.tx := rfl
@[simp] theorem writePlen_cpp (n : Byte) (s : State) :
    (writePlen n s).cpp = { s.cpp with plen := n, payOk := true, pkState := .idle } := rfl
@[simp] theorem writePlen_op (n : Byte) (s : State) : (writePlen n s).op = s.op := rfl
@[simp] theorem writePlen_irq (n : Byte) (s : State) : (writePlen n s).irq = s.irq := rfl
@[simp] theorem writePlen_cfg (n : Byte) (s : State) : (writePlen n s).cfg = s.cfg := rfl
@[simp] theorem writePlen_mem (n : Byte) (s : State) : (writePlen n s).mem = s.mem := rfl
@[simp] theorem writePlen_env (n : Byte) (s : State) : (writePlen n s).env = s.env := rfl

/-! ## unpackStart -/

@[simp] theorem unpackStart_fd (s : State) : (unpackStart s).fd = s.fd := rfl
@[simp] theorem unpackStart_fq (s : State) : (unpackStart s).fq = s.fq := rfl
@[simp] theorem unpackStart_dec (s : State) : (unpackStart s).dec = s.dec := rfl
@[simp] theorem unpackStart_log (s : State) : (unpackStart s).log = s.log := rfl
@[simp] theorem unpackStart_tx (s : State) : (unpackStart s).tx = s.tx := rfl
@[simp] theorem unpackStart_cpp (s : State) :
    (unpackStart s).cpp = { s.cpp with pkDir := .unpack, pkState := .idle, cur := 0 } := rfl
@[simp] theorem unpackStart_op (s : State) : (unpackStart s).op = s.op := rfl
@[simp] theorem unpackStart_irq (s : State) : (unpackStart s).irq = s.irq := rfl
@[simp] theorem unpackStart_cfg (s : State) : (unpackStart s).cfg = s.cfg := rfl
@[simp] theorem unpackStart_mem (s : State) : (unpackStart s).mem = s.mem := rfl
@[simp] theorem unpackStart_env (s : State) : (unpackStart s).env = s.env := rfl

/-! ## unpackCode -/

@[simp] theorem unpackCode_fd (s : State) : (unpackCode s).fd = s.fd := rfl
@[simp] theorem unpackCode_fq (s : State) : (unpackCode s).fq = s.fq := rfl
@[simp] theorem unpackCode_dec (s : State) : (unpackCode s).dec = s.dec := rfl
@[simp] theorem unpackCode_log (s : State) : (unpackCode s).log = s.log := rfl
@[simp] theorem unpackCode_tx (s : State) : (unpackCode s).tx = s.tx := rfl
@[simp] theorem unpackCode_cpp (s : State) : (unpackCode s).cpp = { s.cpp with
      pkDir := .unpack, pkState := .idle, cmdCode := receivedCode s, cur := BitVec.ofNat 8 (codeLen s.cfg.cc16) } := rfl
@[simp] theorem unpackCode_op (s : State) : (unpackCode s).op = s.op := rfl
@[simp] theorem unpackCode_irq (s : State) : (unpackCode s).irq = s.irq := rfl
@[simp] theorem unpackCode_cfg (s : State) : (unpackCode s).cfg = s.cfg := rfl
@[simp] theorem unpackCode_mem (s : State) : (unpackCode s).mem = s.mem := rfl
@[simp] theorem unpackCode_env (s : State) : (unpackCode s).env = s.env := rfl

/-! ## packStart -/

@[simp] theorem packStart_fd (code : BitVec 16) (s : State) : (packStart code s).fd = s.fd := rfl
@[simp] theorem packStart_fq (code : BitVec 16) (s : State) : (packStart code s).fq = s.fq := rfl
@[simp] theorem packStart_dec (code : BitVec 16) (s : State) : (packStart code s).dec = s.dec := rfl
@[simp] theorem packStart_log (code : BitVec 16) (s : State) : (packStart code s).log = s.log := rfl
@[simp] theorem packStart_tx (code : BitVec 16) (s : State) : (packStart code s).tx = s.tx := rfl
@[simp] theorem packStart_cpp (code : BitVec 16) (s : State) : (packStart code s).cpp = { s.cpp with
      pkDir := .pack, pkState := .idle, payOk := false, cmdCode := code, cur := 0, plen := 0 } := rfl
@[simp] theorem packStart_op (code : BitVec 16) (s : State) : (packStart code s).op = s.op := rfl
@[simp] theorem packStart_irq (code : BitVec 16) (s : State) : (packStart code s).irq = s.irq := rfl
@[simp] theorem packStart_cfg (code : BitVec 16) (s : State) : (packStart code s).cfg = s.cfg := rfl
@[simp] theorem packStart_mem (code : BitVec 16) (s : State) :
    (packStart code s).mem = Memory.writeBlock s.mem payBase (List.replicate 255 0) := rfl
@[simp] theorem packStart_env (code : BitVec 16) (s : State) : (packStart code s).env = s.env := rfl

/-! ## endFrame -/

@[simp] theorem endFrame_fd (s : State) : (endFrame s).fd = s.fd := rfl
@[simp] theorem endFrame_fq (s : State) : (endFrame s).fq = s.fq := rfl
@[simp] theorem endFrame_dec (s : State) : (endFrame s).dec = s.dec := rfl
@[simp] theorem endFrame_log (s : State) : (endFrame s).log = s.log := rfl
@[simp] theorem endFrame_tx (s : State) : (endFrame s).tx = { s.tx with txBusy := false, txg := s.cfg.tTxIdle } := rfl
@[simp] theorem endFrame_cpp (s : State) : (endFrame s).cpp = s.cpp := rfl
@[simp] theorem endFrame_op (s : State) : (endFrame s).op = s.op := rfl
@[simp] theorem endFrame_irq (s : State) :
    (endFrame s).irq = { s.irq with irqPend := s.irq.irqPend ||| irqMask .txdone } := rfl
@[simp] theorem endFrame_cfg (s : State) : (endFrame s).cfg = s.cfg := rfl
@[simp] theorem endFrame_mem (s : State) : (endFrame s).mem = s.mem := rfl
@[simp] theorem endFrame_env (s : State) : (endFrame s).env = s.env := rfl

/-! ## takeEvent -/

@[simp] theorem takeEvent_fd (s : State) : (takeEvent s).fd = s.fd := rfl
@[simp] theorem takeEvent_fq (s : State) : (takeEvent s).fq = s.fq := rfl
@[simp] theorem takeEvent_dec (s : State) : (takeEvent s).dec = s.dec := rfl
@[simp] theorem takeEvent_log (s : State) : (takeEvent s).log = s.log := rfl
@[simp] theorem takeEvent_tx (s : State) : (takeEvent s).tx = s.tx := rfl
@[simp] theorem takeEvent_cpp (s : State) : (takeEvent s).cpp = s.cpp := rfl
@[simp] theorem takeEvent_op (s : State) : (takeEvent s).op = s.op := rfl
@[simp] theorem takeEvent_irq (s : State) : (takeEvent s).irq = s.irq := rfl
@[simp] theorem takeEvent_cfg (s : State) : (takeEvent s).cfg = s.cfg := rfl
@[simp] theorem takeEvent_mem (s : State) : (takeEvent s).mem = s.mem := rfl
@[simp] theorem takeEvent_env (s : State) :
    (takeEvent s).env = { s.env with pending := s.env.pending.tail, draw := s.env.draw + 1 } := rfl

/-! ## pushEvent -/

@[simp] theorem pushEvent_fd (e : Event) (s : State) : (pushEvent e s).fd = s.fd := rfl
@[simp] theorem pushEvent_fq (e : Event) (s : State) : (pushEvent e s).fq = s.fq := rfl
@[simp] theorem pushEvent_dec (e : Event) (s : State) : (pushEvent e s).dec = s.dec := rfl
@[simp] theorem pushEvent_log (e : Event) (s : State) : (pushEvent e s).log = s.log := rfl
@[simp] theorem pushEvent_tx (e : Event) (s : State) : (pushEvent e s).tx = s.tx := rfl
@[simp] theorem pushEvent_cpp (e : Event) (s : State) : (pushEvent e s).cpp = s.cpp := rfl
@[simp] theorem pushEvent_op (e : Event) (s : State) : (pushEvent e s).op = s.op := rfl
@[simp] theorem pushEvent_irq (e : Event) (s : State) : (pushEvent e s).irq = s.irq := rfl
@[simp] theorem pushEvent_cfg (e : Event) (s : State) : (pushEvent e s).cfg = s.cfg := rfl
@[simp] theorem pushEvent_mem (e : Event) (s : State) : (pushEvent e s).mem = s.mem := rfl
@[simp] theorem pushEvent_env (e : Event) (s : State) :
    (pushEvent e s).env = { s.env with pending := e :: s.env.pending } := rfl

end Sys2Proof.Machine
end

