-- ==== Sys2Proof/Laws/Ops.lean ====
section
/-! SUPPORT. Laws/Ops.lean: for each shared operation, what it does, said once. -/

namespace Sys2Proof.Machine

/-! ## Offsets -/

theorem inWindow_iff {base n a : Nat} : inWindow base n a = true ↔ base ≤ a ∧ a < base + n := by
  simp [inWindow]

theorem inWindow_pay {a : Nat} : inWindow payBase 255 a = true ↔ 0x400 ≤ a ∧ a < 0x4FF := inWindow_iff
theorem inWindow_tail {a : Nat} : inWindow tailBase 255 a = true ↔ 0x500 ≤ a ∧ a < 0x5FF := inWindow_iff
theorem inWindow_rxpay {a : Nat} : inWindow rxpayBase 255 a = true ↔ 0x600 ≤ a ∧ a < 0x6FF := inWindow_iff
theorem inWindow_txb {a : Nat} : inWindow txbBase 267 a = true ↔ 0x800 ≤ a ∧ a < 0x90B := inWindow_iff
theorem inWindow_shm {a : Nat} : inWindow shmBase 1024 a = true ↔ 0x1000 ≤ a ∧ a < 0x1400 := inWindow_iff
theorem inWindow_cmdtab {a : Nat} : inWindow cmdtabBase 512 a = true ↔ 0x1400 ≤ a ∧ a < 0x1600 := inWindow_iff
theorem inWindow_eset {a : Nat} : inWindow esetBase 1024 a = true ↔ 0x1800 ≤ a ∧ a < 0x1C00 := inWindow_iff

theorem mapped_pay {a : Nat} (h : 0x400 ≤ a) (h' : a < 0x4FF) : mapped a = true := by
  have : inWindow payBase 255 a = true := inWindow_iff.mpr ⟨h, h'⟩
  simp [mapped, this]

theorem mapped_tail {a : Nat} (h : 0x500 ≤ a) (h' : a < 0x5FF) : mapped a = true := by
  have : inWindow tailBase 255 a = true := inWindow_iff.mpr ⟨h, h'⟩
  simp [mapped, this]

theorem mapped_rxpay {a : Nat} (h : 0x600 ≤ a) (h' : a < 0x6FF) : mapped a = true := by
  have : inWindow rxpayBase 255 a = true := inWindow_iff.mpr ⟨h, h'⟩
  simp [mapped, this]

theorem mapped_txb {a : Nat} (h : 0x800 ≤ a) (h' : a < 0x90B) : mapped a = true := by
  have : inWindow txbBase 267 a = true := inWindow_iff.mpr ⟨h, h'⟩
  simp [mapped, this]

/-! ## Interrupt masks (10_state.md R29) -/

@[simp] theorem irqMask_rxpkt : irqMask .rxpkt = 0x01 := rfl
@[simp] theorem irqMask_rxerr : irqMask .rxerr = 0x02 := rfl
@[simp] theorem irqMask_accOvf : irqMask .accOvf = 0x04 := rfl
@[simp] theorem irqMask_fqOvf : irqMask .fqOvf = 0x08 := rfl
@[simp] theorem irqMask_txdone : irqMask .txdone = 0x10 := rfl
@[simp] theorem irqMask_operr : irqMask .operr = 0x20 := rfl

/-! ## Stores, through the read of one byte -/

theorem stored_store (a : Nat) (bs : List Byte) (s : State) : Stored a bs s (store a bs s) :=
  ⟨bytesAt_store_self a bs s, fun _ h => byteAt_store_outside h⟩

/-- A state whose memory is `s`'s with a block written. -/
theorem stored_of_mem {a : Nat} {bs : List Byte} {s t : State} (hm : t.mem = Memory.writeBlock s.mem a bs)
    (hb : t.env.bufFill = s.env.bufFill) (hc : t.env.catFill = s.env.catFill) : Stored a bs s t := by
  have e : ∀ b, byteAt t b = byteAt (store a bs s) b := fun b =>
    byteAt_of_parts (s := store a bs s) hm hb hc b
  refine ⟨?_, fun b h => by rw [e, byteAt_store_outside h]⟩
  rw [bytesAt_congr (fun b _ _ => e b), bytesAt_store_self]

/-- Two states with the same memory and the same fills hold the same bytes. -/
theorem sameMemory_of_parts {s t : State} (hm : t.mem = s.mem) (hb : t.env.bufFill = s.env.bufFill)
    (hc : t.env.catFill = s.env.catFill) : SameMemory s t := byteAt_of_parts hm hb hc

/-! ## Registers -/

theorem getx_eq_some {s : State} {i : XIndex} {w : Word} :
    getx s i = some w ↔ s.cpp.xv.getLsbD i.toNat = true ∧ xraw s i = w := by
  unfold getx xvalid; split <;> simp_all

theorem getx_eq_none {s : State} {i : XIndex} : getx s i = none ↔ s.cpp.xv.getLsbD i.toNat = false := by
  unfold getx xvalid; split <;> simp_all

/-- A written register is valid and holds the word. -/
theorem getx_setx_self (i : XIndex) (w : Word) (s : State) : getx (setx i w s) i = some w := by
  have hi : ∀ j : XIndex, ((1 : BitVec 16) <<< j.toNat).getLsbD j.toNat = true := by decide
  refine getx_eq_some.mpr ⟨?_, by simp [xraw]⟩
  rw [setx_cpp, BitVec.getLsbD_or, hi, Bool.or_true]

theorem operand_of_none {s : State} {i : XIndex} (h : getx s i = none) : operand s i = .error .operand := by
  simp [operand, h]

theorem operand_of_some {s : State} {i : XIndex} {w : Word} (h : getx s i = some w) : operand s i = .ok w := by
  simp [operand, h]

/-! ## Exceptions and refusals -/

/-- A refusal records its code and changes nothing else. -/
theorem refuse_eq (r : RefuseReason) (s : State) : refuse r s = refusedWith (refuseCode r) s := rfl

theorem opFaultEntry_of_unpack {f : OpFault} {p c : Byte} {s : State} (h : s.cpp.pkDir = .unpack) :
    opFaultEntry f p c s = { s with
      op := { opCode := opFaultCode f, opPc := p, opCur := c }
      cpp := { s.cpp with pkState := .fault }
      irq := { s.irq with irqPend := s.irq.irqPend ||| 0x20 } } := by
  simp [opFaultEntry, h, raiseIrq]

theorem opFaultEntry_of_pack {f : OpFault} {p c : Byte} {s : State} (h : s.cpp.pkDir = .pack) :
    opFaultEntry f p c s = store payBase ((List.range 255).map (fun i => Config.freePay s.env.draw i)) { s with
      op := { opCode := opFaultCode f, opPc := p, opCur := c }
      cpp := { s.cpp with pkState := .fault }
      irq := { s.irq with irqPend := s.irq.irqPend ||| 0x20 } } := by
  simp [opFaultEntry, h, raiseIrq, scramblePay]

/-- Everything a host-command fault entry does. -/
theorem opFaultEntry_faulted (f : OpFault) (p c : Byte) (s : State) :
    Faulted (opFaultCode f) p c s (opFaultEntry f p c s) := by
  unfold Faulted
  cases h : s.cpp.pkDir
  · rw [opFaultEntry_of_pack h]
    refine ⟨rfl, fun a ha => ?_⟩
    rw [byteAt_store_outside (by simpa using ha)]
    exact byteAt_of_parts rfl rfl rfl a
  · rw [opFaultEntry_of_unpack h]
    exact ⟨rfl, byteAt_of_parts rfl rfl rfl⟩

/-- Everything a receive-pipeline error entry does. -/
theorem rxErrorEntry_eq (e : RxError) (len : Nat) (s : State) :
    rxErrorEntry e len s = { s with
      log := (rxErrorEntry e len s).log
      irq := { s.irq with irqPend := s.irq.irqPend ||| 0x02 } } := by
  cases e <;> rfl

theorem rxErrorEntry_log (e : RxError) (len : Nat) (s : State) :
    (rxErrorEntry e len s).log = { s.log with
      rxerrCode := rxErrorCode e
      rxerrLen := BitVec.ofNat 10 len
      cntFfe := if e = .checksum then s.log.cntFfe else sat16Succ s.log.cntFfe
      cntCsum := if e = .checksum then sat16Succ s.log.cntCsum else s.log.cntCsum } := by
  cases e <;> rfl

/-! ## The delimiter -/

/-- FLUSH with nothing accumulated. -/
theorem flushAcc_of_empty {s : State} (h : s.fd.acc = []) : flushAcc s = { s with fd := { s.fd with ict := 0 } } := by
  simp [flushAcc, h]

/-- FLUSH with room in the queue. -/
theorem flushAcc_of_room {s : State} (h : s.fd.acc ≠ []) (hq : s.fq.length < 4) :
    flushAcc s = { s with
      fd := { s.fd with acc := [], accOvf := false, ict := 0 }
      fq := s.fq ++ [{ bytes := s.fd.acc, ovf := s.fd.accOvf }] } := by
  simp [flushAcc, h, pushCandidate, Config.fqDepth, hq]

/-- FLUSH with the queue full: the candidate is lost. -/
theorem flushAcc_of_full {s : State} (h : s.fd.acc ≠ []) (hq : 4 ≤ s.fq.length) :
    flushAcc s = { s with
      fd := { s.fd with acc := [], accOvf := false, ict := 0 }
      log := { s.log with cntDrop := sat16Succ s.log.cntDrop }
      irq := { s.irq with irqPend := s.irq.irqPend ||| 0x08 } } := by
  have : ¬ s.fq.length < Config.fqDepth := by simp [Config.fqDepth]; omega
  simp [flushAcc, h, pushCandidate, this, raiseIrq]

/-- What FLUSH leaves of the delimiter. -/
theorem flushAcc_fd (s : State) : (flushAcc s).fd.acc = [] ∧ (flushAcc s).fd.ict = 0 ∧
    (flushAcc s).fd.rxEn = s.fd.rxEn := by
  by_cases h : s.fd.acc = [] <;> simp [flushAcc, h]

/-- TICK while the delimiter counts and the threshold is not passed. -/
theorem fdTick_of_counting {s : State} (he : s.fd.rxEn = true) (ha : s.fd.acc ≠ [])
    (hk : ¬ s.cfg.tPkt < sat16Succ s.fd.ict) :
    fdTick s = { s with fd := { s.fd with ict := sat16Succ s.fd.ict } } := by
  simp [fdTick, he, ha, hk]

/-- TICK when the threshold is passed. -/
theorem fdTick_of_timeout {s : State} (he : s.fd.rxEn = true) (ha : s.fd.acc ≠ [])
    (hk : s.cfg.tPkt < sat16Succ s.fd.ict) :
    fdTick s = flushAcc { s with fd := { s.fd with ict := sat16Succ s.fd.ict } } := by
  simp [fdTick, he, ha, hk]

/-- TICK while the receiver is off or nothing is accumulated. -/
theorem fdTick_of_idle {s : State} (h : s.fd.rxEn = false ∨ s.fd.acc = []) : fdTick s = s := by
  rcases h with h | h <;> simp [fdTick, h]

/-- The guard's tick changes the transmit unit only. -/
theorem guardTick_eq (s : State) :
    guardTick s = { s with tx := if s.tx.txg = 0 then s.tx else { s.tx with txg := s.tx.txg - 1 } } := by
  unfold guardTick; split <;> rfl

/-! ## The checksum -/

theorem csumStep_lt (p : Nat × Nat) (b : Byte) : (csumStep p b).1 < 255 ∧ (csumStep p b).2 < 255 :=
  ⟨Nat.mod_lt _ (by decide), Nat.mod_lt _ (by decide)⟩

theorem csumSums_lt (bytes : List Byte) : (csumSums bytes).1 < 255 ∧ (csumSums bytes).2 < 255 := by
  unfold csumSums
  generalize hp : (Config.seed1, Config.seed2) = p
  have h : p.1 < 255 ∧ p.2 < 255 := by subst hp; decide
  clear hp
  induction bytes generalizing p with
  | nil => exact h
  | cons b t ih => exact ih _ (csumStep_lt p b)

theorem validates_iff {f : List Byte} (h : 2 ≤ f.length) :
    validates f = true ↔ f.drop (f.length - 2) =
      [(csum (f.take (f.length - 2))).1, (csum (f.take (f.length - 2))).2] := by
  simp [validates, h]

/-- A body followed by its own check bytes validates. -/
theorem validates_append_csum (body : List Byte) : validates (body ++ [(csum body).1, (csum body).2]) = true := by
  simp [validates]

/-! ## The judgement of a candidate -/

theorem frameError_short {f : List Byte} (h : f.length < 10) : frameError f = some .ffeShort := if_pos h

theorem frameError_length {f : List Byte} (h : 10 ≤ f.length)
    (h' : f.length < 12 ∨ (f.getD 9 0).toNat ≠ f.length - 12) : frameError f = some .ffeLength := by
  unfold frameError
  exact (if_neg (Nat.not_lt.mpr h)).trans (if_pos h')

theorem frameError_eq_of_length {f : List Byte} (h : 12 ≤ f.length) (h' : (f.getD 9 0).toNat = f.length - 12) :
    frameError f = if validates f then none else some .checksum := by
  unfold frameError
  exact (if_neg (show ¬ f.length < 10 by omega)).trans
    (if_neg (show ¬ (f.length < 12 ∨ (f.getD 9 0).toNat ≠ f.length - 12) by omega))

/-! ## RUN's tests and the ends of a descriptor -/

theorem runField_at_255 {legal : Bool} {pk un : Byte → State → State} {s : State} (h : s.cpp.pc = 255) :
    runField legal pk un s = opFaultEntry .shapeFault 255 s.cpp.cur s := by
  simp [runField, h]

theorem runField_illegal {pk un : Byte → State → State} {s : State} (h : s.cpp.pc ≠ 255) :
    runField false pk un s = opFaultEntry .shapeFault s.cpp.pc s.cpp.cur (pcAdvanced s) := by
  unfold runField; rw [if_neg h]; rfl

theorem runField_pack {pk un : Byte → State → State} {s : State} (h : PackReady s) :
    runField true pk un s = pk s.cpp.pc (pcAdvanced s) := by
  unfold runField; rw [if_neg h.2]; simp only [if_true]; rw [h.1]; rfl

theorem runField_unpack {pk un : Byte → State → State} {s : State} (h : UnpackReady s) :
    runField true pk un s = un s.cpp.pc (pcAdvanced s) := by
  unfold runField; rw [if_neg h.2]; simp only [if_true]; rw [h.1]; rfl

/-- Everything a pass of RUN's loop over a descriptor other than END can do. -/
theorem runField_cases (legal : Bool) (pk un : Byte → State → State) (s : State) :
    (s.cpp.pc = 255 ∧ runField legal pk un s = opFaultEntry .shapeFault 255 s.cpp.cur s)
    ∨ (s.cpp.pc ≠ 255 ∧ legal = false ∧
        runField legal pk un s = opFaultEntry .shapeFault s.cpp.pc s.cpp.cur (pcAdvanced s))
    ∨ (legal = true ∧ PackReady s ∧ runField legal pk un s = pk s.cpp.pc (pcAdvanced s))
    ∨ (legal = true ∧ UnpackReady s ∧ runField legal pk un s = un s.cpp.pc (pcAdvanced s)) := by
  by_cases h : s.cpp.pc = 255
  · exact .inl ⟨h, runField_at_255 h⟩
  · cases legal
    · exact .inr (.inl ⟨h, rfl, runField_illegal h⟩)
    · cases hd : s.cpp.pkDir
      · exact .inr (.inr (.inl ⟨rfl, ⟨hd, h⟩, runField_pack ⟨hd, h⟩⟩))
      · exact .inr (.inr (.inr ⟨rfl, ⟨hd, h⟩, runField_unpack ⟨hd, h⟩⟩))

/-- Everything the end of a pack descriptor can do. -/
theorem packBytes_cases (p : Byte) (adv : Nat) (r : Except OpFault (List Byte)) (s : State) :
    (∃ f, r = .error f ∧ packBytes p adv r s = opFaultEntry f p s.cpp.cur s)
    ∨ (∃ bs, r = .ok bs ∧ 255 < s.cpp.cur.toNat + bs.length ∧
        packBytes p adv r s = opFaultEntry .overflow p s.cpp.cur s)
    ∨ (∃ bs, r = .ok bs ∧ s.cpp.cur.toNat + bs.length ≤ 255 ∧
        packBytes p adv r s = advance adv (store (payBase + s.cpp.cur.toNat) bs s)) := by
  cases r with
  | error f => exact .inl ⟨f, rfl, rfl⟩
  | ok bs =>
    by_cases h : s.cpp.cur.toNat + bs.length > Config.payMax
    · exact .inr (.inl ⟨bs, rfl, h, by simp [packBytes, h]⟩)
    · exact .inr (.inr ⟨bs, rfl, Nat.le_of_not_lt h, by simp [packBytes, h]⟩)

/-- Everything the end of an unpack descriptor can do. -/
theorem unpackBytes_cases (p : Byte) (k adv : Nat) (value : List Byte → Except OpFault (List (XIndex × Word)))
    (s : State) :
    (s.dec.rxp.plen.toNat < s.cpp.cur.toNat + k ∧
        unpackBytes p k adv value s = opFaultEntry .unpackUnderrun p s.cpp.cur s)
    ∨ (s.cpp.cur.toNat + k ≤ s.dec.rxp.plen.toNat ∧
        ∃ f, value (bytesAt s (rxpayBase + s.cpp.cur.toNat) k) = .error f ∧
          unpackBytes p k adv value s = opFaultEntry f p s.cpp.cur s)
    ∨ (s.cpp.cur.toNat + k ≤ s.dec.rxp.plen.toNat ∧
        ∃ ws, value (bytesAt s (rxpayBase + s.cpp.cur.toNat) k) = .ok ws ∧
          unpackBytes p k adv value s = advance adv (setxs ws s)) := by
  by_cases h : s.cpp.cur.toNat + k > s.dec.rxp.plen.toNat
  · exact .inl ⟨h, by simp [unpackBytes, h]⟩
  · cases hv : value (bytesAt s (rxpayBase + s.cpp.cur.toNat) k) with
    | error f => exact .inr (.inl ⟨Nat.le_of_not_lt h, f, rfl, by simp [unpackBytes, h, hv]⟩)
    | ok ws => exact .inr (.inr ⟨Nat.le_of_not_lt h, ws, rfl, by simp [unpackBytes, h, hv]⟩)

/-- The stored and advanced state after a pack descriptor that may store. -/
theorem packedField_of_store {bs : List Byte} {adv : Nat} {s : State} :
    PackedField bs adv s (advance adv (store (payBase + s.cpp.cur.toNat) bs (pcAdvanced s))) := by
  refine ⟨rfl, ?_, fun a ha => ?_⟩
  · exact bytesAt_store_self _ bs (pcAdvanced s)
  · exact byteAt_store_outside (s := pcAdvanced s) ha

/-! ## Values -/

/-- Everything an RTIMER makes of two operands (43_packer.md R175). -/
theorem rtimerStored_eq (tieEven : Bool) (minutes seconds : Word) :
    rtimerStored tieEven minutes seconds =
      if minutes.toInt < 0 ∨ seconds.toInt < 0 ∨ 15 < roundTie tieEven (seconds.toInt * 4) 983040 then .error .range
      else .ok (BitVec.ofNat 8
        (16 * (min minutes.toInt 15).toNat + (roundTie tieEven (seconds.toInt * 4) 983040).toNat)) := by
  have hm : (if minutes.toInt > (Config.rtMinMax : Int) then (Config.rtMinMax : Int) else minutes.toInt)
      = min minutes.toInt 15 := by
    have : (Config.rtMinMax : Int) = 15 := rfl
    rw [this]; split <;> omega
  have h16 : (15 * 65536 : Int) = 983040 := rfl
  simp only [rtimerStored, hm, h16]
  by_cases h1 : minutes.toInt < 0 ∨ seconds.toInt < 0
  · rw [if_pos h1, if_pos (by tauto)]
  · rw [if_neg h1]
    by_cases h2 : roundTie tieEven (seconds.toInt * 4) 983040 > 15
    · rw [if_pos h2, if_pos (by tauto)]
    · rw [if_neg h2, if_neg (by tauto)]

/-! ## Dispatch -/

theorem entryStart_eq_some {w : Word} {code : BitVec 16} {start : Byte} :
    entryStart w code = some start ↔ decode (.entry w) = .ok (.cmdtabEntry start code) := by
  simp only [entryStart, decode, decodeEntry]
  cases h : w.getLsbD 31
  · simp
  · simp only [Bool.true_and, decide_eq_true_eq, if_true, Except.ok.injEq, Instr.cmdtabEntry.injEq]
    split
    · rename_i hc; simp [hc]
    · rename_i hc; simp [hc]

/-- The first index with an answer, among the first `n`. -/
theorem findSome?_range_eq_some {α : Type} {f : Nat → Option α} {n : Nat} {v : α} :
    (List.range n).findSome? f = some v ↔ ∃ e < n, f e = some v ∧ ∀ e' < e, f e' = none := by
  induction n with
  | zero => simp
  | succ n ih =>
    rw [List.range_succ, List.findSome?_append]
    cases hf : (List.range n).findSome? f with
    | some u =>
      rw [hf] at ih
      simp only [Option.some_or]
      constructor
      · intro h; obtain ⟨e, he, h1, h2⟩ := ih.mp h; exact ⟨e, by omega, h1, h2⟩
      · rintro ⟨e, he, h1, h2⟩
        by_cases hen : e = n
        · subst hen
          rw [List.findSome?_eq_none_iff.mpr (by intro x hx; exact h2 x (List.mem_range.mp hx))] at hf
          cases hf
        · exact ih.mpr ⟨e, by omega, h1, h2⟩
    | none =>
      have hn : ∀ e < n, f e = none := fun e he => List.findSome?_eq_none_iff.mp hf e (List.mem_range.mpr he)
      have hs : [n].findSome? f = f n := by cases h : f n <;> simp [h]
      rw [Option.none_or, hs]
      constructor
      · intro h; exact ⟨n, by omega, h, hn⟩
      · rintro ⟨e, he, h1, h2⟩
        by_cases hen : e = n
        · subst hen; exact h1
        · rw [hn e (by omega)] at h1; cases h1

/-- Everything a lookup can answer. -/
theorem lookup_eq_some {s : State} {code : BitVec 16} {start : Byte} :
    lookup s code = some start ↔
      ∃ e < 128, entryStart (wordAt s (cmdtabBase + 4 * e)) code = some start
        ∧ ∀ e' < e, entryStart (wordAt s (cmdtabBase + 4 * e')) code = none := findSome?_range_eq_some

/-! ## RUN -/

/-- One fetch of RUN: the descriptor's own meaning, and on while `pk_state` is IDLE. -/
theorem runLoop_succ {n : Nat} {s t : State} (h : execDescriptor (decodeDesc (shmWord s s.cpp.pc)) s = .next t) :
    runLoop (n + 1) s = if t.cpp.pkState = .idle then runLoop n t else .next t := by
  simp only [runLoop, h]
  cases t.cpp.pkState <;> rfl

/-- What every descriptor executed in IDLE keeps, a shape program started in IDLE keeps. -/
theorem runLoop_keeps {P : State → Prop}
    (hP : ∀ s t, P s → s.cpp.pkState = .idle → execDescriptor (decodeDesc (shmWord s s.cpp.pc)) s = .next t → P t) :
    ∀ (n : Nat) (s t : State), P s → s.cpp.pkState = .idle → runLoop n s = .next t → P t := by
  intro n
  induction n with
  | zero => intro s t hs _ h; simp only [runLoop, Host.Outcome.next.injEq] at h; exact h ▸ hs
  | succ n ih =>
    intro s t hs hi h
    cases hd : execDescriptor (decodeDesc (shmWord s s.cpp.pc)) s with
    | next u =>
      rw [runLoop_succ hd] at h
      split at h
      · rename_i hu; exact ih u t (hP s u hs hi hd) hu h
      · rw [Host.Outcome.next.injEq] at h; exact h ▸ hP s u hs hi hd
    | fault r => simp [runLoop, hd] at h
    | refused r => simp [runLoop, hd] at h

end Sys2Proof.Machine
end

