-- ==== Sys2Proof/Laws/Descriptors.lean ====
section
/-! SUPPORT. Laws/Descriptors.lean: everything a field descriptor can do, and that RUN ends. -/

namespace Sys2Proof.Machine

/-- The exceptions a descriptor can raise in pack direction (60_exceptions.md R218). -/
def packFaults : List OpFault := [.enum, .range, .operand, .overflow, .shapeFault]

/-- The exceptions a descriptor can raise in unpack direction (60_exceptions.md R218). -/
def unpackFaults : List OpFault := [.shapeFault, .unpackUnderrun, .unpackEnum]

/-- What a pack descriptor's pass leaves: an exception, or bytes stored at the cursor. -/
def PackOutcome (s t : State) : Prop :=
  (∃ f ∈ packFaults, ∃ p, t = opFaultEntry f p s.cpp.cur s ∨ t = opFaultEntry f p s.cpp.cur (pcAdvanced s))
  ∨ (s.cpp.pc ≠ 255 ∧ ∃ bs adv, s.cpp.cur.toNat + bs.length ≤ 255 ∧ adv ≤ bs.length
      ∧ t = advance adv (store (payBase + s.cpp.cur.toNat) bs (pcAdvanced s)))

/-- What an unpack descriptor's pass leaves: an exception, registers written, or the tail stored. -/
def UnpackOutcome (s t : State) : Prop :=
  (∃ f ∈ unpackFaults, ∃ p, t = opFaultEntry f p s.cpp.cur s ∨ t = opFaultEntry f p s.cpp.cur (pcAdvanced s))
  ∨ (s.cpp.pc ≠ 255 ∧ ∃ ws adv, t = advance adv (setxs ws (pcAdvanced s)))
  ∨ (s.cpp.pc ≠ 255 ∧ t = unpackTail (pcAdvanced s))

/-! ## The exceptions of the operand and domain tests -/

theorem operand_error {s : State} {i : XIndex} {f : OpFault} (h : operand s i = .error f) : f = .operand := by
  unfold operand at h; split at h <;> simp_all

theorem enum8Bytes_error {xr set s f} (h : enum8Bytes xr set s = .error f) : f ∈ packFaults := by
  unfold enum8Bytes at h
  split at h
  · rename_i g hg; cases operand_error hg; cases h; decide
  · repeat' split at h
    all_goals first | (cases h; done) | (cases h; decide)

theorem twosStored_error {n v f} (h : twosStored n v = .error f) : f = .range := by
  unfold twosStored at h
  split at h <;> simp_all

theorem fixpStored_error {e fw sgn sc x f} (h : fixpStored e fw sgn sc x = .error f) : f = .range := by
  unfold fixpStored at h
  simp only at h
  generalize roundTie e _ _ = q at h
  split at h
  · exact (Except.error.inj h).symm
  · split at h
    · exact (Except.error.inj h).symm
    · cases h

theorem twosBytes_error {xr w16 le n s f} (h : twosBytes xr w16 le n s = .error f) : f ∈ packFaults := by
  unfold twosBytes at h
  split at h
  · rename_i g hg; cases operand_error hg; cases h; decide
  · split at h
    · rename_i g hg; cases twosStored_error hg; cases h; decide
    · cases h

theorem fixpBytes_error {xr w16 le sgn sc s f} (h : fixpBytes xr w16 le sgn sc s = .error f) : f ∈ packFaults := by
  unfold fixpBytes at h
  split at h
  · rename_i g hg; cases operand_error hg; cases h; decide
  · split at h
    · rename_i g hg; cases fixpStored_error hg; cases h; decide
    · cases h

theorem bitfBytes_error {xr wid pos s f} (h : bitfBytes xr wid pos s = .error f) : f ∈ packFaults := by
  unfold bitfBytes at h
  split at h
  · rename_i g hg; cases operand_error hg; cases h; decide
  · split at h <;> cases h; decide

theorem rtimerBytes_error {xr xr2 s f} (h : rtimerBytes xr xr2 s = .error f) : f ∈ packFaults := by
  unfold rtimerBytes at h
  split at h
  · rename_i g hg; cases operand_error hg; cases h; decide
  · split at h
    · rename_i g hg; cases operand_error hg; cases h; decide
    · rw [rtimerStored_eq] at h
      split at h
      · rename_i hg; split at hg <;> cases hg; cases h; decide
      · cases h

/-! ## How many bytes a descriptor stores -/

theorem fieldBytes_length (w16 le : Bool) (u : Nat) : (fieldBytes w16 le u).length = fieldLen w16 := by
  cases w16 <;> cases le <;> rfl

theorem enum8Bytes_length {xr set s bs} (h : enum8Bytes xr set s = .ok bs) : bs.length = 1 := by
  unfold enum8Bytes at h
  repeat' split at h
  all_goals first | (cases h; done) | (cases h; rfl)

theorem twosBytes_length {xr w16 le n s bs} (h : twosBytes xr w16 le n s = .ok bs) : bs.length = fieldLen w16 := by
  unfold twosBytes at h
  repeat' split at h
  all_goals first | (cases h; done) | (cases h; exact fieldBytes_length _ _ _)

theorem fixpBytes_length {xr w16 le sgn sc s bs} (h : fixpBytes xr w16 le sgn sc s = .ok bs) :
    bs.length = fieldLen w16 := by
  unfold fixpBytes at h
  repeat' split at h
  all_goals first | (cases h; done) | (cases h; exact fieldBytes_length _ _ _)

theorem bitfBytes_length {xr wid pos s bs} (h : bitfBytes xr wid pos s = .ok bs) : bs.length = 1 := by
  unfold bitfBytes at h
  repeat' split at h
  all_goals first | (cases h; done) | (cases h; rfl)

theorem rtimerBytes_length {xr xr2 s bs} (h : rtimerBytes xr xr2 s = .ok bs) : bs.length = 1 := by
  unfold rtimerBytes at h
  repeat' split at h
  all_goals first | (cases h; done) | (cases h; rfl)

/-! ## One pass -/

theorem packBytes_outcome {s : State} {adv : Nat} {r : Except OpFault (List Byte)} (h : s.cpp.pc ≠ 255)
    (hf : ∀ f, r = .error f → f ∈ packFaults) (ha : ∀ bs, r = .ok bs → adv ≤ bs.length) :
    PackOutcome s (packBytes s.cpp.pc adv r (pcAdvanced s)) := by
  rcases packBytes_cases s.cpp.pc adv r (pcAdvanced s) with ⟨f, hr, he⟩ | ⟨bs, hr, _, he⟩ | ⟨bs, hr, hl, he⟩
  · exact .inl ⟨f, hf f hr, _, .inr he⟩
  · exact .inl ⟨.overflow, by decide, _, .inr he⟩
  · exact .inr ⟨h, bs, adv, hl, ha bs hr, he⟩

theorem unpackBytes_outcome {s : State} {k adv : Nat} {v : List Byte → Except OpFault (List (XIndex × Word))}
    (h : s.cpp.pc ≠ 255) (hf : ∀ bs f, v bs = .error f → f ∈ unpackFaults) :
    UnpackOutcome s (unpackBytes s.cpp.pc k adv v (pcAdvanced s)) := by
  rcases unpackBytes_cases s.cpp.pc k adv v (pcAdvanced s) with ⟨_, he⟩ | ⟨_, f, hr, he⟩ | ⟨_, ws, _, he⟩
  · exact .inl ⟨.unpackUnderrun, by decide, _, .inr he⟩
  · exact .inl ⟨f, hf _ f hr, _, .inr he⟩
  · exact .inr (.inl ⟨h, ws, adv, he⟩)

theorem runField_pack_outcome {legal : Bool} {pk un : Byte → State → State} {s : State} (hd : s.cpp.pkDir = .pack)
    (h : legal = true → PackReady s → PackOutcome s (pk s.cpp.pc (pcAdvanced s))) : PackOutcome s (runField legal pk un s) := by
  rcases runField_cases legal pk un s with ⟨_, he⟩ | ⟨_, _, he⟩ | ⟨hl, hr, he⟩ | ⟨_, hr, _⟩
  · exact .inl ⟨.shapeFault, by decide, _, .inl he⟩
  · exact .inl ⟨.shapeFault, by decide, _, .inr he⟩
  · rw [he]; exact h hl hr
  · rw [hr.1] at hd; cases hd

theorem runField_unpack_outcome {legal : Bool} {pk un : Byte → State → State} {s : State}
    (hd : s.cpp.pkDir = .unpack) (h : legal = true → UnpackReady s → UnpackOutcome s (un s.cpp.pc (pcAdvanced s))) :
    UnpackOutcome s (runField legal pk un s) := by
  rcases runField_cases legal pk un s with ⟨_, he⟩ | ⟨_, _, he⟩ | ⟨_, hr, _⟩ | ⟨hl, hr, he⟩
  · exact .inl ⟨.shapeFault, by decide, _, .inl he⟩
  · exact .inl ⟨.shapeFault, by decide, _, .inr he⟩
  · rw [hr.1] at hd; cases hd
  · rw [he]; exact h hl hr

/-- Everything a field descriptor can do in pack direction. -/
theorem field_pack_outcome {i : Instr} {s : State} (hi : isField i = true) (hd : s.cpp.pkDir = .pack) :
    ∃ t, execDescriptor i s = .next t ∧ PackOutcome s t := by
  cases i <;> simp only [isField, Bool.false_eq_true] at hi <;>
    refine ⟨_, rfl, runField_pack_outcome hd (fun hl hr => ?_)⟩
  case enum8 =>
    exact packBytes_outcome hr.2 (fun _ => enum8Bytes_error) (fun _ h => by rw [enum8Bytes_length h])
  case twos =>
    exact packBytes_outcome hr.2 (fun _ => twosBytes_error) (fun _ h => by rw [twosBytes_length h])
  case twos8 =>
    exact packBytes_outcome hr.2 (fun _ => twosBytes_error) (fun _ h => by rw [twosBytes_length h])
  case twos16be =>
    exact packBytes_outcome hr.2 (fun _ => twosBytes_error) (fun _ h => by rw [twosBytes_length h])
  case twos16le =>
    exact packBytes_outcome hr.2 (fun _ => twosBytes_error) (fun _ h => by rw [twosBytes_length h])
  case s8 =>
    exact packBytes_outcome hr.2 (fun _ => twosBytes_error) (fun _ h => by rw [twosBytes_length h])
  case s16be =>
    exact packBytes_outcome hr.2 (fun _ => twosBytes_error) (fun _ h => by rw [twosBytes_length h])
  case s16le =>
    exact packBytes_outcome hr.2 (fun _ => twosBytes_error) (fun _ h => by rw [twosBytes_length h])
  case fixp =>
    exact packBytes_outcome hr.2 (fun _ => fixpBytes_error) (fun _ h => by rw [fixpBytes_length h])
  case fixp8 =>
    exact packBytes_outcome hr.2 (fun _ => fixpBytes_error) (fun _ h => by rw [fixpBytes_length h])
  case fixp16be =>
    exact packBytes_outcome hr.2 (fun _ => fixpBytes_error) (fun _ h => by rw [fixpBytes_length h])
  case fixp16le =>
    exact packBytes_outcome hr.2 (fun _ => fixpBytes_error) (fun _ h => by rw [fixpBytes_length h])
  case bitf adv _ _ =>
    exact packBytes_outcome hr.2 (fun _ => bitfBytes_error)
      (fun _ h => by rw [bitfBytes_length h]; cases adv <;> decide)
  case u8 =>
    exact packBytes_outcome hr.2 (fun _ => bitfBytes_error) (fun _ h => by rw [bitfBytes_length h]; decide)
  case bit adv _ =>
    exact packBytes_outcome hr.2 (fun _ => bitfBytes_error)
      (fun _ h => by rw [bitfBytes_length h]; cases adv <;> decide)
  case tail =>
    exact packBytes_outcome hr.2 (fun _ h => by cases h) (fun _ h => by cases h; rw [bytesAt_length])
  case rtimer =>
    exact packBytes_outcome hr.2 (fun _ => rtimerBytes_error) (fun _ h => by rw [rtimerBytes_length h])
  case reservedKind =>
    cases hl

theorem enum8Value_error {xr set s bs f} (h : enum8Value xr set s bs = .error f) : f ∈ unpackFaults := by
  unfold enum8Value at h
  simp only at h
  split at h
  · cases h
  · cases h; decide

/-- Everything a field descriptor can do in unpack direction. -/
theorem field_unpack_outcome {i : Instr} {s : State} (hi : isField i = true) (hd : s.cpp.pkDir = .unpack) :
    ∃ t, execDescriptor i s = .next t ∧ UnpackOutcome s t := by
  cases i <;> simp only [isField, Bool.false_eq_true] at hi <;>
    refine ⟨_, rfl, runField_unpack_outcome hd (fun hl hr => ?_)⟩
  case enum8 => exact unpackBytes_outcome hr.2 (fun _ _ => enum8Value_error)
  case tail => exact .inr (.inr ⟨hr.2, rfl⟩)
  case reservedKind => cases hl
  all_goals exact unpackBytes_outcome hr.2 (fun _ _ h => by cases h)

/-! ## RUN ends -/

/-- What RUN executes is END or a field descriptor. -/
theorem decodeDesc_isField (w : Word) : decodeDesc w = .endShape ∨ isField (decodeDesc w) = true := by
  unfold decodeDesc decodeKind
  simp only
  split <;> simp only [Instr.canon] <;> first
    | exact .inl trivial
    | exact .inr rfl
    | (right; repeat' split
       all_goals rfl)

theorem PackOutcome.advances {s t : State} (h : PackOutcome s t) :
    t.cpp.pkState = .fault ∨ (t.cpp.pkState = s.cpp.pkState ∧ t.cpp.pkDir = s.cpp.pkDir
      ∧ t.cpp.pc.toNat = s.cpp.pc.toNat + 1) := by
  rcases h with ⟨f, _, p, rfl | rfl⟩ | ⟨hp, bs, adv, _, _, rfl⟩
  · left; exact congrArg (·.cpp.pkState) (opFaultEntry_faulted f p s.cpp.cur s).1
  · left; exact congrArg (·.cpp.pkState) (opFaultEntry_faulted f p s.cpp.cur (pcAdvanced s)).1
  · refine .inr ⟨rfl, rfl, ?_⟩
    have : s.cpp.pc.toNat ≠ 255 := fun h => hp (BitVec.eq_of_toNat_eq h)
    have := s.cpp.pc.isLt
    show (s.cpp.pc + 1).toNat = _
    rw [BitVec.toNat_add]; simp; omega

theorem setxs_units (ws : List (XIndex × Word)) (s : State) :
    setxs ws s = { s with cpp := { s.cpp with x := (setxs ws s).cpp.x, xv := (setxs ws s).cpp.xv } } := by
  induction ws generalizing s with
  | nil => rfl
  | cons w r ih =>
    have := ih (setx w.1 w.2 s)
    simp only [setxs]
    rw [this]; rfl

theorem UnpackOutcome.advances {s t : State} (h : UnpackOutcome s t) :
    t.cpp.pkState = .fault ∨ (t.cpp.pkState = s.cpp.pkState ∧ t.cpp.pkDir = s.cpp.pkDir
      ∧ t.cpp.pc.toNat = s.cpp.pc.toNat + 1) := by
  have hpc : s.cpp.pc ≠ 255 → (s.cpp.pc + 1).toNat = s.cpp.pc.toNat + 1 := by
    intro hp
    have : s.cpp.pc.toNat ≠ 255 := fun h => hp (BitVec.eq_of_toNat_eq h)
    have := s.cpp.pc.isLt
    rw [BitVec.toNat_add]; simp; omega
  rcases h with ⟨f, _, p, rfl | rfl⟩ | ⟨hp, ws, adv, rfl⟩ | ⟨hp, rfl⟩
  · left; exact congrArg (·.cpp.pkState) (opFaultEntry_faulted f p s.cpp.cur s).1
  · left; exact congrArg (·.cpp.pkState) (opFaultEntry_faulted f p s.cpp.cur (pcAdvanced s)).1
  · right
    rw [setxs_units]
    exact ⟨rfl, rfl, hpc hp⟩
  · exact .inr ⟨rfl, rfl, hpc hp⟩

/-- RUN, started in IDLE, ends within as many fetches as descriptors are left: at an END or with an exception. -/
theorem runLoop_ends : ∀ (n : Nat) (s : State), 256 ≤ s.cpp.pc.toNat + n → s.cpp.pkState = .idle →
    ∃ t, runLoop n s = .next t ∧ t.cpp.pkState ≠ .idle := by
  intro n
  induction n with
  | zero => intro s h; have := s.cpp.pc.isLt; omega
  | succ n ih =>
    intro s h hs
    rcases decodeDesc_isField (shmWord s s.cpp.pc) with he | hf
    · have hd : execDescriptor (decodeDesc (shmWord s s.cpp.pc)) s = .next (endShape s) := by rw [he]; rfl
      rw [runLoop_succ hd]
      have : (endShape s).cpp.pkState = .done := by unfold endShape; split <;> rfl
      exact ⟨_, by rw [this]; rfl, by rw [this]; decide⟩
    · have key : ∃ t, execDescriptor (decodeDesc (shmWord s s.cpp.pc)) s = .next t ∧
          (t.cpp.pkState = .fault ∨ (t.cpp.pkState = s.cpp.pkState ∧ t.cpp.pkDir = s.cpp.pkDir
            ∧ t.cpp.pc.toNat = s.cpp.pc.toNat + 1)) := by
        cases hd : s.cpp.pkDir
        · obtain ⟨t, ht, ho⟩ := field_pack_outcome hf hd
          have := ho.advances; rw [hd] at this; exact ⟨t, ht, this⟩
        · obtain ⟨t, ht, ho⟩ := field_unpack_outcome hf hd
          have := ho.advances; rw [hd] at this; exact ⟨t, ht, this⟩
      obtain ⟨t, ht, ho⟩ := key
      rw [runLoop_succ ht]
      rcases ho with ho | ⟨h1, _, h3⟩
      · exact ⟨t, by rw [ho]; rfl, by rw [ho]; decide⟩
      · rw [h1, hs]; exact ih t (by omega) (by rw [h1, hs])

theorem runShape_ends {s : State} (h : s.cpp.pkState = .idle) :
    ∃ t, runShape s = .next t ∧ t.cpp.pkState ≠ .idle := runLoop_ends 256 s (by omega) h

end Sys2Proof.Machine
end

