-- ==== Sys2Proof/Laws/HostBus.lean ====
section
/-! SUPPORT. Laws/HostBus.lean: which location an offset of the host bus reaches. -/

namespace Sys2Proof.Machine

theorem registerMap_offsets : ∀ p ∈ registerMap,
    p.1 < 0x080 ∧ p.1 % 4 = 0 ∧ p.1 ≠ 0x06C ∧ p.1 ≠ 0x07C := by decide

theorem registerMap_no_memory : ∀ p ∈ registerMap, ∀ a, p.2 ≠ .rwByte a ∧ p.2 ≠ .rwWord a := by
  intro p hp a
  fin_cases hp <;> simp

theorem registerMap_lookup_eq_none {a : Nat} (h : 0x080 ≤ a ∨ a = 0x06C ∨ a = 0x07C) : registerMap.lookup a = none := by
  refine List.lookup_eq_none_iff.mpr (fun p hp => ?_)
  have := registerMap_offsets p hp
  simp only [ne_eq, bne_iff_ne]
  omega

/-- The offsets below 0x100 that hold no register. -/
theorem regAt_eq_none {a : Nat} (h : 0x100 ≤ a ∨ a = 0x06C ∨ a = 0x07C ∨ (0x0A0 ≤ a ∧ a < 0x0C0)) :
    regAt a = none := by
  unfold regAt
  rw [registerMap_lookup_eq_none (by omega)]
  simp only
  rw [if_neg (by rw [inWindow_iff]; omega), if_neg (by rw [inWindow_iff]; omega)]

theorem regAt_no_memory {a b : Nat} : regAt a ≠ some (.rwByte b) ∧ regAt a ≠ some (.rwWord b) := by
  unfold regAt
  cases h : registerMap.lookup a with
  | some l =>
    obtain ⟨p, hp, rfl⟩ : ∃ p ∈ registerMap, p.2 = l := by
      obtain ⟨l₁, l₂, hl, -⟩ := List.lookup_eq_some_iff.mp h
      exact ⟨(a, l), by rw [hl]; simp, rfl⟩
    have := registerMap_no_memory p hp b
    simp [this.1, this.2]
  | none =>
    simp only
    split
    · simp
    · split <;> simp

/-- The offsets no rule maps, and misaligned accesses (20_memory.md R44). -/
theorem locAt_eq_none {off : BitVec 16}
    (h : (off.toNat < 0x400 ∧ (off.toNat % 4 ≠ 0 ∨ 0x100 ≤ off.toNat ∨ off.toNat = 0x06C ∨ off.toNat = 0x07C
        ∨ (0x0A0 ≤ off.toNat ∧ off.toNat < 0x0C0)))
      ∨ off.toNat = 0x4FF ∨ off.toNat = 0x5FF ∨ (0x6FF ≤ off.toNat ∧ off.toNat < 0x800)
      ∨ (0x90B ≤ off.toNat ∧ off.toNat < 0x1000) ∨ (0x1600 ≤ off.toNat ∧ off.toNat < 0x1800)
      ∨ 0x1C00 ≤ off.toNat ∨ (0x1000 ≤ off.toNat ∧ off.toNat % 4 ≠ 0)) : locAt off = none := by
  unfold locAt
  simp only
  rw [if_neg (by rw [Bool.or_eq_true, inWindow_pay, inWindow_tail]; omega), if_neg (by rw [inWindow_rxpay]; omega),
    if_neg (by rw [inWindow_txb]; omega)]
  split
  · rfl
  · rw [if_neg (by rw [Bool.or_eq_true, Bool.or_eq_true, inWindow_shm, inWindow_cmdtab, inWindow_eset]; omega)]
    exact regAt_eq_none (by omega)

theorem locAt_byteWindow {off : BitVec 16}
    (h : (0x400 ≤ off.toNat ∧ off.toNat < 0x4FF) ∨ (0x500 ≤ off.toNat ∧ off.toNat < 0x5FF)) :
    locAt off = some (.rwByte off.toNat) := by
  unfold locAt
  simp only
  rw [if_pos (by rw [Bool.or_eq_true, inWindow_pay, inWindow_tail]; omega)]

theorem locAt_rxpay {off : BitVec 16} (h : 0x600 ≤ off.toNat ∧ off.toNat < 0x6FF) :
    locAt off = some (.rxpay (off.toNat - rxpayBase)) := by
  unfold locAt
  simp only
  rw [if_neg (by rw [Bool.or_eq_true, inWindow_pay, inWindow_tail]; omega), if_pos (by rw [inWindow_rxpay]; omega)]

theorem locAt_txb {off : BitVec 16} (h : 0x800 ≤ off.toNat ∧ off.toNat < 0x90B) :
    locAt off = some (.txb (off.toNat - txbBase)) := by
  unfold locAt
  simp only
  rw [if_neg (by rw [Bool.or_eq_true, inWindow_pay, inWindow_tail]; omega), if_neg (by rw [inWindow_rxpay]; omega),
    if_pos (by rw [inWindow_txb]; omega)]

theorem locAt_wordWindow {off : BitVec 16} (h4 : off.toNat % 4 = 0)
    (h : (0x1000 ≤ off.toNat ∧ off.toNat < 0x1600) ∨ (0x1800 ≤ off.toNat ∧ off.toNat < 0x1C00)) :
    locAt off = some (.rwWord off.toNat) := by
  unfold locAt
  simp only
  rw [if_neg (by rw [Bool.or_eq_true, inWindow_pay, inWindow_tail]; omega), if_neg (by rw [inWindow_rxpay]; omega),
    if_neg (by rw [inWindow_txb]; omega), if_neg (by omega),
    if_pos (by rw [Bool.or_eq_true, Bool.or_eq_true, inWindow_shm, inWindow_cmdtab, inWindow_eset]; omega)]

/-- A byte location is a byte of PAY or TAIL. -/
theorem mapped_of_rwByte {off : BitVec 16} {a : Nat} (h : locAt off = some (.rwByte a)) :
    (0x400 ≤ a ∧ a < 0x4FF) ∨ (0x500 ≤ a ∧ a < 0x5FF) := by
  unfold locAt at h
  simp only at h
  split at h
  · rename_i hw
    cases h
    rw [Bool.or_eq_true, inWindow_pay, inWindow_tail] at hw
    exact hw
  · repeat' split at h
    all_goals first | exact absurd h regAt_no_memory.1 | cases h

/-- A word location lies in SHM, CMDTAB or ESET at a multiple of four. -/
theorem mapped_of_rwWord {off : BitVec 16} {a : Nat} (h : locAt off = some (.rwWord a)) :
    a % 4 = 0 ∧ ((0x1000 ≤ a ∧ a < 0x1600) ∨ (0x1800 ≤ a ∧ a < 0x1C00)) := by
  unfold locAt at h
  simp only at h
  split at h
  · cases h
  · repeat' split at h
    all_goals try (cases h; done)
    · rename_i h4 hw
      cases h
      rw [Bool.or_eq_true, Bool.or_eq_true, inWindow_shm, inWindow_cmdtab, inWindow_eset] at hw
      have : off.toNat % 4 = 0 := by simpa using h4
      omega
    · exact absurd h regAt_no_memory.2

end Sys2Proof.Machine
end

