-- ==== Sys2Proof/Laws/PerInstr.lean ====
section
/-! SUPPORT. Laws/PerInstr.lean: facts about every instruction as syntax, one lemma per constructor. -/

namespace Sys2Proof.Laws

/-- The most specific spelling of an instruction is its own most specific spelling, and it is well formed when the
instruction is (30_encoding.md R78, R79; log 5). -/
def SpelledAlike.Statement (i : Instr) : Prop :=
  i.canon.canon = i.canon ∧ i.canon.wellFormed = i.wellFormed

theorem SpelledAlike.noevent : SpelledAlike.Statement (.noevent) := ⟨rfl, rfl⟩

theorem SpelledAlike.rxbyte (b : Byte) : SpelledAlike.Statement (.rxbyte b) := ⟨rfl, rfl⟩

theorem SpelledAlike.tick : SpelledAlike.Statement (.tick) := ⟨rfl, rfl⟩

theorem SpelledAlike.rxbyteTick (b : Byte) : SpelledAlike.Statement (.rxbyteTick b) := ⟨rfl, rfl⟩

theorem SpelledAlike.nop : SpelledAlike.Statement (.nop) := ⟨rfl, rfl⟩

theorem SpelledAlike.pack (code : BitVec 16) : SpelledAlike.Statement (.pack code) := ⟨rfl, rfl⟩

theorem SpelledAlike.unpack : SpelledAlike.Statement (.unpack) := ⟨rfl, rfl⟩

theorem SpelledAlike.encode : SpelledAlike.Statement (.encode) := ⟨rfl, rfl⟩

theorem SpelledAlike.send : SpelledAlike.Statement (.send) := ⟨rfl, rfl⟩

theorem SpelledAlike.rxpop : SpelledAlike.Statement (.rxpop) := ⟨rfl, rfl⟩

theorem SpelledAlike.rxen : SpelledAlike.Statement (.rxen) := ⟨rfl, rfl⟩

theorem SpelledAlike.rxdis : SpelledAlike.Statement (.rxdis) := ⟨rfl, rfl⟩

theorem SpelledAlike.clrx : SpelledAlike.Statement (.clrx) := ⟨rfl, rfl⟩

theorem SpelledAlike.softreset : SpelledAlike.Statement (.softreset) := ⟨rfl, rfl⟩

theorem SpelledAlike.reservedCmd (op : Byte) (arg : BitVec 16)
    : SpelledAlike.Statement (.reservedCmd op arg) := ⟨rfl, rfl⟩

theorem SpelledAlike.endShape : SpelledAlike.Statement (.endShape) := ⟨rfl, rfl⟩

theorem SpelledAlike.enum8 (xr : XIndex) (set : BitVec 5) : SpelledAlike.Statement (.enum8 xr set) := ⟨rfl, rfl⟩

theorem SpelledAlike.twos8 (xr : XIndex) (n : BitVec 5) : SpelledAlike.Statement (.twos8 xr n) := by
  unfold SpelledAlike.Statement
  by_cases h : n = 8
  · rw [show (Instr.twos8 xr n).canon = .s8 xr from if_pos h]
    exact ⟨rfl, rfl⟩
  · have e : (Instr.twos8 xr n).canon = .twos8 xr n := if_neg h
    rw [e, e]
    exact ⟨rfl, rfl⟩

theorem SpelledAlike.twos16be (xr : XIndex) (n : BitVec 5) : SpelledAlike.Statement (.twos16be xr n) := by
  unfold SpelledAlike.Statement
  by_cases h : n = 16
  · rw [show (Instr.twos16be xr n).canon = .s16be xr from if_pos h]
    exact ⟨rfl, rfl⟩
  · have e : (Instr.twos16be xr n).canon = .twos16be xr n := if_neg h
    rw [e, e]
    exact ⟨rfl, rfl⟩

theorem SpelledAlike.twos16le (xr : XIndex) (n : BitVec 5) : SpelledAlike.Statement (.twos16le xr n) := by
  unfold SpelledAlike.Statement
  by_cases h : n = 16
  · rw [show (Instr.twos16le xr n).canon = .s16le xr from if_pos h]
    exact ⟨rfl, rfl⟩
  · have e : (Instr.twos16le xr n).canon = .twos16le xr n := if_neg h
    rw [e, e]
    exact ⟨rfl, rfl⟩

theorem SpelledAlike.twos (xr : XIndex) (w16 : Bool) (le : Bool) (n : BitVec 5)
    : SpelledAlike.Statement (.twos xr w16 le n) := by
  cases w16
  · exact SpelledAlike.twos8 xr n
  · cases le
    · exact SpelledAlike.twos16be xr n
    · exact SpelledAlike.twos16le xr n

theorem SpelledAlike.fixp (xr : XIndex) (w16 : Bool) (le : Bool) (sgn : Bool) (s : BitVec 16)
    : SpelledAlike.Statement (.fixp xr w16 le sgn s) := by
  cases w16
  · exact ⟨rfl, rfl⟩
  · cases le <;> exact ⟨rfl, rfl⟩

theorem SpelledAlike.fixp8 (xr : XIndex) (sgn : Bool) (s : BitVec 16)
    : SpelledAlike.Statement (.fixp8 xr sgn s) := ⟨rfl, rfl⟩

theorem SpelledAlike.fixp16be (xr : XIndex) (sgn : Bool) (s : BitVec 16)
    : SpelledAlike.Statement (.fixp16be xr sgn s) := ⟨rfl, rfl⟩

theorem SpelledAlike.fixp16le (xr : XIndex) (sgn : Bool) (s : BitVec 16)
    : SpelledAlike.Statement (.fixp16le xr sgn s) := ⟨rfl, rfl⟩

theorem SpelledAlike.bitf (xr : XIndex) (adv : Bool) (wid : BitVec 4) (pos : BitVec 3)
    : SpelledAlike.Statement (.bitf xr adv wid pos) := by
  unfold SpelledAlike.Statement
  by_cases h : wid = 8 ∧ pos = 0 ∧ adv = true
  · rw [show (Instr.bitf xr adv wid pos).canon = .u8 xr from if_pos h]
    exact ⟨rfl, rfl⟩
  · by_cases h1 : wid = 1
    · rw [show (Instr.bitf xr adv wid pos).canon = .bit xr adv pos from (if_neg h).trans (if_pos h1)]
      exact ⟨rfl, rfl⟩
    · have e : (Instr.bitf xr adv wid pos).canon = .bitf xr adv wid pos := (if_neg h).trans (if_neg h1)
      rw [e, e]
      exact ⟨rfl, rfl⟩

theorem SpelledAlike.tail : SpelledAlike.Statement (.tail) := ⟨rfl, rfl⟩

theorem SpelledAlike.rtimer (xr : XIndex) (xr2 : XIndex) : SpelledAlike.Statement (.rtimer xr xr2) := ⟨rfl, rfl⟩

theorem SpelledAlike.reservedKind (kind xr xr2 : BitVec 4) (w16 le sgn adv : Bool) (param : BitVec 16)
    : SpelledAlike.Statement (.reservedKind kind xr xr2 w16 le sgn adv param) := ⟨rfl, rfl⟩

theorem SpelledAlike.u8 (xr : XIndex) : SpelledAlike.Statement (.u8 xr) := ⟨rfl, rfl⟩

theorem SpelledAlike.bit (xr : XIndex) (adv : Bool) (pos : BitVec 3)
    : SpelledAlike.Statement (.bit xr adv pos) := ⟨rfl, rfl⟩

theorem SpelledAlike.s8 (xr : XIndex) : SpelledAlike.Statement (.s8 xr) := ⟨rfl, rfl⟩

theorem SpelledAlike.s16be (xr : XIndex) : SpelledAlike.Statement (.s16be xr) := ⟨rfl, rfl⟩

theorem SpelledAlike.s16le (xr : XIndex) : SpelledAlike.Statement (.s16le xr) := ⟨rfl, rfl⟩

theorem SpelledAlike.decode : SpelledAlike.Statement (.decode) := ⟨rfl, rfl⟩

theorem SpelledAlike.txbyte : SpelledAlike.Statement (.txbyte) := ⟨rfl, rfl⟩

theorem SpelledAlike.flush : SpelledAlike.Statement (.flush) := ⟨rfl, rfl⟩

theorem SpelledAlike.csum (bytes : List Byte) : SpelledAlike.Statement (.csum bytes) := ⟨rfl, rfl⟩

theorem SpelledAlike.cmdtabEntry (start : Byte) (code : BitVec 16)
    : SpelledAlike.Statement (.cmdtabEntry start code) := ⟨rfl, rfl⟩

end Sys2Proof.Laws
end

