-- ==== Sys2Proof/Tests/Slice0.lean ====
section
/-! SUPPORT. Tests/Slice0.lean: smoke tests of WellFormed, the words of the spec's encoding decoded, one step of
each instruction on values of spec/95_test_vectors.md, and for every statement with hypotheses a state that meets
them. -/

namespace Sys2Proof.Tests
open Sys2Proof.Machine

-- One theorem at a time: many at once, each waiting for the kernel, take a thread and its stack each.
set_option Elab.async false

/-! ## WellFormed -/

theorem test_wf_refuses_reserved_command_with_defined_opcode :
    (Instr.reservedCmd 0x09 0).wellFormed = false ∧ (Instr.reservedCmd 0x0A 0).wellFormed = true := by decide

theorem test_wf_refuses_reserved_kind_with_defined_kind :
    (Instr.reservedKind 6 0 0 false false false false 0).wellFormed = false
    ∧ (Instr.reservedKind 7 0 0 false false false false 0).wellFormed = true := by decide

/-! ## Decoding: words written out from 30_encoding.md R68 to R80 -/

theorem test_decode_line :
    decode (.line 0b0000000000) = .ok .noevent ∧ decode (.line 0b0011111111) = .ok .noevent
    ∧ decode (.line 0b0110100101) = .ok (.rxbyte 0xA5) ∧ decode (.line 0b1000000001) = .ok .tick
    ∧ decode (.line 0b1100100010) = .ok (.rxbyteTick 0x22) := by decide

/-- Bits 23 to 16 of a command word are ignored (R69). -/
theorem test_decode_commands :
    decode (.cmd 0x00FF1234) = .ok .nop ∧ decode (.cmd 0x0134017C) = .ok (.pack 0x017C)
    ∧ decode (.cmd 0x02000000) = .ok .unpack ∧ decode (.cmd 0x03000001) = .ok .encode
    ∧ decode (.cmd 0x04000000) = .ok .send ∧ decode (.cmd 0x05000000) = .ok .rxpop
    ∧ decode (.cmd 0x06000000) = .ok .rxen ∧ decode (.cmd 0x07000000) = .ok .rxdis
    ∧ decode (.cmd 0x08000000) = .ok .clrx ∧ decode (.cmd 0x09FFFFFF) = .ok .softreset
    ∧ decode (.cmd 0x0A000000) = .ok (.reservedCmd 0x0A 0)
    ∧ decode (.cmd 0xFF001234) = .ok (.reservedCmd 0xFF 0x1234) := by decide

theorem test_decode_end_enum_tail_rtimer :
    decode (.desc 0x00000000) = .ok .endShape ∧ decode (.desc 0x0FFFFFFF) = .ok .endShape
    ∧ decode (.desc 0x11000003) = .ok (.enum8 1 3) ∧ decode (.desc 0x1F00FFFF) = .ok (.enum8 15 31)
    ∧ decode (.desc 0x50000000) = .ok .tail ∧ decode (.desc 0x60100000) = .ok (.rtimer 0 1)
    ∧ decode (.desc 0x63300000) = .ok (.rtimer 3 3) := by decide

theorem test_decode_twos :
    decode (.desc 0x21000004) = .ok (.twos8 1 4) ∧ decode (.desc 0x21000008) = .ok (.s8 1)
    ∧ decode (.desc 0x2208000C) = .ok (.twos16be 2 12) ∧ decode (.desc 0x220C000C) = .ok (.twos16le 2 12)
    ∧ decode (.desc 0x22080010) = .ok (.s16be 2) ∧ decode (.desc 0x220C0010) = .ok (.s16le 2) := by decide

theorem test_decode_fixp :
    decode (.desc 0x30000002) = .ok (.fixp8 0 false 2) ∧ decode (.desc 0x30020002) = .ok (.fixp8 0 true 2)
    ∧ decode (.desc 0x31080004) = .ok (.fixp16be 1 false 4) ∧ decode (.desc 0x300A0001) = .ok (.fixp16be 0 true 1)
    ∧ decode (.desc 0x300C0800) = .ok (.fixp16le 0 false 2048) := by decide

theorem test_decode_bitf :
    decode (.desc 0x41000021) = .ok (.bitf 1 false 2 1) ∧ decode (.desc 0x40010080) = .ok (.u8 0)
    ∧ decode (.desc 0x40000010) = .ok (.bit 0 false 0) ∧ decode (.desc 0x42010017) = .ok (.bit 2 true 7) := by decide

/-- The rows TWOS and FIXP name the words of their 8-bit and 16-bit spellings (R78, R79). -/
theorem test_generic_rows_share_the_words_of_their_spellings :
    encode (.twos 2 true false 12) = some (.desc 0x2208000C)
    ∧ (Instr.twos 2 true false 12).canon = .twos16be 2 12
    ∧ encode (.fixp 0 true true false 2048) = some (.desc 0x300C0800)
    ∧ (Instr.fixp 0 true true false 2048).canon = .fixp16le 0 false 2048 := by decide

theorem test_decode_reserved_kinds :
    decode (.desc 0x70000000) = .ok (.reservedKind 7 0 0 false false false false 0)
    ∧ decode (.desc 0xF12F8001) = .ok (.reservedKind 15 1 2 true true true true 0x8001) := by decide

theorem test_decode_catalogue_entries :
    decode (.entry 0x80000001) = .ok (.cmdtabEntry 0 0x0001) ∧ decode (.entry 0x8002007E) = .ok (.cmdtabEntry 2 0x007E)
    ∧ decode (.entry 0x0002007E) = .error .entryNotValid := by decide

theorem test_table_words :
    decodeTableWord 16 0x1A5 = some (.rxbyte 0xA5) ∧ decodeTableWord 16 0x200 = some .tick
    ∧ decodeTableWord 32 0x0100017C = some (.pack 0x017C) ∧ decodeTableWord 32 0x0A000000 = some (.reservedCmd 0x0A 0)
    ∧ decodeTableWord 32 0x40010080 = some (.u8 0) ∧ decodeTableWord 32 0x8002007E = some (.cmdtabEntry 2 0x007E)
    ∧ decodeTableWord 0 0 = none := by decide +kernel

/-! ## States to start from -/

/-- A field of the state an operation leaves; none when it stops. -/
def after {α : Type} (o : Host.Outcome State Fault Refusal) (f : State → α) : Option α :=
  match o with
  | .next t => some (f t)
  | .fault _ => none
  | .refused _ => none

/-- The receiver on, with T_CHAR = 3 and T_PKT = 10 as in VD1 to VD13. -/
def listening (acc : List Byte) (ict : BitVec 16) (fq : List Candidate) : State :=
  { State.reset with
    fd := { rxEn := true, ict := ict, acc := acc, accOvf := false }
    fq := fq
    cfg := { State.reset.cfg with tChar := 3, tPkt := 10, tTxIdle := 12 } }

/-- One queued candidate of one byte. -/
def oneByte : Candidate := { bytes := [0x55], ovf := false }

/-- Frame F1 of 95_test_vectors.md. -/
def frameF1 : List Byte := [0x02, 0x01, 0, 0, 0, 0, 0x01, 0x03, 0, 0x02, 0x01, 0x48, 0x85, 0x82]

/-- Frame F3 of 95_test_vectors.md. -/
def frameF3 : List Byte := [0x10, 0x20, 0x01, 0, 0, 0, 0, 0x81, 0xFF, 0, 0x56, 0xB3]

/-- A candidate with these bytes at the head of the queue, message type 3 registered. -/
def received (bytes : List Byte) : State :=
  { State.reset with
    fq := [{ bytes := bytes, ovf := false }]
    cfg := { State.reset.cfg with mtReg := 8 } }

/-- Pack direction, cursor `cur`, descriptor 0, with these registers written. -/
def packing (cur : Byte) (xs : List (XIndex × Word)) : State :=
  setxs xs { State.reset with cpp := { State.reset.cpp with pkDir := .pack, cur := cur } }

/-- Unpack direction, cursor `cur`, descriptor 0, with this payload in the packet slot. -/
def unpacking (cur : Byte) (payload : List Byte) : State :=
  store rxpayBase payload { State.reset with
    dec := { rxpValid := true, rxp := { Packet.zero with plen := BitVec.ofNat 8 payload.length } }
    cpp := { State.reset.cpp with pkDir := .unpack, cur := cur } }

/-- A packet with this payload in the slot, before UNPACK, with two-byte command codes. -/
def unpackingWide (payload : List Byte) : State :=
  store rxpayBase payload { State.reset with
    dec := { rxpValid := true, rxp := { Packet.zero with plen := BitVec.ofNat 8 payload.length } }
    cfg := { State.reset.cfg with cc16 := true } }

/-- ESET set 0 holds 0, 1 and 2, as in VP55 to VP59. -/
def withSet (s : State) : State := store esetBase (wordBytes 7 ++ List.replicate 28 0) s

/-- The shape `w; END` at descriptor 0 with the entry code 0x0050, as in 95_test_vectors.md 2.4. -/
def withShape (w : Word) (s : State) : State :=
  store cmdtabBase (wordBytes 0x80000050) (store shmBase (wordBytes w ++ wordBytes 0) s)

/-- Frame F3 in TXB, being sent or not, at byte `idx`, the guard at `txg`. -/
def loaded (busy : Bool) (idx : BitVec 9) (txg : BitVec 16) : State :=
  store txbBase frameF3 { State.reset with
    tx := { hdr := Header.zero, txLen := 12, encValid := true, txBusy := busy, txIdx := idx, txg := txg }
    cfg := { State.reset.cfg with tTxIdle := 12 } }

/-- The header of F1 staged, with these payload bytes. -/
def staged (payload : List Byte) : State :=
  store payBase payload { State.reset with
    tx := { State.reset.tx with hdr := { Header.zero with dst := 0x02, src := 0x01, srcNodeType := 0x01, msgType := 0x03 } }
    cpp := { State.reset.cpp with plen := BitVec.ofNat 8 payload.length, payOk := true } }

/-- Bytes read in the state an operation leaves, and the cursor there. -/
def packed (o : Host.Outcome State Fault Refusal) (n : Nat) : Option (List Byte × Byte) :=
  after o (fun t => (bytesAt t (payBase + 1) n, t.cpp.cur))

/-- A register in the state an operation leaves, and the cursor there. -/
def unpacked (o : Host.Outcome State Fault Refusal) (xr : XIndex) : Option (Option Word × Byte) :=
  after o (fun t => (getx t xr, t.cpp.cur))

/-- OPERR's code, index and cursor in the state an operation leaves. -/
def operr (o : Host.Outcome State Fault Refusal) : Option OpErr := after o (·.op)

/-! ## One step of each instruction -/

/-- VD4: nothing accumulated, nothing changes. -/
theorem test_noevent_and_nop_change_nothing :
    after (exec .noevent State.reset) (·.fd) = some State.reset.fd
    ∧ after (exec .nop State.reset) (·.op) = some State.reset.op := by decide +kernel

/-- VD2: a byte after 2 ticks is appended. -/
theorem test_rxbyte_appends :
    after (exec (.rxbyte 0x22) (listening [0x11] 2 [])) (fun t => (t.fd.acc, t.fd.ict)) = some ([0x11, 0x22], 0) := by
  decide +kernel

/-- VD2: a byte after 3 ticks closes the old accumulation. -/
theorem test_rxbyte_late :
    after (exec (.rxbyte 0x33) (listening [0x11, 0x22] 3 [])) (fun t => (t.fd.acc, t.fq))
      = some ([0x33], [{ bytes := [0x11, 0x22], ovf := false }]) := by decide +kernel

/-- VD1: the tenth tick does not flush. -/
theorem test_tick_ten : after (exec .tick (listening [0xA1] 9 [])) (fun t => (t.fd.ict, t.fq)) = some (10, []) := by
  decide +kernel

/-- VD1: the eleventh tick flushes. -/
theorem test_tick_eleven :
    after (exec .tick (listening [0xA1] 10 [])) (fun t => (t.fd.acc, t.fq))
      = some ([], [{ bytes := [0xA1], ovf := false }]) := by decide +kernel

/-- VD3: the byte comes before the tick. -/
theorem test_rxbyteTick :
    after (exec (.rxbyteTick 0x22) (listening [0x11] 2 [])) (fun t => (t.fd.acc, t.fd.ict)) = some ([0x11, 0x22], 1) := by
  decide +kernel

/-- VD7: the fifth candidate is dropped, IRQ_PEND = 0x08. -/
theorem test_flush_drops_when_full :
    after (exec .flush (listening [0x04] 11 (List.replicate 4 oneByte))) (fun t => (t.fq.length, t.log.cntDrop, t.irq.irqPend))
      = some (4, 1, 0x08) := by decide +kernel

/-- VC11 and VC12: order matters. -/
theorem test_csum_order :
    after (exec (.csum [0x02, 0x01]) State.reset) (·.env.csumOut) = some (0x08, 0xB5)
    ∧ after (exec (.csum [0x01, 0x02]) State.reset) (·.env.csumOut) = some (0x07, 0xB4) := by decide +kernel

/-- VC15: header and payload of F1. -/
theorem test_csum_f1 :
    after (exec (.csum (frameF1.take 12)) State.reset) (·.env.csumOut) = some (0x85, 0x82) := by decide +kernel

/-- VF1. -/
theorem test_encode_f1 :
    after (exec .encode (staged [0x01, 0x48])) (fun t => (bytesAt t txbBase 14, t.tx.txLen, t.tx.encValid))
      = some (frameF1, 14, true) := by decide +kernel

/-- P6, step 1: ENCODE with nothing staged is refused. -/
theorem test_encode_refused : operr (exec .encode State.reset) = some ⟨0x30, 0, 0⟩ := by decide +kernel

/-- VF6. -/
theorem test_decode_f1 :
    after (exec .decode (received frameF1)) (fun t => (t.dec.rxp, bytesAt t rxpayBase 2))
      = some (⟨0x02, 0x01, 0, 0, 0, 0, 0x01, 0x03, false, 0, 2, true⟩, [0x01, 0x48]) := by decide +kernel

/-- VF14: check1 wrong. -/
theorem test_decode_checksum_error :
    after (exec .decode (received (frameF1.take 12 ++ [0x86, 0x82]))) (fun t => (t.log.rxerrCode, t.log.rxerrLen, t.irq.irqPend))
      = some (0x03, 14, 0x02) := by decide +kernel

/-- P1, step 22: RXPOP frees the slot. -/
theorem test_rxpop : after (exec .rxpop (unpacking 0 [0x50])) (·.dec.rxpValid) = some false := by decide +kernel

/-- P6, steps 12 and 13: SEND waits for the guard. -/
theorem test_send :
    operr (exec .send (loaded false 12 1)) = some ⟨0x30, 0, 0⟩
    ∧ after (exec .send (loaded false 12 0)) (fun t => (t.tx.txBusy, t.tx.txIdx)) = some (true, 0) := by decide +kernel

theorem test_txbyte_first :
    after (exec .txbyte (loaded true 0 0)) (fun t => (t.env.txOut, t.tx.txIdx, t.tx.txBusy)) = some ([0x10], 1, true) := by
  decide +kernel

/-- P1, step 17: after the last byte the guard holds T_TXIDLE and TXDONE is pending. -/
theorem test_txbyte_last :
    after (exec .txbyte (loaded true 11 0)) (fun t => (t.env.txOut, t.tx.txBusy, t.tx.txg, t.irq.irqPend))
      = some ([0xB3], false, 12, 0x10) := by decide +kernel

/-- VD12: RXEN while on does nothing. -/
theorem test_rxen :
    after (exec .rxen State.reset) (·.fd.rxEn) = some true
    ∧ after (exec .rxen (listening [0x01] 2 [])) (fun t => (t.fd.acc, t.fd.ict)) = some ([0x01], 2) := by decide +kernel

/-- VD9: a clean stop flushes. -/
theorem test_rxdis :
    after (exec .rxdis (listening [0x01, 0x02] 0 [])) (fun t => (t.fq, t.fd.rxEn, t.fd.acc))
      = some ([{ bytes := [0x01, 0x02], ovf := false }], false, []) := by decide +kernel

theorem test_clrx : after (exec .clrx (packing 1 [(0, 72)])) (fun t => getx t 0) = some none := by decide +kernel

/-- VH8: the configuration stays, the transmit state goes. -/
theorem test_softreset :
    after (exec .softreset (loaded true 2 0)) (fun t => (t.tx.txBusy, t.tx.encValid, t.cfg.tTxIdle))
      = some (false, false, 12) := by decide +kernel

/-- VH3. -/
theorem test_reserved_command :
    after (exec (.reservedCmd 0xFF 0x1234) State.reset) (fun t => (t.op, t.irq.irqPend)) = some (⟨0x31, 0, 0⟩, 0x20) := by
  decide +kernel

theorem test_end :
    after (exec .endShape (packing 2 [])) (fun t => (t.cpp.plen, t.cpp.payOk, t.cpp.pkState, t.cpp.pc))
      = some (2, true, .done, 0) := by decide +kernel

/-- VP55 and VP56. -/
theorem test_enum8_pack :
    packed (exec (.enum8 1 0) (withSet (packing 1 [(1, 2)]))) 1 = some ([0x02], 2)
    ∧ operr (exec (.enum8 1 0) (withSet (packing 1 [(1, 3)]))) = some ⟨0x10, 0, 1⟩ := by decide +kernel

/-- VP58 and VP59. -/
theorem test_enum8_unpack :
    unpacked (exec (.enum8 1 0) (withSet (unpacking 1 [0x50, 0x02]))) 1 = some (some 2, 2)
    ∧ operr (exec (.enum8 1 0) (withSet (unpacking 1 [0x50, 0x07]))) = some ⟨0x22, 0, 1⟩ := by decide +kernel

/-- VP14 and VP12. -/
theorem test_twos :
    packed (exec (.twos 2 true false 12) (packing 1 [(2, 0xFFFFF800)])) 2 = some ([0x08, 0x00], 3)
    ∧ operr (exec (.twos 2 true false 16) (packing 1 [(2, 32768)])) = some ⟨0x11, 0, 1⟩ := by decide +kernel

/-- VP5 and VP7. -/
theorem test_twos8 :
    packed (exec (.twos8 1 4) (packing 1 [(1, 0xFFFFFFFF)])) 1 = some ([0x0F], 2)
    ∧ unpacked (exec (.twos8 1 4) (unpacking 1 [0x50, 0xF8])) 1 = some (some 0xFFFFFFF8, 2) := by decide +kernel

/-- VP14 and VP16. -/
theorem test_twos16be :
    packed (exec (.twos16be 2 12) (packing 1 [(2, 0xFFFFF800)])) 2 = some ([0x08, 0x00], 3)
    ∧ operr (exec (.twos16be 2 16) (unpacking 1 [0x50, 0xFE])) = some ⟨0x21, 0, 1⟩ := by decide +kernel

/-- VP11 and VP15, as the row TWOS16LE. -/
theorem test_twos16le :
    packed (exec (.twos16le 2 16) (packing 1 [(2, 0xFFFFFFFE)])) 2 = some ([0xFE, 0xFF], 3)
    ∧ unpacked (exec (.twos16le 2 16) (unpacking 1 [0x50, 0xFE, 0xFF])) 2 = some (some 0xFFFFFFFE, 3) := by decide +kernel

/-- VP1 and VP4. -/
theorem test_s8 :
    packed (exec (.s8 1) (packing 1 [(1, 0xFFFFFFFD)])) 1 = some ([0xFD], 2)
    ∧ unpacked (exec (.s8 1) (unpacking 1 [0x50, 0x80])) 1 = some (some 0xFFFFFF80, 2) := by decide +kernel

/-- VP10 and VP15. -/
theorem test_s16be :
    packed (exec (.s16be 2) (packing 1 [(2, 0xFFFFFFFE)])) 2 = some ([0xFF, 0xFE], 3)
    ∧ unpacked (exec (.s16be 2) (unpacking 1 [0x50, 0xFE, 0xFF])) 2 = some (some 0xFFFFFEFF, 3) := by decide +kernel

/-- VP13 and VP15. -/
theorem test_s16le :
    packed (exec (.s16le 2) (packing 1 [(2, 32767)])) 2 = some ([0xFF, 0x7F], 3)
    ∧ unpacked (exec (.s16le 2) (unpacking 1 [0x50, 0xFE, 0xFF])) 2 = some (some 0xFFFFFFFE, 3) := by decide +kernel

/-- VP31 and VP36. -/
theorem test_fixp :
    packed (exec (.fixp 0 true false false 1) (packing 1 [(0, 0xFFFF0000)])) 2 = some ([0xFF, 0xFF], 3)
    ∧ unpacked (exec (.fixp 0 true false true 1) (unpacking 1 [0x50, 0x80, 0x00])) 0 = some (some 0x80000000, 3) := by
  decide +kernel

/-- VP28 and VP37. -/
theorem test_fixp8 :
    packed (exec (.fixp8 0 true 2) (packing 1 [(0, 0xFFFEC000)])) 1 = some ([0xFD], 2)
    ∧ unpacked (exec (.fixp8 0 false 3) (unpacking 1 [0x50, 0x02])) 0 = some (some 0x0000AAAB, 2) := by decide +kernel

/-- VP22 and VP34. -/
theorem test_fixp16be :
    packed (exec (.fixp16be 1 false 4) (packing 1 [(1, 0x03E84000)])) 2 = some ([0x0F, 0xA1], 3)
    ∧ unpacked (exec (.fixp16be 1 false 4) (unpacking 1 [0x50, 0x0F, 0xA1])) 1 = some (some 0x03E84000, 3) := by
  decide +kernel

/-- VP21 and VP33. -/
theorem test_fixp16le :
    packed (exec (.fixp16le 0 false 2048) (packing 1 [(0, 0x00018000)])) 2 = some ([0x00, 0x0C], 3)
    ∧ unpacked (exec (.fixp16le 0 false 2048) (unpacking 1 [0x50, 0x00, 0x0C])) 0 = some (some 0x00018000, 3) := by
  decide +kernel

/-- VP60, second descriptor: bits 1 and 2 of a byte whose bit 0 is 1, the cursor stays. -/
theorem test_bitf :
    packed (exec (.bitf 1 false 2 1) (store payBase [0x50, 0x01] (packing 1 [(1, 2)]))) 1 = some ([0x05], 1)
    ∧ unpacked (exec (.bitf 1 false 2 1) (unpacking 1 [0x50, 0x7A])) 1 = some (some 1, 1) := by decide +kernel

/-- VP66. -/
theorem test_u8 :
    packed (exec (.u8 0) (store payBase [0x50, 0x00] (packing 1 [(0, 255)]))) 1 = some ([0xFF], 2)
    ∧ operr (exec (.u8 0) (store payBase [0x50, 0x00] (packing 1 [(0, 256)]))) = some ⟨0x11, 0, 1⟩ := by decide +kernel

/-- VP60, third descriptor. -/
theorem test_bit :
    packed (exec (.bit 2 true 7) (store payBase [0x50, 0x05] (packing 1 [(2, 1)]))) 1 = some ([0x85], 2)
    ∧ unpacked (exec (.bit 2 true 7) (unpacking 1 [0x50, 0x85])) 2 = some (some 1, 2) := by decide +kernel

/-- VP74. -/
theorem test_tail_unpack :
    after (exec .tail (unpacking 2 [0x50, 0xA5, 0x48, 0x49])) (fun t => (bytesAt t tailBase 2, t.cpp.tailLen, t.cpp.cur))
      = some ([0x48, 0x49], 2, 4) := by decide +kernel

/-- VP70. -/
theorem test_tail_pack :
    after (exec .tail (store tailBase [0x48, 0x49] { packing 2 [] with cpp := { (packing 2 []).cpp with tailLen := 2 } }))
      (fun t => (bytesAt t (payBase + 2) 2, t.cpp.cur)) = some ([0x48, 0x49], 4) := by decide +kernel

/-- VP40 and VP44. -/
theorem test_rtimer_pack :
    packed (exec (.rtimer 0 1) (packing 1 [(0, 1), (1, 0x00078000)])) 1 = some ([0x12], 2)
    ∧ packed (exec (.rtimer 0 1) (packing 1 [(0, 20), (1, 0x00050000)])) 1 = some ([0xF1], 2) := by decide +kernel

/-- VP42 and VP52. -/
theorem test_rtimer_unpack :
    unpacked (exec (.rtimer 0 1) (unpacking 1 [0x50, 0x12])) 0 = some (some 1, 2)
    ∧ unpacked (exec (.rtimer 3 3) (unpacking 1 [0x50, 0x12])) 3 = some (some 0x00078000, 2) := by decide +kernel

/-- VP85. -/
theorem test_reserved_kind :
    operr (exec (.reservedKind 7 0 0 false false false false 0) (packing 1 [])) = some ⟨0x20, 0, 1⟩ := by decide +kernel

/-- VP80, with the code 0x50. -/
theorem test_pack :
    after (exec (.pack 0x0050) (withShape 0x40010080 (packing 0 [(0, 72)])))
      (fun t => (bytesAt t payBase 2, t.cpp.plen, t.cpp.pkState, t.cpp.pc)) = some ([0x50, 0x48], 2, .done, 1) := by
  decide +kernel

/-- VP90: the operand of the second descriptor is not written. -/
theorem test_pack_faults_at_the_descriptor :
    operr (exec (.pack 0x0050) (withShape 0x41010080 (packing 0 [(0, 1)]))) = some ⟨0x12, 0, 1⟩ := by decide +kernel

/-- VP91, with the code 0x50. -/
theorem test_unpack :
    after (exec .unpack (withShape 0x40010080 (unpacking 0 [0x50, 0x48])))
      (fun t => (getx t 0, t.cpp.cmdCode, t.cpp.pkState)) = some (some 0x48, 0x0050, .done) := by decide +kernel

/-- VP97: UNPACK with no packet is refused. -/
theorem test_unpack_refused : operr (exec .unpack State.reset) = some ⟨0x30, 0, 0⟩ := by decide +kernel

/-- VP80: the entry is where PACK enters. -/
theorem test_cmdtab_entry :
    after (exec (.cmdtabEntry 2 0x0050) { packing 1 [] with cpp := { (packing 1 []).cpp with cmdCode := 0x0050 } })
      (·.cpp.pc) = some 2 := by decide +kernel

/-- VH5: writing IRQ_PEND clears the bits written 1. -/
theorem test_write_irq_pend :
    after (step { State.reset with
      irq := { irqPend := 0x31, irqEn := 0 }
      env := { State.reset.env with pending := [.hostWrite 0x008 0x11] } }) (·.irq.irqPend) = some 0x20 := by
  decide +kernel

/-- VF6: RXH2. -/
theorem test_read_rxh2 :
    after (step { unpacking 0 [0x01, 0x48] with
      dec := { rxpValid := true, rxp := { Packet.zero with plen := 2, known := true } }
      env := { State.reset.env with pending := [.hostRead 0x078] } }) (·.env.rdata) = some 0x00010200 := by
  decide +kernel

/-- R240: what hard reset leaves. -/
theorem test_hard_reset :
    after (step { loaded true 2 0 with env := { State.reset.env with pending := [.rst] } })
      (fun t => (t.tx.txBusy, t.cfg.tTxIdle, t.fd.rxEn)) = some (false, 0, false) := by decide +kernel

/-- A placed descriptor is the shape the next step runs: a lone TAIL after the code. -/
theorem test_placed_word_runs :
    after (step (State.reset.withFetchWord 32 0x50000000)) (fun t => (t.cpp.pkState, t.cpp.plen, t.cpp.pc))
      = some (.done, 1, 1) := by decide +kernel

/-! ## For every statement with hypotheses, states that meet them -/

/-- The state with these events pending. -/
def facing (es : List Event) (s : State) : State := { s with env := { s.env with pending := es } }

/-- DecodeInvertsEncode: the ends of the two reserved ranges, and a spelling that is canonical and one that is
not. -/
theorem witness_DecodeInvertsEncode :
    (Instr.reservedCmd 0x0A 0xFFFF).wellFormed = true ∧ encode (.reservedCmd 0x0A 0xFFFF) = some (.cmd 0x0A00FFFF)
    ∧ (Instr.reservedKind 7 15 0 true true true true 0).wellFormed = true
    ∧ encode (.reservedKind 7 15 0 true true true true 0) = some (.desc 0x7F0F0000)
    ∧ (Instr.bit 15 true 7).wellFormed = true ∧ encode (.bit 15 true 7) = some (.desc 0x4F010017)
    ∧ (Instr.bit 15 true 7).canonical = true ∧ (Instr.twos 0 false true 8).canonical = false
    ∧ encode (.twos 0 false true 8) = some (.desc 0x20040008) := by decide

theorem witness_StepRunsTheDecodedInstruction :
    (facing [.sample 0x1A5] State.reset).env.pending = .sample 0x1A5 :: [] ∧ decode (.line 0x1A5) = .ok (.rxbyte 0xA5)
    ∧ (facing [.hostWrite 0x040 0x06000000] State.reset).env.pending = .hostWrite 0x040 0x06000000 :: []
    ∧ decode (.cmd 0x06000000) = .ok .rxen
    ∧ (facing [.decTurn] State.reset).env.pending = .decTurn :: []
    ∧ (facing [.txReady] State.reset).env.pending = .txReady :: []
    ∧ (received frameF1).env.pending = [] ∧ (received frameF1).fq ≠ [] ∧ (received frameF1).dec.rxpValid = false
    ∧ State.reset.env.pending = [] ∧ State.reset.fq = [] := by decide +kernel

theorem witness_RunExecutesTheFetchedDescriptor :
    decode (.desc (shmWord (withShape 0x50000000 (packing 1 [])) 0)) = .ok .tail
    ∧ after (exec .tail (withShape 0x50000000 (packing 1 []))) (·.cpp.pkState) = some .idle
    ∧ decode (.desc (shmWord (withShape 0 (packing 1 [])) 0)) = .ok .endShape
    ∧ after (exec .endShape (withShape 0 (packing 1 []))) (·.cpp.pkState) = some .done := by decide +kernel

/-- A frame half sent meets the invariant, and its next step sends a byte. -/
theorem witness_EveryStepKeepsTheInvariant :
    MachineInv (facing [.txReady] (loaded true 2 0))
    ∧ after (step (facing [.txReady] (loaded true 2 0))) (·.tx.txIdx) = some 3 := by
  unfold MachineInv MemInv RxInv TxInv FrameInTxb CodeInv Candidate.ok
  decide +kernel

theorem witness_HardResetLeavesTheResetValues :
    (facing [.rst, .txReady] (loaded true 2 0)).env.pending = .rst :: [.txReady] := by decide

theorem witness_FlushClosesTheAccumulation :
    (listening [] 0 []).fd.acc = []
    ∧ (listening [1] 0 (List.replicate 3 oneByte)).fd.acc ≠ [] ∧ (listening [1] 0 (List.replicate 3 oneByte)).fq.length < 4
    ∧ 4 ≤ (listening [1] 0 (List.replicate 4 oneByte)).fq.length := by decide

theorem witness_RxbyteAppendsOrOpensAFreshAccumulation :
    State.reset.fd.rxEn = false
    ∧ (let s := listening (List.replicate 511 1) 2 []
       s.fd.rxEn = true ∧ s.fd.ict < s.cfg.tChar ∧ s.fd.acc.length < 512)
    ∧ (let s := listening (List.replicate 512 1) 2 []
       s.fd.rxEn = true ∧ s.fd.ict < s.cfg.tChar ∧ 512 ≤ s.fd.acc.length)
    ∧ (let s := listening [1] 3 []
       s.fd.rxEn = true ∧ s.fd.acc ≠ [] ∧ s.cfg.tChar ≤ s.fd.ict) := by decide +kernel

theorem witness_TickCountsGuardAndTimer :
    State.reset.fd.rxEn = false ∧ (listening [] 0 []).fd.acc = []
    ∧ (let s := listening [1] 9 []
       s.fd.rxEn = true ∧ s.fd.acc ≠ [] ∧ s.fd.ict + 1 = s.cfg.tPkt)
    ∧ (let s := listening [1] 10 []
       s.fd.rxEn = true ∧ s.fd.acc ≠ [] ∧ s.fd.ict ≠ 0xFFFF ∧ s.cfg.tPkt < s.fd.ict + 1) := by decide

theorem witness_SilenceFlushesOnTickTpktPlusOne :
    let s : State := { listening [1] 0 (List.replicate 3 oneByte) with
      cfg := { State.reset.cfg with tChar := 3, tPkt := 0xFFFE } }
    s.fd.rxEn = true ∧ s.fd.acc ≠ [] ∧ s.fd.ict = 0 ∧ s.cfg.tPkt.toNat ≤ 0xFFFE ∧ s.fq.length < 4
    ∧ 0xFFFE ≤ s.cfg.tPkt.toNat := by decide

/-- The gap of 2 is the longest below T_CHAR = 3, the gap of 3 the shortest not below it. -/
theorem witness_TheGapDecidesTheCandidate :
    let s := listening (List.replicate 511 1) 0 (List.replicate 3 oneByte)
    s.fd.rxEn = true ∧ s.fd.acc ≠ [] ∧ s.fd.ict = 0 ∧ s.cfg.tChar ≤ s.cfg.tPkt ∧ s.cfg.tPkt.toNat ≤ 0xFFFE
    ∧ 2 < s.cfg.tChar.toNat ∧ s.fd.acc.length < 512 ∧ s.cfg.tChar.toNat ≤ 3 ∧ s.fq.length < 4 := by decide +kernel

theorem witness_OneBurstIsOneCandidate :
    let s := listening [] 0 (List.replicate 3 oneByte)
    let rest : List (Nat × Byte) := List.replicate 511 (2, 0x5A)
    s.fd.rxEn = true ∧ s.fd.acc = [] ∧ s.fd.accOvf = false ∧ s.fq.length < 4 ∧ s.cfg.tChar ≤ s.cfg.tPkt
    ∧ s.cfg.tPkt.toNat ≤ 0xFFFE ∧ rest.length < 512 ∧ ∀ p ∈ rest, p.1 < s.cfg.tChar.toNat := by decide +kernel

theorem witness_CheckBytesAreNever0xFF :
    ((0xFF : Byte) = 0xFF ∨ (0x00 : Byte) = 0xFF) ∧ ((0x00 : Byte) = 0xFF ∨ (0xFF : Byte) = 0xFF) := by decide

theorem witness_EncodeBuildsTheFrame :
    ((loaded true 0 0).tx.txBusy = true ∧ State.reset.cpp.payOk = false)
    ∧ (staged (List.replicate 255 0x5A)).tx.txBusy = false ∧ (staged (List.replicate 255 0x5A)).cpp.payOk = true
    ∧ (staged (List.replicate 255 0x5A)).cpp.plen = 255 := by decide +kernel

theorem witness_DecodeDeliversAValidFrame :
    ∀ p ∈ [(frameF1, 2), (frameF3, 0)],
      (received p.1).fq = { bytes := p.1, ovf := false } :: [] ∧ (received p.1).dec.rxpValid = false
      ∧ p.1.length = 12 + p.2 ∧ (p.1.getD 9 0).toNat = p.2
      ∧ p.1.drop (10 + p.2) = [(csum (p.1.take (10 + p.2))).1, (csum (p.1.take (10 + p.2))).2] := by decide +kernel

/-- Lengths 9; 10, 11 and 12 of F1; and F1 with check1 wrong. -/
theorem witness_DecodeDropsAndLogsABadFrame :
    (frameF1.take 9).length < 10
    ∧ (10 ≤ (frameF1.take 10).length ∧ (frameF1.take 10).length < 12)
    ∧ (10 ≤ (frameF1.take 11).length ∧ (frameF1.take 11).length < 12)
    ∧ (10 ≤ (frameF1.take 12).length ∧ ((frameF1.take 12).getD 9 0).toNat ≠ (frameF1.take 12).length - 12)
    ∧ (let f := frameF1.take 12 ++ [0x86, 0x82]
       12 ≤ f.length ∧ (f.getD 9 0).toNat = f.length - 12
       ∧ f.drop (f.length - 2) ≠ [(csum (f.take (f.length - 2))).1, (csum (f.take (f.length - 2))).2])
    ∧ (received frameF1).fq = { bytes := frameF1, ovf := false } :: [] ∧ (received frameF1).dec.rxpValid = false
    ∧ State.reset.fq = [] ∧ (unpacking 0 []).dec.rxpValid = true := by decide +kernel

theorem witness_DecodingTheEncodedFrameGivesBackThePacket :
    let s := staged [0x01, 0x48]
    s.tx.txBusy = false ∧ s.cpp.payOk = true
    ∧ after (exec .encode s) (fun t => bytesAt t txbBase t.tx.txLen.toNat) = some frameF1
    ∧ (received frameF1).fq = { bytes := frameF1, ovf := false } :: [] ∧ (received frameF1).dec.rxpValid = false := by
  decide +kernel

theorem witness_RxpopFreesTheSlotAndSendStartsTheFrame :
    (unpacking 0 []).dec.rxpValid = true ∧ State.reset.dec.rxpValid = false
    ∧ State.reset.tx.encValid = false ∧ (loaded true 0 0).tx.txBusy = true ∧ (loaded false 0 1).tx.txg ≠ 0
    ∧ (loaded false 12 0).tx.encValid = true ∧ (loaded false 12 0).tx.txBusy = false ∧ (loaded false 12 0).tx.txg = 0 := by
  decide

theorem witness_TxbyteHandsOverOneByte :
    (loaded true 10 0).tx.txBusy = true ∧ (loaded true 10 0).tx.txIdx + 1 ≠ (loaded true 10 0).tx.txLen
    ∧ (loaded true 11 0).tx.txBusy = true ∧ (loaded true 11 0).tx.txIdx + 1 = (loaded true 11 0).tx.txLen
    ∧ (loaded false 0 0).tx.txBusy = false := by decide

theorem witness_SendHandsOverTheWholeFrame :
    let s := loaded false 0 0
    s.tx.encValid = true ∧ s.tx.txBusy = false ∧ s.tx.txg = 0 ∧ s.tx.txLen ≠ 0 ∧ 11 < s.tx.txLen.toNat := by decide

theorem witness_SendWaitsForTheIdlePeriod :
    let s := loaded false 0 12
    s.tx.encValid = true ∧ s.tx.txBusy = false ∧ 11 < s.tx.txg.toNat ∧ s.tx.txg.toNat ≤ 12 := by decide

theorem witness_RefusalsRecordTheirCodeAndChangeNothingElse :
    (loaded true 0 0).tx.txBusy = true ∧ State.reset.cpp.payOk = false
    ∧ State.reset.tx.encValid = false ∧ (loaded false 0 1).tx.txg ≠ 0 ∧ State.reset.dec.rxpValid = false
    ∧ 0x0A ≤ ((0x0A000000 : Word).extractLsb' 24 8).toNat
    ∧ after (exec (.pack 0x0100) State.reset) (·.op.opCode) = some 0x11
    ∧ after (exec .nop State.reset) (·.op.opCode) = some 0 := by decide +kernel

theorem witness_ReceiverSwitchesAndClrx :
    State.reset.fd.rxEn = false ∧ (listening [1] 0 []).fd.rxEn = true := by decide

theorem witness_EndCompletesTheShape :
    (packing 2 []).cpp.pkDir = .pack ∧ (unpacking 2 []).cpp.pkDir = .unpack := by decide

/-- Cursor 254 is the last at which a one-byte field fits. -/
theorem witness_Enum8CarriesAMemberOfItsSet :
    let s := withSet (packing 254 [(1, 2)])
    let u := withSet (unpacking 1 [0x50, 0x02])
    (wordAt s (0x1800 + 32 * (0 : BitVec 5).toNat + 4 * ((2 : Byte).toNat / 32))).getLsbD ((2 : Byte).toNat % 32) = true
    ∧ PackReady s ∧ getx s 1 = some ((2 : Byte).setWidth 32) ∧ s.cpp.cur.toNat + 1 ≤ 255
    ∧ (wordAt u (0x1800 + 32 * (0 : BitVec 5).toNat + 4 * ((2 : Byte).toNat / 32))).getLsbD ((2 : Byte).toNat % 32) = true
    ∧ UnpackReady u ∧ u.cpp.cur.toNat + 1 ≤ u.dec.rxp.plen.toNat
    ∧ byteAt u (rxpayBase + u.cpp.cur.toNat) = 2 := by
  unfold PackReady UnpackReady
  try dsimp only
  repeat' apply And.intro
  all_goals decide +kernel

/-- Both ends of the range of N = 16 at the last cursor, and N = 1. -/
theorem witness_TwosStoresARepresentableValue :
    TwosForm (.s16le 2) 2 true true 16 ∧ TwosForm (.twos8 1 1) 1 false true 1
    ∧ (let s := packing 253 [(1, 0xFFFFFFFF), (2, 0xFFFF8000), (3, 0x00007FFF)]
       PackReady s ∧ getx s 1 = some 0xFFFFFFFF ∧ getx s 2 = some 0xFFFF8000 ∧ getx s 3 = some 0x00007FFF
       ∧ -(2 : Int) ^ (16 - 1) ≤ (0xFFFF8000 : Word).toInt ∧ (0xFFFF8000 : Word).toInt ≤ (2 : Int) ^ (16 - 1) - 1
       ∧ -(2 : Int) ^ (16 - 1) ≤ (0x00007FFF : Word).toInt ∧ (0x00007FFF : Word).toInt ≤ (2 : Int) ^ (16 - 1) - 1
       ∧ -(2 : Int) ^ (1 - 1) ≤ (0xFFFFFFFF : Word).toInt ∧ (0xFFFFFFFF : Word).toInt ≤ (2 : Int) ^ (1 - 1) - 1
       ∧ s.cpp.cur.toNat + 2 ≤ 255 ∧ s.cpp.cur.toNat + 1 ≤ 255) := by
  unfold TwosForm PackReady
  try dsimp only
  repeat' apply And.intro
  all_goals decide +kernel

theorem witness_TwosReadsTheLowBitsAsSigned :
    TwosForm (.s16be 2) 2 true false 16 ∧ TwosForm (.twos8 1 4) 1 false false 4
    ∧ (let s := unpacking 1 [0x50, 0xFE, 0xFF]
       UnpackReady s ∧ s.cpp.cur.toNat + 2 ≤ s.dec.rxp.plen.toNat
       ∧ bytesAt s (rxpayBase + s.cpp.cur.toNat) 2 = orderedBytes true false 0xFEFF
       ∧ bytesAt s (rxpayBase + s.cpp.cur.toNat) 1 = orderedBytes false false 0x00FE) := by
  unfold TwosForm UnpackReady
  try dsimp only
  repeat' apply And.intro
  all_goals decide +kernel

/-- 127.5 at scale 2 is the largest unsigned 8-bit value, -64 and 63.5 the ends of the signed one (VP25, VP29). -/
theorem witness_FixpStoresTheRoundedProduct :
    FixpForm (.fixp8 0 false 2) 0 false false false 2 ∧ FixpForm (.fixp16le 0 true 1) 0 true true true 1
    ∧ (let s := packing 254 [(0, 0x007F8000), (1, 0xFFC00000), (2, 0x003F8000)]
       PackReady s ∧ getx s 0 = some 0x007F8000 ∧ getx s 1 = some 0xFFC00000 ∧ getx s 2 = some 0x003F8000
       ∧ roundTie s.cfg.tieEven ((0x007F8000 : Word).toNat * 2) 65536 = (2 : Int) ^ 8 - 1
       ∧ roundTie s.cfg.tieEven ((0xFFC00000 : Word).toInt * 2) 65536 = -(2 : Int) ^ 7
       ∧ roundTie s.cfg.tieEven ((0x003F8000 : Word).toInt * 2) 65536 = (2 : Int) ^ 7 - 1
       ∧ s.cpp.cur.toNat + 1 ≤ 255) := by
  unfold FixpForm PackReady
  try dsimp only
  repeat' apply And.intro
  all_goals decide +kernel

theorem witness_FixpReadsTheRoundedQuotient :
    FixpForm (.fixp16be 0 true 1) 0 true false true 1 ∧ FixpForm (.fixp8 0 false 3) 0 false true false 3
    ∧ (let s := unpacking 1 [0x50, 0x80, 0x00]
       UnpackReady s ∧ s.cpp.cur.toNat + 2 ≤ s.dec.rxp.plen.toNat
       ∧ bytesAt s (rxpayBase + s.cpp.cur.toNat) 2 = orderedBytes true false 0x8000
       ∧ bytesAt s (rxpayBase + s.cpp.cur.toNat) 1 = orderedBytes false true 0x0080) := by
  unfold FixpForm UnpackReady
  try dsimp only
  repeat' apply And.intro
  all_goals decide +kernel

theorem witness_BitfSetsOnlyItsBits :
    BitfForm (.bit 2 true 7) 2 true 1 7 ∧ BitfForm (.u8 0) 0 true 8 0 ∧ BitfForm (.bitf 1 false 2 6) 1 false 2 6
    ∧ (let s := packing 254 [(0, 255), (1, 3), (2, 1)]
       PackReady s ∧ getx s 0 = some 255 ∧ getx s 1 = some 3 ∧ getx s 2 = some 1
       ∧ (255 : Word).toNat < 2 ^ (8 : BitVec 4).toNat ∧ (3 : Word).toNat < 2 ^ (2 : BitVec 4).toNat
       ∧ (1 : Word).toNat < 2 ^ (1 : BitVec 4).toNat ∧ s.cpp.cur.toNat + 1 ≤ 255) := by
  unfold BitfForm PackReady
  try dsimp only
  repeat' apply And.intro
  all_goals decide +kernel

theorem witness_BitfReadsOnlyItsBits :
    BitfForm (.bit 2 true 7) 2 true 1 7 ∧ BitfForm (.u8 0) 0 true 8 0
    ∧ UnpackReady (unpacking 1 [0x50, 0x85])
    ∧ (unpacking 1 [0x50, 0x85]).cpp.cur.toNat + 1 ≤ (unpacking 1 [0x50, 0x85]).dec.rxp.plen.toNat := by
  unfold BitfForm UnpackReady
  try dsimp only
  repeat' apply And.intro
  all_goals decide +kernel

/-- A tail that just fits, and an unpack with nothing left. -/
theorem witness_TailCopiesTheTail :
    (let s : State := { packing 253 [] with cpp := { (packing 253 []).cpp with tailLen := 2 } }
     PackReady s ∧ s.cpp.cur.toNat + s.cpp.tailLen.toNat = 255)
    ∧ (let u := unpacking 2 [0x50, 0xA5]
       UnpackReady u ∧ u.cpp.cur.toNat = u.dec.rxp.plen.toNat) := by
  unfold PackReady UnpackReady
  try dsimp only
  repeat' apply And.intro
  all_goals decide +kernel

/-- Minutes 20 (clamped), seconds 56.25 (n = 15). -/
theorem witness_RtimerCarriesMinutesAndSeconds :
    (let s := packing 254 [(0, 20), (1, 0x00384000)]
     PackReady s ∧ getx s 0 = some 20 ∧ getx s 1 = some 0x00384000 ∧ 0 ≤ (20 : Word).toInt
     ∧ 0 ≤ (0x00384000 : Word).toInt ∧ roundTie s.cfg.tieEven ((0x00384000 : Word).toInt * 4) 983040 = 15
     ∧ s.cpp.cur.toNat + 1 ≤ 255)
    ∧ UnpackReady (unpacking 1 [0x50, 0x12])
    ∧ (unpacking 1 [0x50, 0x12]).cpp.cur.toNat + 1 ≤ (unpacking 1 [0x50, 0x12]).dec.rxp.plen.toNat := by
  unfold PackReady UnpackReady
  try dsimp only
  repeat' apply And.intro
  all_goals decide +kernel

theorem witness_MalformedShapesRaiseShapeFault :
    (isField .tail = true ∧ (setPc 255 (packing 1 [])).cpp.pc = 255) ∧ (packing 1 []).cpp.pc ≠ 255
    ∧ TwosForm (.twos8 1 0) 1 false false 0 ∧ TwosForm (.twos8 1 9) 1 false false 9 ∧ TwosForm (.twos16be 1 17) 1 true false 17
    ∧ FixpForm (.fixp8 0 false 0) 0 false false false 0
    ∧ BitfForm (.bitf 0 false 0 0) 0 false 0 0 ∧ BitfForm (.bitf 0 false 8 1) 0 false 8 1
    ∧ 7 ≤ ((0x70000000 : Word).extractLsb' 28 4).toNat := by
  unfold TwosForm FixpForm BitfForm
  try dsimp only
  repeat' apply And.intro
  all_goals decide +kernel

theorem witness_UnwrittenOperandRaisesOperand :
    PackReady (packing 1 [(0, 1)]) ∧ (packing 1 [(0, 1)]).cpp.xv.getLsbD (1 : XIndex).toNat = false
    ∧ TwosForm (.s8 1) 1 false false 8 ∧ twosLegal false 8 = true
    ∧ FixpForm (.fixp8 1 false 1) 1 false false false 1 ∧ fixpLegal 1 = true
    ∧ BitfForm (.u8 1) 1 true 8 0 ∧ bitfLegal 8 0 = true := by
  unfold PackReady TwosForm FixpForm BitfForm
  try dsimp only
  repeat' apply And.intro
  all_goals decide +kernel

/-- The first values past each domain: 3 and 256 for the set, 128 and -129 for eight bits (VP3), 127.75, 64 and
-64.5 at scale 2 (VP25, VP29), 4 for two bits, minutes and seconds -1, and 58.125 seconds (VP49, VP51). -/
theorem witness_OutOfDomainValuesRaise :
    let s := withSet (packing 1 [(0, 3), (1, 256), (2, 128), (3, 0xFFFFFF7F), (4, 0x007FC000), (5, 0x00400000),
      (6, 0xFFBF8000), (7, 4), (8, 0xFFFFFFFF), (9, 0x003A2000), (10, 0)])
    PackReady s
    ∧ (getx s 0 = some 3 ∧ esetHas s 0 (3 : Word).toNat = false) ∧ (getx s 1 = some 256 ∧ 255 < (256 : Word).toNat)
    ∧ TwosForm (.s8 0) 0 false false 8 ∧ twosLegal false 8 = true
    ∧ (getx s 2 = some 128 ∧ (2 : Int) ^ (8 - 1) - 1 < (128 : Word).toInt)
    ∧ (getx s 3 = some 0xFFFFFF7F ∧ (0xFFFFFF7F : Word).toInt < -(2 : Int) ^ (8 - 1))
    ∧ FixpForm (.fixp8 0 true 2) 0 false false true 2 ∧ fixpLegal 2 = true
    ∧ (getx s 4 = some 0x007FC000 ∧ (2 : Int) ^ 8 - 1 < roundTie s.cfg.tieEven ((0x007FC000 : Word).toNat * 2) 65536)
    ∧ (getx s 5 = some 0x00400000 ∧ (2 : Int) ^ 7 - 1 < roundTie s.cfg.tieEven ((0x00400000 : Word).toInt * 2) 65536)
    ∧ (getx s 6 = some 0xFFBF8000 ∧ roundTie s.cfg.tieEven ((0xFFBF8000 : Word).toInt * 2) 65536 < -(2 : Int) ^ 7)
    ∧ BitfForm (.bitf 7 false 2 0) 7 false 2 0 ∧ bitfLegal 2 0 = true
    ∧ (getx s 7 = some 4 ∧ 2 ^ (2 : BitVec 4).toNat ≤ (4 : Word).toNat)
    ∧ (getx s 8 = some 0xFFFFFFFF ∧ (0xFFFFFFFF : Word).toInt < 0)
    ∧ (getx s 9 = some 0x003A2000 ∧ 15 < roundTie s.cfg.tieEven ((0x003A2000 : Word).toInt * 4) 983040)
    ∧ getx s 10 = some 0 := by
  unfold PackReady TwosForm FixpForm BitfForm
  try dsimp only
  repeat' apply And.intro
  all_goals decide +kernel

theorem witness_ShortOrForeignPayloadsRaise :
    UnpackReady (unpacking 1 [0x50]) ∧ (unpacking 1 [0x50]).dec.rxp.plen.toNat < (unpacking 1 [0x50]).cpp.cur.toNat + 1
    ∧ UnpackReady (unpacking 1 [0x50, 0xFE])
    ∧ (unpacking 1 [0x50, 0xFE]).dec.rxp.plen.toNat < (unpacking 1 [0x50, 0xFE]).cpp.cur.toNat + 2
    ∧ TwosForm (.s16be 2) 2 true false 16 ∧ twosLegal true 16 = true
    ∧ FixpForm (.fixp8 0 false 2) 0 false false false 2 ∧ fixpLegal 2 = true
    ∧ BitfForm (.u8 0) 0 true 8 0 ∧ bitfLegal 8 0 = true
    ∧ (let u := withSet (unpacking 1 [0x50, 0x03])
       UnpackReady u ∧ u.cpp.cur.toNat + 1 ≤ u.dec.rxp.plen.toNat
       ∧ esetHas u 0 (byteAt u (rxpayBase + u.cpp.cur.toNat)).toNat = false) := by
  unfold UnpackReady TwosForm FixpForm BitfForm
  try dsimp only
  repeat' apply And.intro
  all_goals decide +kernel

/-- Cursor 254 for two bytes, 255 for one, and a tail one byte too long. -/
theorem witness_FullPayloadRaisesOverflow :
    (let s : State := { packing 254 [] with cpp := { (packing 254 []).cpp with tailLen := 2 } }
     PackReady s ∧ s.cpp.cur.toNat + s.cpp.tailLen.toNat = 256)
    ∧ (let s := packing 254 [(0, 1)]
       PackReady s ∧ getx s 0 = some 1 ∧ TwosForm (.s16be 0) 0 true false 16 ∧ twosLegal true 16 = true
       ∧ -(2 : Int) ^ (16 - 1) ≤ (1 : Word).toInt ∧ (1 : Word).toInt ≤ (2 : Int) ^ (16 - 1) - 1
       ∧ FixpForm (.fixp16be 0 false 1) 0 true false false 1
       ∧ roundTie s.cfg.tieEven ((1 : Word).toNat * 1) 65536 ≤ (2 : Int) ^ 16 - 1 ∧ 255 < s.cpp.cur.toNat + 2)
    ∧ (let s := withSet (packing 255 [(0, 1), (1, 0)])
       PackReady s ∧ getx s 0 = some 1 ∧ getx s 1 = some 0 ∧ (1 : Word).toNat ≤ 255 ∧ esetHas s 0 (1 : Word).toNat = true
       ∧ BitfForm (.u8 0) 0 true 8 0 ∧ bitfLegal 8 0 = true ∧ (1 : Word).toNat < 2 ^ (8 : BitVec 4).toNat
       ∧ 0 ≤ (1 : Word).toInt ∧ 0 ≤ (0 : Word).toInt ∧ roundTie s.cfg.tieEven ((0 : Word).toInt * 4) 983040 ≤ 15
       ∧ 255 < s.cpp.cur.toNat + 1) := by
  unfold PackReady TwosForm FixpForm BitfForm
  try dsimp only
  repeat' apply And.intro
  all_goals decide +kernel

/-- The half 1/2 under both tie rules. -/
theorem witness_RoundTieIsNearest :
    (0 : Int) < 2 ∧ 2 * |(1 : Int) - roundTie false 1 2 * 2| = 2 ∧ 2 * |(1 : Int) - roundTie true 1 2 * 2| = 2 := by decide

/-- -2 in sixteen bits, low byte first (VP11), and the packet that carries it (VP15). -/
theorem witness_TwosRoundTripIsExact :
    let s := packing 1 [(2, 0xFFFFFFFE)]
    let u := unpacking 1 [0x50, 0xFE, 0xFF]
    twosLegal true 16 = true ∧ PackReady s ∧ getx s 2 = some 0xFFFFFFFE
    ∧ -(2 : Int) ^ (16 - 1) ≤ (0xFFFFFFFE : Word).toInt ∧ (0xFFFFFFFE : Word).toInt ≤ (2 : Int) ^ (16 - 1) - 1
    ∧ s.cpp.cur.toNat + 2 ≤ 255
    ∧ after (exec (.twos 2 true true 16) s) (fun t => bytesAt t (payBase + s.cpp.cur.toNat) 2) = some [0xFE, 0xFF]
    ∧ UnpackReady u ∧ u.cpp.cur.toNat + 2 ≤ u.dec.rxp.plen.toNat
    ∧ bytesAt u (rxpayBase + u.cpp.cur.toNat) 2 = [0xFE, 0xFF] := by
  unfold PackReady UnpackReady
  try dsimp only
  repeat' apply And.intro
  all_goals decide +kernel

/-- The stored number 2 at scale 3 (VP37). -/
theorem witness_FixpStoredNumberSurvivesTheRoundTrip :
    let u := unpacking 1 [0x50, 0x02]
    let s := packing 254 [(5, 0x0000AAAB)]
    (3 : BitVec 16) ≠ 0 ∧ UnpackReady u ∧ u.cpp.cur.toNat + 1 ≤ u.dec.rxp.plen.toNat
    ∧ after (exec (.fixp 0 false false false 3) u) (fun v => getx v 0) = some (some 0x0000AAAB)
    ∧ PackReady s ∧ getx s 5 = some 0x0000AAAB ∧ s.cpp.cur.toNat + 1 ≤ 255 := by
  unfold PackReady UnpackReady
  try dsimp only
  repeat' apply And.intro
  all_goals decide +kernel

/-- An entry in the first place, in the last, and none. -/
theorem witness_LookupTakesTheLowestValidEntry :
    lookup (withShape 0 State.reset) 0x0050 = some 0
    ∧ lookup (store (cmdtabBase + 4 * 127) (wordBytes 0x80020050) State.reset) 0x0050 = some 2
    ∧ lookup State.reset 0 = none
    ∧ State.reset.cpp.cmdCode = 0 ∧ State.reset.cpp.cmdCode ≠ 1 := by decide +kernel

theorem witness_PackOfALoneEndStagesTheCode :
    let s := withShape 0 State.reset
    let t : State := { s with cfg := { s.cfg with cc16 := true } }
    (0x0050 : BitVec 16).toNat ≤ 0xFF ∧ lookup s 0x0050 = some 0 ∧ decode (.desc (shmWord s 0)) = .ok .endShape
    ∧ t.cfg.cc16 = true ∧ lookup t 0x0050 = some 0 := by decide +kernel

/-- The shape `U8 x0; END` entered by a one-byte code, a register for PACK and a payload that just holds the code and
the byte for UNPACK (VP91). -/
theorem witness_PackAndUnpackOfAByteCommand :
    let s := withShape 0x40010080 (packing 0 [(0, 0x48)])
    let u := withShape 0x40010080 (unpacking 0 [0x50, 0x48])
    s.cfg.cc16 = false ∧ (0x0050 : BitVec 16).toNat ≤ 0xFF ∧ lookup s 0x0050 = some 0
    ∧ decode (.desc (shmWord s 0)) = .ok (.u8 0) ∧ decode (.desc (shmWord s (0 + 1))) = .ok .endShape
    ∧ getx s 0 = some ((0x48 : Byte).setWidth 32)
    ∧ u.cfg.cc16 = false ∧ lookup u 0x0050 = some 0
    ∧ decode (.desc (shmWord u 0)) = .ok (.u8 0) ∧ decode (.desc (shmWord u (0 + 1))) = .ok .endShape
    ∧ u.dec.rxpValid = true ∧ 1 + 1 ≤ u.dec.rxp.plen.toNat
    ∧ bytesAt u rxpayBase (1 + 1) = [(0x0050 : BitVec 16).extractLsb' 0 8] ++ [0x48] := by decide +kernel

/-- The same with two-byte codes, CTRL.CC16 = 1 and the code 0x0050 (VP92). -/
theorem witness_PackAndUnpackOfAByteCommand_cc16 :
    let u := withShape 0x40010080 (unpackingWide [0x50, 0x00, 0x48])
    u.cfg.cc16 = true ∧ lookup u 0x0050 = some 0
    ∧ decode (.desc (shmWord u 0)) = .ok (.u8 0) ∧ decode (.desc (shmWord u (0 + 1))) = .ok .endShape
    ∧ u.dec.rxpValid = true ∧ 2 + 1 ≤ u.dec.rxp.plen.toNat
    ∧ bytesAt u rxpayBase (2 + 1)
      = [(0x0050 : BitVec 16).extractLsb' 0 8, (0x0050 : BitVec 16).extractLsb' 8 8] ++ [0x48] := by decide +kernel

theorem witness_FaultsBeforeRunRecordNoDescriptor :
    (State.reset.cfg.cc16 = false ∧ 0xFF < (0x0100 : BitVec 16).toNat)
    ∧ ((0x00FF : BitVec 16).toNat ≤ 0xFF ∧ lookup State.reset 0x00FF = none)
    ∧ ((unpacking 0 []).dec.rxpValid = true ∧ (unpacking 0 []).dec.rxp.plen.toNat < 1)
    ∧ ((unpacking 0 [0x02]).dec.rxpValid = true ∧ 1 ≤ (unpacking 0 [0x02]).dec.rxp.plen.toNat
      ∧ lookup (unpacking 0 [0x02]) ((byteAt (unpacking 0 [0x02]) rxpayBase).setWidth 16) = none) := by decide +kernel

theorem witness_EveryUnpackEndsAndLeavesTheStagedPayload :
    (withShape 0x40010080 (unpacking 0 [0x50, 0x48])).dec.rxpValid = true := by decide

theorem witness_EncodeIsRefusedAfterAFaultedPack :
    after (exec (.pack 0x0100) State.reset) (·.cpp.pkState) = some .fault := by decide +kernel

/-- The first and the last offset of some of the ranges that no rule maps. -/
theorem witness_HostReadsAndUnmappedAccesses :
    (facing [.hostRead 0x4FF] State.reset).env.pending = .hostRead 0x4FF :: []
    ∧ (facing [.hostWrite 0x001 1] State.reset).env.pending = .hostWrite 0x001 1 :: []
    ∧ ((0x001 : BitVec 16).toNat < 0x400 ∧ (0x001 : BitVec 16).toNat % 4 ≠ 0)
    ∧ ((0x3FC : BitVec 16).toNat < 0x400 ∧ 0x100 ≤ (0x3FC : BitVec 16).toNat)
    ∧ (0x0A0 ≤ (0x0A0 : BitVec 16).toNat ∧ (0x0BC : BitVec 16).toNat < 0x0C0)
    ∧ (0x6FF ≤ (0x6FF : BitVec 16).toNat ∧ (0x7FF : BitVec 16).toNat < 0x800)
    ∧ (0x90B ≤ (0x90B : BitVec 16).toNat ∧ (0xFFF : BitVec 16).toNat < 0x1000)
    ∧ (0x1600 ≤ (0x1600 : BitVec 16).toNat ∧ (0x17FF : BitVec 16).toNat < 0x1800)
    ∧ 0x1C00 ≤ (0xFFFF : BitVec 16).toNat ∧ (0x1001 : BitVec 16).toNat % 4 ≠ 0 := by decide

/-- Registers of the map and the first and last offset of each window: the last payload byte, the last byte of a frame. -/
theorem witness_RegisterReadsShowTheState :
    (facing [.hostRead 0x004] State.reset).env.pending = .hostRead 0x004 :: []
    ∧ (facing [.hostRead 0x020] State.reset).env.pending = .hostRead 0x020 :: []
    ∧ (unpacking 0 []).dec.rxpValid = true
    ∧ RxInv State.reset
    ∧ (facing [.hostRead 0x09C] State.reset).env.pending = .hostRead (0x080 + 4 * (7 : BitVec 3).setWidth 16) :: []
    ∧ (facing [.hostRead 0x0FC] (packing 0 [(15, 7)])).env.pending = .hostRead (0x0C0 + 4 * (15 : XIndex).setWidth 16) :: []
    ∧ getx (packing 0 [(15, 7)]) 15 = some 7
    ∧ (0x400 ≤ (0x400 : BitVec 16).toNat ∧ (0x4FE : BitVec 16).toNat < 0x4FF)
    ∧ (0x500 ≤ (0x500 : BitVec 16).toNat ∧ (0x5FE : BitVec 16).toNat < 0x5FF)
    ∧ (0x600 ≤ (0x601 : BitVec 16).toNat ∧ (0x601 : BitVec 16).toNat < 0x600 + (unpacking 0 [0x50, 0x48]).dec.rxp.plen.toNat
      ∧ (unpacking 0 [0x50, 0x48]).dec.rxpValid = true)
    ∧ (0x800 ≤ (0x80B : BitVec 16).toNat ∧ (0x80B : BitVec 16).toNat < 0x90B
      ∧ (0x80B : BitVec 16).toNat < 0x800 + (loaded false 0 0).tx.txLen.toNat ∧ (loaded false 0 0).tx.encValid = true)
    ∧ ((0x15FC : BitVec 16).toNat % 4 = 0 ∧ 0x1000 ≤ (0x15FC : BitVec 16).toNat ∧ (0x15FC : BitVec 16).toNat < 0x1600)
    ∧ ((0x1BFC : BitVec 16).toNat % 4 = 0 ∧ 0x1800 ≤ (0x1BFC : BitVec 16).toNat ∧ (0x1BFC : BitVec 16).toNat < 0x1C00) := by
  unfold RxInv Candidate.ok; decide +kernel

/-- The first and the last offset of the windows and word spaces. -/
theorem witness_RegisterWritesStoreTheirFields :
    (facing [.hostWrite 0x000 3] State.reset).env.pending = .hostWrite 0x000 3 :: []
    ∧ (facing [.hostWrite 0x09C 3] State.reset).env.pending = .hostWrite (0x080 + 4 * (7 : BitVec 3).setWidth 16) 3 :: []
    ∧ (facing [.hostWrite 0x0FC 3] State.reset).env.pending = .hostWrite (0x0C0 + 4 * (15 : XIndex).setWidth 16) 3 :: []
    ∧ (0x400 ≤ (0x400 : BitVec 16).toNat ∧ (0x4FE : BitVec 16).toNat < 0x4FF)
    ∧ (0x500 ≤ (0x500 : BitVec 16).toNat ∧ (0x5FE : BitVec 16).toNat < 0x5FF)
    ∧ (0x1000 ≤ (0x1000 : BitVec 16).toNat ∧ (0x15FC : BitVec 16).toNat < 0x1600 ∧ (0x15FC : BitVec 16).toNat % 4 = 0)
    ∧ (0x1800 ≤ (0x1800 : BitVec 16).toNat ∧ (0x1BFC : BitVec 16).toNat < 0x1C00 ∧ (0x1BFC : BitVec 16).toNat % 4 = 0)
    ∧ (0x600 ≤ (0x600 : BitVec 16).toNat ∧ (0x6FE : BitVec 16).toNat < 0x6FF)
    ∧ (0x800 ≤ (0x800 : BitVec 16).toNat ∧ (0x90A : BitVec 16).toNat < 0x90B) := by decide

theorem witness_InterruptBitsInfluenceNothingElse :
    withoutIrq { State.reset with irq := { irqPend := 0x3F, irqEn := 0x01 } } = withoutIrq State.reset
    ∧ irqOut { State.reset with irq := { irqPend := 0x3F, irqEn := 0x01 } } = true := by decide +kernel

/-- One step of each kind: a tick appends, RXDIS appends, DEC takes the head, SOFTRESET and rst empty the queue. -/
theorem witness_FrameQueueIsFirstInFirstOut :
    after (step (facing [.sample 0x200] (listening [1] 10 [oneByte]))) (·.fq.length) = some 2
    ∧ after (step (facing [.hostWrite 0x040 0x07000000] (listening [1] 0 [oneByte]))) (·.fq.length) = some 2
    ∧ after (step (facing [.decTurn] (received frameF1))) (·.fq) = some []
    ∧ after (step (facing [.hostWrite 0x040 0x09000000] (listening [] 0 [oneByte]))) (·.fq) = some []
    ∧ after (step (facing [.rst] (listening [] 0 [oneByte]))) (·.fq) = some [] := by decide +kernel

theorem witness_OperationsNeverTouchTheCatalogue :
    after (exec .softreset (withShape 0x40010080 State.reset)) (fun t => shmWord t 0) = some 0x40010080 := by
  decide +kernel

end Sys2Proof.Tests
end

