-- ==== Sys2Proof/Proofs/Delimiter.lean ====
section
/-! PROOF. Proofs/Delimiter.lean: FLUSH, RXBYTE and runs of ticks (40_delimiter.md R91 to R100). -/

namespace Sys2Proof.Machine

/-! ## RXBYTE, case by case (40_delimiter.md R91) -/

theorem lateByte_iff {s : State} : lateByte s = true ↔ s.fd.acc ≠ [] ∧ s.cfg.tChar ≤ s.fd.ict := by
  simp [lateByte]

theorem rxByte_of_off (b : Byte) {s : State} (h : s.fd.rxEn = false) : rxByte b s = s := by
  simp [rxByte, h]

theorem rxByte_of_in_time (b : Byte) {s : State} (he : s.fd.rxEn = true)
    (h : s.fd.acc = [] ∨ s.fd.ict < s.cfg.tChar) : rxByte b s = appendByte b s := by
  have hl : ¬ lateByte s = true := by
    rw [lateByte_iff]
    rintro ⟨ha, hc⟩
    exact h.elim ha (BitVec.not_lt.mpr hc)
  simp [rxByte, he, hl]

theorem rxByte_of_late (b : Byte) {s : State} (he : s.fd.rxEn = true) (ha : s.fd.acc ≠ [])
    (h : s.cfg.tChar ≤ s.fd.ict) : rxByte b s = appendByte b (flushAcc s) := by
  simp [rxByte, he, lateByte_iff.mpr ⟨ha, h⟩]

theorem appendByte_of_room (b : Byte) {s : State} (h : s.fd.acc.length < 512) :
    appendByte b s = { s with fd := { s.fd with acc := s.fd.acc ++ [b], ict := 0 } } := by
  simp [appendByte, Config.accCap, h]

theorem appendByte_of_full (b : Byte) {s : State} (h : 512 ≤ s.fd.acc.length) :
    appendByte b s = { s with
      fd := { s.fd with accOvf := true, ict := 0 }
      irq := { s.irq with irqPend := s.irq.irqPend ||| 0x04 } } := by
  simp [appendByte, Config.accCap, Nat.not_lt.mpr h, raiseIrq]

/-- A late byte is the first of a fresh accumulation. -/
theorem appendByte_flushAcc (b : Byte) (s : State) :
    appendByte b (flushAcc s) =
      { flushAcc s with fd := { (flushAcc s).fd with acc := [b], ict := 0 } } := by
  have ha := (flushAcc_fd s).1
  rw [appendByte_of_room b (by simp [ha]), ha]
  rfl

/-! ## One tick -/

/-- The guard one tick later (42_codec.md R131). -/
def guardNext (g : BitVec 16) : BitVec 16 := if g = 0 then 0 else g - 1

/-- `s` with the guard at `g`. -/
def guardAt (g : BitVec 16) (s : State) : State := { s with tx := { s.tx with txg := g } }

theorem guardTick_eq_guardAt (s : State) : guardTick s = guardAt (guardNext s.tx.txg) s := by
  rw [guardTick_eq, guardAt, guardNext]
  by_cases h : s.tx.txg = 0
  · rw [if_pos h, if_pos h, ← h]
  · rw [if_neg h, if_neg h]

/-- `s` with the guard at `g` and the timer at `n`. -/
def timerAt (n : Nat) (g : BitVec 16) (s : State) : State :=
  { guardAt g s with fd := { s.fd with ict := BitVec.ofNat 16 n } }

/-- `s` with the guard at `g` and the open accumulation moved to the tail of the queue. -/
def closedAt (g : BitVec 16) (s : State) : State :=
  { guardAt g s with
    fd := { s.fd with acc := [], accOvf := false, ict := 0 }
    fq := s.fq ++ [{ bytes := s.fd.acc, ovf := s.fd.accOvf }] }

theorem timerAt_self (s : State) : timerAt s.fd.ict.toNat s.tx.txg s = s := by
  simp [timerAt, guardAt]

theorem sat16Succ_of_lt {v : BitVec 16} (h : v.toNat < 0xFFFF) : sat16Succ v = BitVec.ofNat 16 (v.toNat + 1) := by
  have hv : v ≠ 0xFFFF := by rintro rfl; exact absurd h (by decide)
  rw [sat16Succ, if_neg hv, BitVec.ofNat_add, BitVec.ofNat_toNat, BitVec.setWidth_eq]
  rfl

theorem lineTick_of_idle {s : State} (h : s.fd.rxEn = false ∨ s.fd.acc = []) :
    lineTick s = guardAt (guardNext s.tx.txg) s := by
  rw [lineTick, guardTick_eq_guardAt]
  exact fdTick_of_idle h

/-- A tick the timer counts without passing T_PKT. -/
theorem lineTick_of_counting {s : State} (he : s.fd.rxEn = true) (ha : s.fd.acc ≠ [])
    (hk : s.fd.ict.toNat < s.cfg.tPkt.toNat) :
    lineTick s = timerAt (s.fd.ict.toNat + 1) (guardNext s.tx.txg) s := by
  have hp := s.cfg.tPkt.isLt
  have hs := sat16Succ_of_lt (v := s.fd.ict) (by omega)
  have hlt : ¬ s.cfg.tPkt < sat16Succ s.fd.ict := by
    rw [hs, BitVec.lt_def, BitVec.toNat_ofNat, Nat.mod_eq_of_lt (by omega)]
    omega
  rw [lineTick, guardTick_eq_guardAt, fdTick_of_counting (s := guardAt (guardNext s.tx.txg) s) he ha hlt]
  simp only [hs, timerAt, guardAt]

/-- The tick that takes the timer past T_PKT, with room in the queue. -/
theorem lineTick_of_timeout {s : State} (he : s.fd.rxEn = true) (ha : s.fd.acc ≠ [])
    (hk : s.fd.ict = s.cfg.tPkt) (hp : s.cfg.tPkt.toNat ≤ 0xFFFE) (hq : s.fq.length < 4) :
    lineTick s = closedAt (guardNext s.tx.txg) s := by
  have hlt : s.cfg.tPkt < sat16Succ s.fd.ict := by
    rw [hk, sat16Succ_of_lt (by omega), BitVec.lt_def, BitVec.toNat_ofNat, Nat.mod_eq_of_lt (by omega)]
    omega
  rw [lineTick, guardTick_eq_guardAt, fdTick_of_timeout (s := guardAt (guardNext s.tx.txg) s) he ha hlt]
  exact flushAcc_of_room (s := { guardAt _ s with fd := { s.fd with ict := _ } }) ha hq

/-! ## Sequences of operations -/

theorem execAll_cons {i : Instr} {l : List Instr} {s t : State} (h : exec i s = .next t) :
    execAll (i :: l) s = execAll l t := by
  simp only [execAll, h]

theorem execAll_append {l m : List Instr} {s t : State} (h : execAll l s = .next t) :
    execAll (l ++ m) s = execAll m t := by
  induction l generalizing s with
  | nil => cases h; rfl
  | cons i l ih =>
    cases hi : exec i s with
    | next u => rw [execAll_cons hi] at h; rw [List.cons_append, execAll_cons hi, ih h]
    | fault r => simp [execAll, hi] at h
    | refused r => simp [execAll, hi] at h

theorem execAll_rxbyte (b : Byte) (l : List Instr) (s : State) :
    execAll (.rxbyte b :: l) s = execAll l (rxByte b s) := rfl

theorem execAll_ticks_succ (k : Nat) (s : State) :
    execAll (ticks (k + 1)) s = execAll (ticks k) (lineTick s) := rfl

theorem ticks_add (j k : Nat) : ticks (j + k) = ticks j ++ ticks k := List.replicate_add j k _

/-! ## Runs of ticks -/

/-- Ticks with nothing accumulated count the guard only. -/
theorem execAll_ticks_of_idle (k : Nat) {s : State} (ha : s.fd.acc = []) :
    ∃ g, execAll (ticks k) s = .next (guardAt g s) := by
  induction k generalizing s with
  | zero => exact ⟨s.tx.txg, rfl⟩
  | succ k ih =>
    obtain ⟨g, hg⟩ := ih (s := guardAt (guardNext s.tx.txg) s) ha
    exact ⟨g, by rw [execAll_ticks_succ, lineTick_of_idle (.inr ha), hg]; rfl⟩

/-- Ticks up to T_PKT move the timer and the guard only. -/
theorem execAll_ticks_of_counting (k : Nat) {s : State} (he : s.fd.rxEn = true) (ha : s.fd.acc ≠ [])
    (hk : s.fd.ict.toNat + k ≤ s.cfg.tPkt.toNat) :
    ∃ g, execAll (ticks k) s = .next (timerAt (s.fd.ict.toNat + k) g s) := by
  induction k generalizing s with
  | zero => exact ⟨s.tx.txg, by rw [Nat.add_zero, timerAt_self]; rfl⟩
  | succ k ih =>
    have hp := s.cfg.tPkt.isLt
    have hn : (timerAt (s.fd.ict.toNat + 1) (guardNext s.tx.txg) s).fd.ict.toNat = s.fd.ict.toNat + 1 := by
      simp only [timerAt, BitVec.toNat_ofNat]
      exact Nat.mod_eq_of_lt (by omega)
    have hk' : s.fd.ict.toNat + 1 + k ≤ s.cfg.tPkt.toNat := by omega
    obtain ⟨g, hg⟩ := ih (s := timerAt (s.fd.ict.toNat + 1) (guardNext s.tx.txg) s) he ha (by rw [hn]; exact hk')
    refine ⟨g, ?_⟩
    rw [execAll_ticks_succ, lineTick_of_counting he ha (by omega), hg, hn, Nat.add_right_comm s.fd.ict.toNat 1 k]
    rfl

/-- T_PKT + 1 ticks of silence move the open accumulation to the queue (40_delimiter.md R100). -/
theorem execAll_ticks_of_silence {s : State} (he : s.fd.rxEn = true) (ha : s.fd.acc ≠ []) (h0 : s.fd.ict = 0)
    (hp : s.cfg.tPkt.toNat ≤ 0xFFFE) (hq : s.fq.length < 4) :
    ∃ g, execAll (ticks (s.cfg.tPkt.toNat + 1)) s = .next (closedAt g s) := by
  obtain ⟨g, hg⟩ := execAll_ticks_of_counting s.cfg.tPkt.toNat he ha (by simp [h0])
  have hi : (timerAt (s.fd.ict.toNat + s.cfg.tPkt.toNat) g s).fd.ict = s.cfg.tPkt := by simp [timerAt, h0]
  refine ⟨guardNext g, ?_⟩
  rw [ticks_add, execAll_append hg, execAll_ticks_succ, lineTick_of_timeout (s := timerAt _ g s) he ha hi hp hq]
  rfl

/-! ## A burst -/

/-- `s` with the guard at `g` and the bytes `bs` appended to the open accumulation. -/
def appendedAt (bs : List Byte) (g : BitVec 16) (s : State) : State :=
  { guardAt g s with fd := { s.fd with acc := s.fd.acc ++ bs, ict := 0 } }

/-- The first byte of an accumulation is never late. -/
theorem rxByte_of_opening (b : Byte) {s : State} (he : s.fd.rxEn = true) (ha : s.fd.acc = []) :
    rxByte b s = appendedAt [b] s.tx.txg s := by
  rw [rxByte_of_in_time b he (.inl ha), appendByte_of_room b (by simp [ha])]
  rfl

/-- A byte after `k` ticks, with `k` below T_CHAR, joins the open accumulation. -/
theorem execAll_ticks_rxbyte_of_joined {s : State} {k : Nat} {b : Byte} (he : s.fd.rxEn = true) (ha : s.fd.acc ≠ [])
    (h0 : s.fd.ict = 0) (hcp : s.cfg.tChar ≤ s.cfg.tPkt) (hk : k < s.cfg.tChar.toNat)
    (hl : s.fd.acc.length < 512) :
    ∃ g, execAll (ticks k ++ [.rxbyte b]) s = .next (appendedAt [b] g s) := by
  have hcp' : s.cfg.tChar.toNat ≤ s.cfg.tPkt.toNat := hcp
  obtain ⟨g, hg⟩ := execAll_ticks_of_counting k he ha (by simp [h0]; omega)
  have hi : (timerAt (s.fd.ict.toNat + k) g s).fd.ict < s.cfg.tChar := by
    simp [timerAt, h0, BitVec.lt_def]; omega
  refine ⟨g, ?_⟩
  rw [execAll_append hg, execAll_rxbyte, rxByte_of_in_time (s := timerAt _ g s) b he (.inr hi),
    appendByte_of_room (s := timerAt _ g s) b hl]
  rfl

/-- The bytes of a burst whose gaps are all below T_CHAR join the open accumulation. -/
theorem execAll_burst {s : State} {rest : List (Nat × Byte)} (he : s.fd.rxEn = true) (ha : s.fd.acc ≠ [])
    (h0 : s.fd.ict = 0) (hcp : s.cfg.tChar ≤ s.cfg.tPkt) (hl : s.fd.acc.length + rest.length ≤ 512)
    (hg : ∀ p ∈ rest, p.1 < s.cfg.tChar.toNat) :
    ∃ g, execAll (burst rest) s = .next (appendedAt (rest.map (·.2)) g s) := by
  induction rest generalizing s with
  | nil => exact ⟨s.tx.txg, by simp [burst, execAll, appendedAt, guardAt, ← h0]⟩
  | cons p rest ih =>
    obtain ⟨k, b⟩ := p
    simp only [List.length_cons, List.mem_cons, forall_eq_or_imp] at hl hg
    obtain ⟨g, h1⟩ := execAll_ticks_rxbyte_of_joined (b := b) he ha h0 hcp hg.1 (by omega)
    obtain ⟨g', h2⟩ := ih (s := appendedAt [b] g s) he (by simp [appendedAt]) rfl hcp
      (by simp [appendedAt]; omega) hg.2
    refine ⟨g', ?_⟩
    have hb : burst ((k, b) :: rest) = (ticks k ++ [.rxbyte b]) ++ burst rest := by simp [burst]
    rw [hb, execAll_append h1, h2]
    simp [appendedAt, guardAt]

end Sys2Proof.Machine

/-! ## The statements -/

namespace Sys2Proof.Proofs
open Sys2Proof.Machine

/-- Settles O9, by the three cases of FLUSH. -/
theorem flushClosesTheAccumulation : Obligations.FlushClosesTheAccumulation := by
  intro s
  exact ⟨fun h => congrArg Host.Outcome.next (flushAcc_of_empty h),
    fun h hq => congrArg Host.Outcome.next (flushAcc_of_room h hq),
    fun h hq => congrArg Host.Outcome.next (flushAcc_of_full h hq)⟩

/-- Settles O10, by the cases of RXBYTE: off, in time with and without room, late. -/
theorem rxbyteAppendsOrOpensAFreshAccumulation : Obligations.RxbyteAppendsOrOpensAFreshAccumulation := by
  intro s b
  refine ⟨fun he => ?off, fun he ht hl => ?room, fun he ht hl => ?full,
    fun he ha hc => ⟨flushAcc s, rfl, ?late⟩⟩
  case off => exact congrArg Host.Outcome.next (rxByte_of_off b he)
  case room => exact congrArg Host.Outcome.next ((rxByte_of_in_time b he ht).trans (appendByte_of_room b hl))
  case full => exact congrArg Host.Outcome.next ((rxByte_of_in_time b he ht).trans (appendByte_of_full b hl))
  case late => exact congrArg Host.Outcome.next ((rxByte_of_late b he ha hc).trans (appendByte_flushAcc b s))

/-- Settles O13: up to T_PKT ticks only count, and the next one flushes. -/
theorem silenceFlushesOnTickTpktPlusOne : Obligations.SilenceFlushesOnTickTpktPlusOne := by
  intro s he ha h0 hp hq
  constructor
  · intro k hk
    obtain ⟨g, hg⟩ := execAll_ticks_of_counting k he ha (by simpa [h0] using hk)
    exact ⟨_, hg, by simp [timerAt, h0], rfl⟩
  · obtain ⟨g, hg⟩ := execAll_ticks_of_silence he ha h0 hp hq
    exact ⟨_, hg, rfl, rfl⟩

/-- Settles O14. A gap of T_CHAR or more is closed by the late byte while the timer has not passed T_PKT, and by
the timer afterwards. -/
theorem theGapDecidesTheCandidate : Obligations.TheGapDecidesTheCandidate := by
  intro s k b he ha h0 hcp hp
  refine ⟨fun hk hl => ?joined, fun hk hq => ?parted⟩
  case joined =>
    obtain ⟨g, hg⟩ := execAll_ticks_rxbyte_of_joined he ha h0 hcp hk hl
    exact ⟨_, hg, rfl, rfl, rfl⟩
  case parted =>
    by_cases hkp : k ≤ s.cfg.tPkt.toNat
    · obtain ⟨g, hg⟩ := execAll_ticks_of_counting k he ha (by simpa [h0] using hkp)
      have hlate : s.cfg.tChar ≤ (timerAt (s.fd.ict.toNat + k) g s).fd.ict := by
        simp [timerAt, h0, BitVec.le_def, Nat.mod_eq_of_lt (show k < 65536 by omega)]
        exact hk
      refine ⟨_, by rw [execAll_append hg, execAll_rxbyte, rxByte_of_late (s := timerAt _ g s) b he ha hlate,
        appendByte_flushAcc]; rfl, rfl, rfl, ?_⟩
      exact congrArg State.fq (flushAcc_of_room (s := timerAt (s.fd.ict.toNat + k) g s) ha hq)
    · obtain ⟨j, rfl⟩ : ∃ j, k = s.cfg.tPkt.toNat + 1 + j := ⟨k - (s.cfg.tPkt.toNat + 1), by omega⟩
      obtain ⟨g, hg⟩ := execAll_ticks_of_silence he ha h0 hp hq
      obtain ⟨g', hg'⟩ := execAll_ticks_of_idle j (s := closedAt g s) rfl
      refine ⟨_, by rw [ticks_add, List.append_assoc, execAll_append hg, execAll_append hg', execAll_rxbyte,
        rxByte_of_in_time (s := guardAt g' (closedAt g s)) b he (.inl rfl),
        appendByte_of_room (s := guardAt g' (closedAt g s)) b (Nat.zero_lt_succ _)]; rfl, rfl, rfl, rfl⟩

/-- Settles O15: the first byte opens the accumulation, the others join it, the silence closes it. -/
theorem oneBurstIsOneCandidate : Obligations.OneBurstIsOneCandidate := by
  intro s b rest he ha ho hq hcp hp hl hgap
  obtain ⟨g, hg⟩ := execAll_burst (s := appendedAt [b] s.tx.txg s) he (by simp [appendedAt]) rfl hcp
    (by simp [appendedAt, ha]; omega) hgap
  obtain ⟨g', hg'⟩ := execAll_ticks_of_silence (s := appendedAt (rest.map (·.2)) g (appendedAt [b] s.tx.txg s)) he
    (by simp [appendedAt]) rfl hp hq
  refine ⟨_, by rw [execAll_rxbyte, rxByte_of_opening b he ha, execAll_append hg]; exact hg', ?_⟩
  simp [closedAt, appendedAt, guardAt, ha, ho]

end Sys2Proof.Proofs
end

