-- ==== Sys2Proof/Proofs/LinkKept.lean ====
section
/-! PROOF. Proofs/LinkKept.lean: what the operations leave unchanged of the parts `MachineInv` speaks of, and what
each operation does to the rest. -/

namespace Sys2Proof.Machine

/-- Every code OPERR can show: none, or one of 60_exceptions.md R218. -/
def opCodes : List Byte := [0x00, 0x10, 0x11, 0x12, 0x13, 0x14, 0x20, 0x21, 0x22, 0x30, 0x31]

theorem opFaultCode_mem (f : OpFault) : opFaultCode f ∈ opCodes := by cases f <;> decide

theorem refuseCode_mem (r : RefuseReason) : refuseCode r ∈ opCodes := by cases r <;> decide

/-- From `s` to `t` nothing but the delimiter and the queue can have left the invariant: the transmit unit is the
same but for the staged header, TXB holds the same bytes, the memory is as sound as before, and the error registers
hold what they held or a code of the table. -/
structure BeyondRxKept (s t : State) : Prop where
  tx : t.tx = { s.tx with hdr := t.tx.hdr }
  txb : ∀ a, txbBase ≤ a → a < txbBase + 267 → byteAt t a = byteAt s a
  mem : MemInv s → MemInv t
  rxerrCode : t.log.rxerrCode = s.log.rxerrCode
  rxerrLen : t.log.rxerrLen = s.log.rxerrLen
  opCode : t.op.opCode = s.op.opCode ∨ t.op.opCode ∈ opCodes

/-- As `BeyondRxKept`, with the delimiter and the queue unchanged. -/
structure LinkKept (s t : State) : Prop extends BeyondRxKept s t where
  fd : t.fd = s.fd
  fq : t.fq = s.fq

namespace BeyondRxKept

theorem trans {s t u : State} (h : BeyondRxKept s t) (k : BeyondRxKept t u) : BeyondRxKept s u where
  tx := by rw [k.tx, h.tx]
  txb a h1 h2 := (k.txb a h1 h2).trans (h.txb a h1 h2)
  mem hm := k.mem (h.mem hm)
  rxerrCode := k.rxerrCode.trans h.rxerrCode
  rxerrLen := k.rxerrLen.trans h.rxerrLen
  opCode := k.opCode.elim (fun e => e ▸ h.opCode) .inr

/-- An update that leaves the memory and its fills alone. -/
theorem of_memory_eq {s t : State} (htx : t.tx = { s.tx with hdr := t.tx.hdr })
    (hc : t.log.rxerrCode = s.log.rxerrCode) (hl : t.log.rxerrLen = s.log.rxerrLen)
    (hop : t.op.opCode = s.op.opCode ∨ t.op.opCode ∈ opCodes) (hm : t.mem = s.mem)
    (hb : t.env.bufFill = s.env.bufFill) (hf : t.env.catFill = s.env.catFill) : BeyondRxKept s t where
  tx := htx
  txb a _ _ := byteAt_of_parts hm hb hf a
  mem h := by unfold MemInv; rw [hm]; exact h
  rxerrCode := hc
  rxerrLen := hl
  opCode := hop

theorem refl (s : State) : BeyondRxKept s s := of_memory_eq rfl rfl rfl (.inl rfl) rfl rfl rfl

end BeyondRxKept

namespace LinkKept

theorem trans {s t u : State} (h : LinkKept s t) (k : LinkKept t u) : LinkKept s u :=
  { h.toBeyondRxKept.trans k.toBeyondRxKept with fd := k.fd.trans h.fd, fq := k.fq.trans h.fq }

/-- An update that leaves the delimiter, the queue, the memory and its fills alone. -/
theorem of_memory_eq {s t : State} (hfd : t.fd = s.fd) (hfq : t.fq = s.fq)
    (htx : t.tx = { s.tx with hdr := t.tx.hdr }) (hc : t.log.rxerrCode = s.log.rxerrCode)
    (hl : t.log.rxerrLen = s.log.rxerrLen) (hop : t.op.opCode = s.op.opCode ∨ t.op.opCode ∈ opCodes)
    (hm : t.mem = s.mem) (hb : t.env.bufFill = s.env.bufFill) (hf : t.env.catFill = s.env.catFill) :
    LinkKept s t :=
  { BeyondRxKept.of_memory_eq htx hc hl hop hm hb hf with fd := hfd, fq := hfq }

theorem refl (s : State) : LinkKept s s := { BeyondRxKept.refl s with fd := rfl, fq := rfl }

end LinkKept

/-! ## Stores -/

theorem memInv_store {s : State} {base : Nat} {bs : List Byte} (h : MemInv s)
    (hm : ∀ a, base ≤ a → a < base + bs.length → mapped a = true) : MemInv (store base bs s) :=
  ⟨Memory.wf_writeBlock h.1 base bs, Memory.allMapped_writeBlock h.2 hm⟩

/-- A store at existing offsets outside TXB. -/
theorem linkKept_store {s : State} {base : Nat} {bs : List Byte}
    (hm : ∀ a, base ≤ a → a < base + bs.length → mapped a = true)
    (ho : base + bs.length ≤ txbBase ∨ txbBase + 267 ≤ base) : LinkKept s (store base bs s) where
  tx := rfl
  txb a h1 h2 := byteAt_store_outside (by omega)
  mem h := memInv_store h hm
  rxerrCode := rfl
  rxerrLen := rfl
  opCode := .inl rfl
  fd := rfl
  fq := rfl

theorem linkKept_storePay {s : State} {k : Nat} {bs : List Byte} (h : k + bs.length ≤ 255) :
    LinkKept s (store (payBase + k) bs s) :=
  linkKept_store (fun a h1 h2 => mapped_pay (by unfold payBase at h1; omega) (by unfold payBase at h2; omega))
    (.inl (by unfold payBase txbBase; omega))

theorem linkKept_storePay_head {s : State} {bs : List Byte} (h : bs.length ≤ 255) :
    LinkKept s (store payBase bs s) := linkKept_storePay (k := 0) (by omega)

theorem linkKept_storeTail {s : State} {bs : List Byte} (h : bs.length ≤ 255) :
    LinkKept s (store tailBase bs s) :=
  linkKept_store (fun a h1 h2 => mapped_tail h1 (by unfold tailBase at h2; omega))
    (.inl (by unfold tailBase txbBase; omega))

theorem linkKept_storeRxpay {s : State} {bs : List Byte} (h : bs.length ≤ 255) :
    LinkKept s (store rxpayBase bs s) :=
  linkKept_store (fun a h1 h2 => mapped_rxpay h1 (by unfold rxpayBase at h2; omega))
    (.inl (by unfold rxpayBase txbBase; omega))

/-! ## Exceptions, refusals, the delivery of a packet -/

theorem linkKept_refuse (r : RefuseReason) (s : State) : LinkKept s (refuse r s) :=
  .of_memory_eq rfl rfl rfl rfl rfl (.inr (refuseCode_mem r)) rfl rfl rfl

theorem linkKept_opFaultEntry (f : OpFault) (p c : Byte) (s : State) : LinkKept s (opFaultEntry f p c s) := by
  have hrecord : LinkKept s { s with
      op := { opCode := opFaultCode f, opPc := p, opCur := c }
      cpp := { s.cpp with pkState := .fault }
      irq := { s.irq with irqPend := s.irq.irqPend ||| 0x20 } } :=
    .of_memory_eq rfl rfl rfl rfl rfl (.inr (opFaultCode_mem f)) rfl rfl rfl
  cases hd : s.cpp.pkDir with
  | pack =>
    rw [opFaultEntry_of_pack hd]
    exact hrecord.trans (linkKept_storePay_head (by simp))
  | unpack =>
    rw [opFaultEntry_of_unpack hd]
    exact hrecord

theorem framePayload_length_le (f : List Byte) : (framePayload f).length ≤ 255 := by
  have := (frameByte f 9).isLt
  simp only [framePayload, List.length_take]
  omega

theorem linkKept_deliver (f : List Byte) (s : State) : LinkKept s (deliver f s) := by
  have hdec : LinkKept s { s with
      dec := { rxpValid := true, rxp := packetOf s.cfg.mtReg f }
      log := { s.log with cntOk := sat16Succ s.log.cntOk } } :=
    .of_memory_eq rfl rfl rfl rfl rfl (.inl rfl) rfl rfl rfl
  exact (hdec.trans (linkKept_storeRxpay (framePayload_length_le f))).trans
    (.of_memory_eq rfl rfl rfl rfl rfl (.inl rfl) rfl rfl rfl)

theorem judge_cases (f : List Byte) (s : State) :
    (∃ e, judge f s = rxErrorEntry e f.length s) ∨ judge f s = deliver f s := by
  cases h : frameError f with
  | some e => exact .inl ⟨e, by simp [judge, h]⟩
  | none => exact .inr (by simp [judge, h])

theorem judge_fq (f : List Byte) (s : State) : (judge f s).fq = s.fq := by
  rcases judge_cases f s with ⟨e, h⟩ | h
  · rw [h, rxErrorEntry_eq]
  · rw [h, (linkKept_deliver f s).fq]

/-! ## Descriptors, PACK and UNPACK -/

theorem linkKept_cpp (c : Cpp) (s : State) : LinkKept s { s with cpp := c } :=
  .of_memory_eq rfl rfl rfl rfl rfl (.inl rfl) rfl rfl rfl

theorem PackOutcome.linkKept {s t : State} (h : PackOutcome s t) : LinkKept s t := by
  rcases h with ⟨f, _, p, rfl | rfl⟩ | ⟨_, bs, adv, hl, _, rfl⟩
  · exact linkKept_opFaultEntry f p s.cpp.cur s
  · exact (linkKept_cpp _ s).trans (linkKept_opFaultEntry f p s.cpp.cur (pcAdvanced s))
  · exact ((linkKept_cpp _ s).trans (linkKept_storePay (s := pcAdvanced s) hl)).trans (linkKept_cpp _ _)

theorem linkKept_unpackTail (s : State) : LinkKept s (unpackTail s) := by
  have hp := s.dec.rxp.plen.isLt
  refine (linkKept_storeTail (s := s)
    (bs := bytesAt s (rxpayBase + s.cpp.cur.toNat) (s.dec.rxp.plen.toNat - s.cpp.cur.toNat)) ?_).trans
    (linkKept_cpp _ _)
  rw [bytesAt_length]
  omega

theorem linkKept_setxs (ws : List (XIndex × Word)) (s : State) : LinkKept s (setxs ws s) := by
  rw [setxs_units]
  exact linkKept_cpp _ s

theorem UnpackOutcome.linkKept {s t : State} (h : UnpackOutcome s t) : LinkKept s t := by
  rcases h with ⟨f, _, p, rfl | rfl⟩ | ⟨_, ws, adv, rfl⟩ | ⟨_, rfl⟩
  · exact linkKept_opFaultEntry f p s.cpp.cur s
  · exact (linkKept_cpp _ s).trans (linkKept_opFaultEntry f p s.cpp.cur (pcAdvanced s))
  · exact ((linkKept_cpp _ s).trans (linkKept_setxs ws (pcAdvanced s))).trans (linkKept_cpp _ _)
  · exact (linkKept_cpp _ s).trans (linkKept_unpackTail (pcAdvanced s))

theorem linkKept_endShape (s : State) : LinkKept s (endShape s) := by
  unfold endShape
  split <;> exact linkKept_cpp _ s

/-- END and the field descriptors are the rows RUN executes. -/
theorem execDescriptor_linkKept {i : Instr} {s t : State} (hi : i = .endShape ∨ isField i = true)
    (h : execDescriptor i s = .next t) : LinkKept s t := by
  rcases hi with rfl | hi
  · cases h
    exact linkKept_endShape s
  · cases hd : s.cpp.pkDir with
    | pack =>
      obtain ⟨u, hu, ho⟩ := field_pack_outcome hi hd
      cases hu.symm.trans h
      exact ho.linkKept
    | unpack =>
      obtain ⟨u, hu, ho⟩ := field_unpack_outcome hi hd
      cases hu.symm.trans h
      exact ho.linkKept

theorem exec_eq_execDescriptor {i : Instr} (hi : i = .endShape ∨ isField i = true) (s : State) :
    exec i s = execDescriptor i s := by
  rcases hi with rfl | hi
  · rfl
  · cases i <;> simp only [isField, Bool.false_eq_true] at hi <;> rfl

theorem runShape_linkKept {s t : State} (hs : s.cpp.pkState = .idle) (h : runShape s = .next t) : LinkKept s t :=
  runLoop_keeps (P := LinkKept s)
    (fun u _ hu _ hd => hu.trans (execDescriptor_linkKept (decodeDesc_isField (shmWord u u.cpp.pc)) hd))
    256 s t (.refl s) hs h

theorem linkKept_packStart (code : BitVec 16) (s : State) : LinkKept s (packStart code s) :=
  (linkKept_cpp _ s).trans (linkKept_storePay_head List.length_replicate.le)

theorem codeBytes_length_le (cc16 : Bool) (code : BitVec 16) : (codeBytes cc16 code).length ≤ 2 := by
  cases cc16 <;> simp [codeBytes]

theorem linkKept_packEntered (code : BitVec 16) (start : Byte) (s : State) :
    LinkKept s (packEntered code start s) := by
  have hl := codeBytes_length_le s.cfg.cc16 code
  exact (((linkKept_packStart code s).trans (linkKept_storePay_head (by omega))).trans
    (linkKept_cpp _ _)).trans (linkKept_cpp _ _)

theorem execPack_linkKept {code : BitVec 16} {s t : State} (h : execPack code s = .next t) : LinkKept s t := by
  simp only [execPack] at h
  split at h
  · cases h
    exact (linkKept_packStart code s).trans (linkKept_opFaultEntry _ _ _ _)
  · split at h
    · cases h
      exact (linkKept_packStart code s).trans (linkKept_opFaultEntry _ _ _ _)
    · exact (linkKept_packEntered code _ s).trans (runShape_linkKept rfl h)

theorem linkKept_unpackCode (s : State) : LinkKept s (unpackCode s) := linkKept_cpp _ s

theorem execUnpack_linkKept {s t : State} (h : execUnpack s = .next t) : LinkKept s t := by
  unfold execUnpack at h
  split at h
  · split at h
    · cases h
      exact (linkKept_cpp _ s).trans (linkKept_opFaultEntry _ _ _ (unpackStart s))
    · split at h
      · cases h
        exact (linkKept_unpackCode s).trans (linkKept_opFaultEntry _ _ _ _)
      · exact ((linkKept_unpackCode s).trans (linkKept_cpp _ _)).trans (runShape_linkKept rfl h)
  · cases h
    exact linkKept_refuse _ s

/-! ## The host bus and the event -/

theorem linkKept_takeEvent (s : State) : LinkKept s (takeEvent s) :=
  .of_memory_eq rfl rfl rfl rfl rfl (.inl rfl) rfl rfl rfl

theorem linkKept_hostRead (off : BitVec 16) (s : State) : LinkKept s (hostRead off s) :=
  .of_memory_eq rfl rfl rfl rfl rfl (.inl rfl) rfl rfl rfl

theorem mapped_word {a b : Nat} (h : a % 4 = 0 ∧ ((0x1000 ≤ a ∧ a < 0x1600) ∨ (0x1800 ≤ a ∧ a < 0x1C00)))
    (h1 : a ≤ b) (h2 : b < a + 4) : mapped b = true := by
  simp only [mapped, Bool.or_eq_true, inWindow_shm, inWindow_cmdtab, inWindow_eset]
  omega

theorem linkKept_hostWrite (off : BitVec 16) (w : Word) (s : State) : LinkKept s (hostWrite off w s) := by
  unfold hostWrite
  cases hl : locAt off with
  | none => exact .refl s
  | some l =>
    cases l
    case rwByte a =>
      have ha := mapped_of_rwByte hl
      refine linkKept_store (fun b h1 h2 => ?_) (.inl ?_)
      · obtain rfl : b = a := by simp only [List.length_singleton] at h2; omega
        exact ha.elim (fun h => mapped_pay h.1 h.2) (fun h => mapped_tail h.1 h.2)
      · unfold txbBase
        simp only [List.length_singleton]
        omega
    case rwWord a =>
      have ha := mapped_of_rwWord hl
      exact linkKept_store (fun b h1 h2 => mapped_word ha h1 h2) (.inr (by unfold txbBase; omega))
    all_goals exact .of_memory_eq rfl rfl rfl rfl rfl (.inl rfl) rfl rfl rfl

/-! ## The delimiter -/

theorem beyondRxKept_flushAcc (s : State) : BeyondRxKept s (flushAcc s) := by
  by_cases ha : s.fd.acc = []
  · rw [flushAcc_of_empty ha]
    exact .of_memory_eq rfl rfl rfl (.inl rfl) rfl rfl rfl
  · by_cases hq : s.fq.length < 4
    · rw [flushAcc_of_room ha hq]
      exact .of_memory_eq rfl rfl rfl (.inl rfl) rfl rfl rfl
    · rw [flushAcc_of_full ha (Nat.le_of_not_lt hq)]
      exact .of_memory_eq rfl rfl rfl (.inl rfl) rfl rfl rfl

theorem beyondRxKept_appendByte (b : Byte) (s : State) : BeyondRxKept s (appendByte b s) := by
  unfold appendByte
  split <;> exact .of_memory_eq rfl rfl rfl (.inl rfl) rfl rfl rfl

/-- RXBYTE: discarded, or appended to the open or to a fresh accumulation. -/
theorem rxByte_cases (b : Byte) (s : State) :
    (rxByte b s = s) ∨ (s.fd.rxEn = true ∧ rxByte b s = appendByte b s)
    ∨ (s.fd.rxEn = true ∧ rxByte b s = appendByte b (flushAcc s)) := by
  cases he : s.fd.rxEn
  · exact .inl (rxByte_of_off b he)
  · by_cases hl : lateByte s = true
    · exact .inr (.inr ⟨rfl, by simp [rxByte, he, hl]⟩)
    · exact .inr (.inl ⟨rfl, by simp [rxByte, he, hl]⟩)

/-- The delimiter's tick: idle, counting, or past the threshold. -/
theorem fdTick_cases (s : State) :
    fdTick s = s
    ∨ (s.fd.rxEn = true ∧ s.fd.acc ≠ [] ∧
        (fdTick s = { s with fd := { s.fd with ict := sat16Succ s.fd.ict } }
          ∨ fdTick s = flushAcc { s with fd := { s.fd with ict := sat16Succ s.fd.ict } })) := by
  cases he : s.fd.rxEn
  · exact .inl (fdTick_of_idle (.inl he))
  · by_cases ha : s.fd.acc = []
    · exact .inl (fdTick_of_idle (.inr ha))
    · by_cases hk : s.cfg.tPkt < sat16Succ s.fd.ict
      · exact .inr ⟨rfl, ha, .inr (fdTick_of_timeout he ha hk)⟩
      · exact .inr ⟨rfl, ha, .inl (fdTick_of_counting he ha hk)⟩

/-! ## Everything an operation does to the parts the invariant speaks of -/

/-- What ENCODE leaves when it is not refused (42_codec.md R121). -/
def frameStaged (s : State) : State :=
  { store txbBase (encodedFrame s) s with
    tx := { s.tx with txLen := BitVec.ofNat 9 (12 + s.cpp.plen.toNat), encValid := true } }

/-- What TXBYTE leaves of a frame being sent, before the test for its last byte (42_codec.md R130). -/
def handedOver (s : State) : State :=
  { s with
    tx := { s.tx with txIdx := s.tx.txIdx + 1 }
    env := { s.env with txOut := s.env.txOut ++ [txData s] } }

/-- `LinkEffect s i t`: how `i` takes `s` to `t`, told by the operations that touch the delimiter, the queue, the
transmit unit or the receive log. -/
inductive LinkEffect (s : State) : Instr → State → Prop
  | kept {i : Instr} {t : State} (h : LinkKept s t) : LinkEffect s i t
  | rxbyte (b : Byte) : LinkEffect s (.rxbyte b) (rxByte b s)
  | tick : LinkEffect s .tick (lineTick s)
  | rxbyteTick (b : Byte) : LinkEffect s (.rxbyteTick b) (lineTick (rxByte b s))
  | flush : LinkEffect s .flush (flushAcc s)
  | rxen : LinkEffect s .rxen { s with fd := { rxEn := true, acc := [], accOvf := false, ict := 0 } }
  | rxdis : LinkEffect s .rxdis { flushAcc s with fd := { (flushAcc s).fd with rxEn := false } }
  | softreset : LinkEffect s .softreset (softReset s)
  | decode (c : Candidate) (rest : List Candidate) (hv : s.dec.rxpValid = false) (hq : s.fq = c :: rest) :
      LinkEffect s .decode (judge c.bytes { s with fq := rest })
  | encode (hb : s.tx.txBusy = false) : LinkEffect s .encode (frameStaged s)
  | send (he : s.tx.encValid = true) (hg : s.tx.txg = 0) :
      LinkEffect s .send { s with tx := { s.tx with txBusy := true, txIdx := 0 } }
  | txbyte (hb : s.tx.txBusy = true) (hi : s.tx.txIdx + 1 ≠ s.tx.txLen) : LinkEffect s .txbyte (handedOver s)
  | txlast (hb : s.tx.txBusy = true) : LinkEffect s .txbyte (endFrame (handedOver s))

theorem execEncode_linkEffect {s t : State} (h : execEncode s = .next t) : LinkEffect s .encode t := by
  unfold execEncode at h
  split at h
  · cases h
    exact .kept (linkKept_refuse _ s)
  · rename_i hb
    cases h
    exact .encode (by simp at hb; exact hb.1)

theorem execSend_linkEffect {s t : State} (h : execSend s = .next t) : LinkEffect s .send t := by
  unfold execSend at h
  split at h
  · cases h
    exact .kept (linkKept_refuse _ s)
  · rename_i hb
    cases h
    simp only [Bool.or_eq_true, not_or, Bool.not_eq_true', Bool.not_eq_false, decide_eq_true_eq, not_not] at hb
    obtain ⟨⟨he, -⟩, hg⟩ := hb
    exact .send he hg

theorem execDecode_linkEffect {s t : State} (h : execDecode s = .next t) : LinkEffect s .decode t := by
  unfold execDecode at h
  split at h
  · cases h
    exact .kept (.refl s)
  · rename_i hv
    split at h
    · cases h
      exact .kept (.refl s)
    · rename_i c rest hq
      cases h
      exact .decode c rest (by simpa using hv) hq

theorem execTxbyte_linkEffect {s t : State} (h : execTxbyte s = .next t) : LinkEffect s .txbyte t := by
  unfold execTxbyte at h
  split at h
  · rename_i hb
    simp only [Host.Outcome.next.injEq] at h
    subst h
    split
    · exact .txlast hb
    · rename_i hi
      exact .txbyte hb hi
  · cases h
    exact .kept (.refl s)

/-- Every operation of the opcode table has one of the listed effects. -/
theorem exec_linkEffect {i : Instr} {s t : State} (h : exec i s = .next t) : LinkEffect s i t := by
  by_cases hd : i = .endShape ∨ isField i = true
  · rw [exec_eq_execDescriptor hd] at h
    exact .kept (execDescriptor_linkKept hd h)
  · cases i
    case rxbyte b => cases h; exact .rxbyte b
    case tick => cases h; exact .tick
    case rxbyteTick b => cases h; exact .rxbyteTick b
    case flush => cases h; exact .flush
    case noevent => cases h; exact .kept (.refl s)
    case nop => cases h; exact .kept (.refl s)
    case pack => exact .kept (execPack_linkKept h)
    case unpack => exact .kept (execUnpack_linkKept h)
    case encode => exact execEncode_linkEffect h
    case send => exact execSend_linkEffect h
    case decode => exact execDecode_linkEffect h
    case txbyte => exact execTxbyte_linkEffect h
    case clrx => cases h; exact .kept (linkKept_cpp _ s)
    case softreset => cases h; exact .softreset
    case reservedCmd => cases h; exact .kept (linkKept_refuse _ s)
    case csum =>
      cases h
      exact .kept (.of_memory_eq rfl rfl rfl rfl rfl (.inl rfl) rfl rfl rfl)
    case rxpop =>
      simp only [exec, execRxpop] at h
      split at h <;> cases h
      · exact .kept (.of_memory_eq rfl rfl rfl rfl rfl (.inl rfl) rfl rfl rfl)
      · exact .kept (linkKept_refuse _ s)
    case rxen =>
      simp only [exec, execRxen] at h
      split at h <;> cases h
      · exact .kept (.refl s)
      · exact .rxen
    case rxdis =>
      simp only [exec, execRxdis] at h
      split at h <;> cases h
      · exact .rxdis
      · exact .kept (.refl s)
    case cmdtabEntry start code =>
      cases h
      split
      · exact .kept (linkKept_cpp _ s)
      · exact .kept (.refl s)
    case endShape => exact absurd (.inl rfl) hd
    all_goals exact absurd (.inr rfl) hd

end Sys2Proof.Machine
end

