-- ==== Sys2Proof/Proofs/Invariant.lean ====
section
/-! PROOF. Proofs/Invariant.lean: every step keeps `MachineInv`. -/

namespace Sys2Proof.Machine

/-! ## The parts of the invariant -/

theorem FrameInTxb.congr {s t : State} (h : FrameInTxb s) (hl : t.tx.txLen = s.tx.txLen)
    (hb : ∀ a, txbBase ≤ a → a < txbBase + 267 → byteAt t a = byteAt s a) : FrameInTxb t := by
  obtain ⟨hlen, hval⟩ := h
  have hn := (byteAt s (txbBase + 9)).isLt
  have hbytes : bytesAt t txbBase s.tx.txLen.toNat = bytesAt s txbBase s.tx.txLen.toNat :=
    bytesAt_congr (fun a h1 h2 => hb a h1 (by omega))
  unfold FrameInTxb
  rw [hl, hbytes, hb (txbBase + 9) (by omega) (by omega)]
  exact ⟨hlen, hval⟩

theorem BeyondRxKept.txInv {s t : State} (k : BeyondRxKept s t) (h : TxInv s) : TxInv t := by
  obtain ⟨hframe, hnone, hbusy⟩ := h
  unfold TxInv
  rw [k.tx]
  exact ⟨fun he => (hframe he).congr (by rw [k.tx]) k.txb, hnone, hbusy⟩

theorem BeyondRxKept.codeInv {s t : State} (k : BeyondRxKept s t) (h : CodeInv s) : CodeInv t := by
  obtain ⟨hcode, hlen, hop⟩ := h
  unfold CodeInv
  rw [k.rxerrCode, k.rxerrLen]
  exact ⟨hcode, hlen, k.opCode.elim (fun e => e ▸ hop) id⟩

theorem BeyondRxKept.machineInv {s t : State} (k : BeyondRxKept s t) (h : MachineInv s) (hrx : RxInv t) :
    MachineInv t := by
  obtain ⟨hmem, -, htx, hcode⟩ := h
  exact ⟨k.mem hmem, hrx, k.txInv htx, k.codeInv hcode⟩

theorem RxInv.congr {s t : State} (h : RxInv s) (hfd : t.fd = s.fd) (hfq : t.fq = s.fq) : RxInv t := by
  unfold RxInv
  rw [hfd, hfq]
  exact h

theorem MachineInv.rxInv {s : State} (h : MachineInv s) : RxInv s := h.2.1

theorem LinkKept.machineInv {s t : State} (k : LinkKept s t) (h : MachineInv s) : MachineInv t :=
  k.toBeyondRxKept.machineInv h (h.rxInv.congr k.fd k.fq)

/-! ## The delimiter -/

theorem rxInv_flushAcc {s : State} (h : RxInv s) : RxInv (flushAcc s) := by
  obtain ⟨hlen, hovf, hict, hoff, hq, hok⟩ := h
  by_cases ha : s.fd.acc = []
  · rw [flushAcc_of_empty ha]
    exact ⟨hlen, hovf, fun _ => rfl, hoff, hq, hok⟩
  · by_cases hroom : s.fq.length < 4
    · rw [flushAcc_of_room ha hroom]
      refine ⟨Nat.zero_le _, nofun, fun _ => rfl, fun _ => rfl, ?_, fun c hc => ?_⟩
      · simpa [Config.fqDepth] using hroom
      · rcases List.mem_append.mp hc with hc | hc
        · exact hok c hc
        · obtain rfl := List.mem_singleton.mp hc
          exact ⟨List.length_pos_of_ne_nil ha, hlen, hovf⟩
    · rw [flushAcc_of_full ha (Nat.le_of_not_lt hroom)]
      exact ⟨Nat.zero_le _, nofun, fun _ => rfl, fun _ => rfl, hq, hok⟩

theorem rxInv_appendByte (b : Byte) {s : State} (h : RxInv s) (he : s.fd.rxEn = true) : RxInv (appendByte b s) := by
  obtain ⟨hlen, hovf, hict, hoff, hq, hok⟩ := h
  have hon : s.fd.rxEn ≠ false := by simp [he]
  by_cases hl : s.fd.acc.length < 512
  · rw [appendByte_of_room b hl]
    refine ⟨by simpa [Config.accCap] using hl, fun ho => ?_, fun _ => rfl, fun hf => absurd hf hon, hq, hok⟩
    exact absurd (hovf ho) (Nat.ne_of_lt hl)
  · rw [appendByte_of_full b (Nat.le_of_not_lt hl)]
    exact ⟨hlen, fun _ => Nat.le_antisymm hlen (Nat.le_of_not_lt hl), fun _ => rfl, hoff, hq, hok⟩

theorem machineInv_flushAcc {s : State} (h : MachineInv s) : MachineInv (flushAcc s) :=
  (beyondRxKept_flushAcc s).machineInv h (rxInv_flushAcc h.rxInv)

theorem machineInv_appendByte (b : Byte) {s : State} (h : MachineInv s) (he : s.fd.rxEn = true) :
    MachineInv (appendByte b s) :=
  (beyondRxKept_appendByte b s).machineInv h (rxInv_appendByte b h.rxInv he)

theorem machineInv_rxByte (b : Byte) {s : State} (h : MachineInv s) : MachineInv (rxByte b s) := by
  rcases rxByte_cases b s with hr | ⟨he, hr⟩ | ⟨he, hr⟩
  · rw [hr]; exact h
  · rw [hr]; exact machineInv_appendByte b h he
  · rw [hr]; exact machineInv_appendByte b (machineInv_flushAcc h) ((flushAcc_fd s).2.2.trans he)

/-- The timer of an open accumulation may stand anywhere. -/
theorem machineInv_ict (k : BitVec 16) {s : State} (h : MachineInv s) (ha : s.fd.acc ≠ []) :
    MachineInv { s with fd := { s.fd with ict := k } } := by
  obtain ⟨hmem, ⟨hlen, hovf, -, hoff, hq, hok⟩, htx, hcode⟩ := h
  exact ⟨hmem, ⟨hlen, hovf, fun hn => absurd hn ha, hoff, hq, hok⟩, htx, hcode⟩

theorem machineInv_fdTick {s : State} (h : MachineInv s) : MachineInv (fdTick s) := by
  rcases fdTick_cases s with ht | ⟨_, ha, ht | ht⟩
  · rw [ht]; exact h
  · rw [ht]; exact machineInv_ict _ h ha
  · rw [ht]; exact machineInv_flushAcc (machineInv_ict _ h ha)

/-- While a frame is sent the guard is at rest, and a tick leaves it there. -/
theorem machineInv_guardTick {s : State} (h : MachineInv s) : MachineInv (guardTick s) := by
  obtain ⟨hmem, hrx, ⟨hframe, hnone, hbusy⟩, hcode⟩ := h
  rw [guardTick_eq_guardAt]
  refine ⟨hmem, hrx, ⟨hframe, hnone, fun hb => ?_⟩, hcode⟩
  obtain ⟨he, hi, hg⟩ := hbusy hb
  exact ⟨he, hi, by simp [guardAt, guardNext, hg]⟩

theorem machineInv_lineTick {s : State} (h : MachineInv s) : MachineInv (lineTick s) :=
  machineInv_fdTick (machineInv_guardTick h)

theorem machineInv_rxen {s : State} (h : MachineInv s) :
    MachineInv { s with fd := { rxEn := true, acc := [], accOvf := false, ict := 0 } } := by
  obtain ⟨hmem, ⟨-, -, -, -, hq, hok⟩, htx, hcode⟩ := h
  exact ⟨hmem, ⟨Nat.zero_le _, nofun, fun _ => rfl, nofun, hq, hok⟩, htx, hcode⟩

theorem machineInv_rxdis {s : State} (h : MachineInv s) :
    MachineInv { flushAcc s with fd := { (flushAcc s).fd with rxEn := false } } := by
  obtain ⟨hmem, ⟨hlen, hovf, hict, -, hq, hok⟩, htx, hcode⟩ := machineInv_flushAcc h
  exact ⟨hmem, ⟨hlen, hovf, hict, fun _ => (flushAcc_fd s).1, hq, hok⟩, htx, hcode⟩

/-! ## DECODE -/

theorem rxErrorCode_mem (e : RxError) : rxErrorCode e ∈ ([0x00, 0x01, 0x02, 0x03] : List Byte) := by
  cases e <;> decide

theorem machineInv_rxErrorEntry (e : RxError) {len : Nat} {s : State} (h : MachineInv s) (hl : len ≤ 512) :
    MachineInv (rxErrorEntry e len s) := by
  obtain ⟨hmem, hrx, htx, -, -, hop⟩ := h
  rw [rxErrorEntry_eq]
  refine ⟨hmem, hrx, htx, ?_, ?_, hop⟩
  · rw [rxErrorEntry_log]
    exact rxErrorCode_mem e
  · rw [rxErrorEntry_log]
    exact (Nat.mod_le len (2 ^ 10)).trans hl

theorem machineInv_tail_of_queue {s : State} {c : Candidate} {rest : List Candidate} (h : MachineInv s)
    (hq : s.fq = c :: rest) : MachineInv { s with fq := rest } := by
  obtain ⟨hmem, ⟨hlen, hovf, hict, hoff, hcap, hok⟩, htx, hcode⟩ := h
  rw [hq] at hcap hok
  exact ⟨hmem, ⟨hlen, hovf, hict, hoff, Nat.le_of_succ_le hcap, fun d hd => hok d (List.mem_cons_of_mem c hd)⟩,
    htx, hcode⟩

theorem machineInv_decode {s : State} {c : Candidate} {rest : List Candidate} (h : MachineInv s)
    (hq : s.fq = c :: rest) : MachineInv (judge c.bytes { s with fq := rest }) := by
  have hu := machineInv_tail_of_queue h hq
  obtain ⟨-, ⟨-, -, -, -, -, hok⟩, -, -⟩ := h
  have hc : c.bytes.length ≤ 512 := (hok c (by simp [hq])).2.1
  rcases judge_cases c.bytes { s with fq := rest } with ⟨e, hj⟩ | hj
  · rw [hj]; exact machineInv_rxErrorEntry e hu hc
  · rw [hj]; exact (linkKept_deliver c.bytes _).machineInv hu

/-! ## The transmit unit -/

theorem encodedFrame_length (s : State) : (encodedFrame s).length = 12 + s.cpp.plen.toNat := by
  simp only [encodedFrame, frameBody, headerBytes, List.length_append, List.length_cons, List.length_nil,
    bytesAt_length]
  omega

theorem encodedFrame_getD_nine (s : State) : (encodedFrame s).getD 9 0 = s.cpp.plen := by
  simp [encodedFrame, frameBody, headerBytes]

theorem byteAt_frameStaged (s : State) (a : Nat) :
    byteAt (frameStaged s) a = byteAt (store txbBase (encodedFrame s) s) a := byteAt_of_parts rfl rfl rfl a

theorem frameStaged_txLen (s : State) : (frameStaged s).tx.txLen.toNat = 12 + s.cpp.plen.toNat := by
  have hp := s.cpp.plen.isLt
  exact Nat.mod_eq_of_lt (by omega)

theorem frameInTxb_frameStaged (s : State) : FrameInTxb (frameStaged s) := by
  have hlen := encodedFrame_length s
  have hframe : bytesAt (frameStaged s) txbBase (12 + s.cpp.plen.toNat) = encodedFrame s := by
    rw [bytesAt_congr (fun a _ _ => byteAt_frameStaged s a), ← hlen, bytesAt_store_self]
  refine ⟨?_, ?_⟩
  · rw [byteAt_frameStaged, byteAt_store, if_pos (by omega), Nat.add_sub_cancel_left, encodedFrame_getD_nine]
    exact frameStaged_txLen s
  · rw [frameStaged_txLen, hframe]
    exact validates_append_csum (frameBody s)

theorem machineInv_encode {s : State} (h : MachineInv s) (hb : s.tx.txBusy = false) : MachineInv (frameStaged s) := by
  obtain ⟨hmem, hrx, -, hcode⟩ := h
  have hp := s.cpp.plen.isLt
  have hlen := encodedFrame_length s
  refine ⟨memInv_store hmem (fun a h1 h2 => mapped_txb h1 ?_), hrx,
    ⟨fun _ => frameInTxb_frameStaged s, nofun, fun hbusy => ?_⟩, hcode⟩
  · unfold txbBase at h2
    omega
  · cases hb.symm.trans hbusy

theorem FrameInTxb.txLen_pos {s : State} (h : FrameInTxb s) : 0 < s.tx.txLen.toNat := by
  have := h.1
  omega

theorem machineInv_send {s : State} (h : MachineInv s) (he : s.tx.encValid = true) (hg : s.tx.txg = 0) :
    MachineInv { s with tx := { s.tx with txBusy := true, txIdx := 0 } } := by
  obtain ⟨hmem, hrx, ⟨hframe, hnone, -⟩, hcode⟩ := h
  exact ⟨hmem, hrx, ⟨hframe, hnone, fun _ => ⟨he, (hframe he).txLen_pos, hg⟩⟩, hcode⟩

/-- A byte that is not the last leaves the index below the frame's length. -/
theorem machineInv_txbyte {s : State} (h : MachineInv s) (hb : s.tx.txBusy = true)
    (hi : s.tx.txIdx + 1 ≠ s.tx.txLen) : MachineInv (handedOver s) := by
  obtain ⟨hmem, hrx, ⟨hframe, hnone, hbusy⟩, hcode⟩ := h
  obtain ⟨he, hlt, hg⟩ := hbusy hb
  have hnext : (s.tx.txIdx + 1).toNat < s.tx.txLen.toNat := by bv_omega
  exact ⟨hmem, hrx, ⟨hframe, hnone, fun _ => ⟨he, hnext, hg⟩⟩, hcode⟩

theorem machineInv_txlast {s : State} (h : MachineInv s) : MachineInv (endFrame (handedOver s)) := by
  obtain ⟨hmem, hrx, ⟨hframe, hnone, -⟩, hcode⟩ := h
  exact ⟨hmem, hrx, ⟨hframe, hnone, nofun⟩, hcode⟩

/-! ## The resets -/

/-- A state whose receive side, transmit side and error registers are at their reset values. -/
theorem machineInv_of_reset {t : State} (hm : MemInv t) (hfd : t.fd = State.reset.fd) (hfq : t.fq = [])
    (htx : t.tx = State.reset.tx) (hlog : t.log = State.reset.log) (hop : t.op = State.reset.op) : MachineInv t := by
  refine ⟨hm, ?_, ?_, ?_⟩
  · unfold RxInv
    rw [hfd, hfq]
    exact ⟨Nat.zero_le _, nofun, fun _ => rfl, fun _ => rfl, Nat.zero_le _, nofun⟩
  · unfold TxInv
    rw [htx]
    exact ⟨nofun, fun _ => rfl, nofun⟩
  · unfold CodeInv
    rw [hlog, hop]
    decide

theorem machineInv_softReset {s : State} (h : MachineInv s) : MachineInv (softReset s) := by
  obtain ⟨⟨hwf, hmap⟩, -⟩ := h
  exact machineInv_of_reset ⟨Memory.wf_forgetBelow hwf _, Memory.allMapped_forgetBelow hmap _⟩ rfl rfl rfl rfl rfl

theorem machineInv_hardReset (s : State) : MachineInv (hardReset s) :=
  machineInv_of_reset ⟨Memory.wf_nil, Memory.allMapped_nil⟩ rfl rfl rfl rfl rfl

/-! ## Operations and steps -/

theorem LinkEffect.machineInv {i : Instr} {s t : State} (e : LinkEffect s i t) (h : MachineInv s) : MachineInv t := by
  cases e with
  | kept k => exact k.machineInv h
  | rxbyte b => exact machineInv_rxByte b h
  | tick => exact machineInv_lineTick h
  | rxbyteTick b => exact machineInv_lineTick (machineInv_rxByte b h)
  | flush => exact machineInv_flushAcc h
  | rxen => exact machineInv_rxen h
  | rxdis => exact machineInv_rxdis h
  | softreset => exact machineInv_softReset h
  | decode c rest hv hq => exact machineInv_decode h hq
  | encode hb => exact machineInv_encode h hb
  | send he hg => exact machineInv_send h he hg
  | txbyte hb hi => exact machineInv_txbyte h hb hi
  | txlast hb => exact machineInv_txlast h

/-- Every operation keeps the invariant, whether or not a step can select it. -/
theorem exec_machineInv {i : Instr} {s t : State} (hs : MachineInv s) (h : exec i s = .next t) : MachineInv t :=
  (exec_linkEffect h).machineInv hs

/-- Everything a step can do, by the action it takes. -/
theorem step_cases {s t : State} (h : step s = .next t) :
    (∃ i, nextAction s = .run i ∧ exec i (takeEvent s) = .next t)
    ∨ (∃ off, nextAction s = .read off ∧ t = hostRead off (takeEvent s))
    ∨ (∃ off w, nextAction s = .write off w ∧ t = hostWrite off w (takeEvent s))
    ∨ (nextAction s = .reset ∧ t = hardReset (takeEvent s)) := by
  unfold step at h
  cases ha : nextAction s with
  | run i => rw [ha] at h; exact .inl ⟨i, rfl, h⟩
  | read off => rw [ha] at h; cases h; exact .inr (.inl ⟨off, rfl, rfl⟩)
  | write off w => rw [ha] at h; cases h; exact .inr (.inr (.inl ⟨off, w, rfl, rfl⟩))
  | reset => rw [ha] at h; cases h; exact .inr (.inr (.inr ⟨rfl, rfl⟩))

end Sys2Proof.Machine

namespace Sys2Proof.Proofs
open Sys2Proof.Machine

/-- Settles O7: by the action of the step, and for an operation by its effect on the parts of the invariant. -/
theorem everyStepKeepsTheInvariant : Obligations.EveryStepKeepsTheInvariant := by
  intro s t hs h
  have htaken : MachineInv (takeEvent s) := (linkKept_takeEvent s).machineInv hs
  rcases step_cases h with ⟨i, -, hi⟩ | ⟨off, -, rfl⟩ | ⟨off, w, -, rfl⟩ | ⟨-, rfl⟩
  · exact exec_machineInv htaken hi
  · exact (linkKept_hostRead off _).machineInv htaken
  · exact (linkKept_hostWrite off w _).machineInv htaken
  · exact machineInv_hardReset _

end Sys2Proof.Proofs
end

