-- ==== Sys2Proof/Proofs/FrameQueue.lean ====
section
/-! PROOF. Proofs/FrameQueue.lean: what a step does to the frame queue (10_state.md R12, 40_delimiter.md R94). -/

namespace Sys2Proof.Machine

/-! ## Appending -/

/-- `q'` is `q`, or `q` with at most `n` candidates after it and no more than FQ_DEPTH in all. -/
def Appended (n : Nat) (q q' : List Candidate) : Prop :=
  q' = q ∨ ∃ cs, q' = q ++ cs ∧ cs.length ≤ n ∧ q'.length ≤ 4

theorem Appended.refl (n : Nat) (q : List Candidate) : Appended n q q := .inl rfl

theorem Appended.trans {m n : Nat} {q q' q'' : List Candidate} (h : Appended m q q') (k : Appended n q' q'') :
    Appended (m + n) q q'' := by
  rcases h with rfl | ⟨cs, rfl, hc, h4⟩
  · rcases k with rfl | ⟨ds, hq, hd, h4⟩
    · exact .refl _ _
    · exact .inr ⟨ds, hq, by omega, h4⟩
  · rcases k with rfl | ⟨ds, rfl, hd, h4'⟩
    · exact .inr ⟨cs, rfl, by omega, h4⟩
    · exact .inr ⟨cs ++ ds, List.append_assoc q cs ds, by simp; omega, h4'⟩

theorem Appended.mono {m n : Nat} {q q' : List Candidate} (h : Appended m q q') (hmn : m ≤ n) : Appended n q q' :=
  h.imp id (fun ⟨cs, hq, hc, h4⟩ => ⟨cs, hq, hc.trans hmn, h4⟩)

theorem appended_flushAcc (s : State) : Appended 1 s.fq (flushAcc s).fq := by
  by_cases ha : s.fd.acc = []
  · rw [flushAcc_of_empty ha]
    exact .refl 1 s.fq
  · by_cases hq : s.fq.length < 4
    · rw [flushAcc_of_room ha hq]
      exact .inr ⟨_, rfl, Nat.le_refl 1, by simpa using hq⟩
    · rw [flushAcc_of_full ha (Nat.le_of_not_lt hq)]
      exact .refl 1 s.fq

theorem appendByte_fq (b : Byte) (s : State) : (appendByte b s).fq = s.fq := by
  unfold appendByte
  split <;> rfl

theorem appended_rxByte (b : Byte) (s : State) : Appended 1 s.fq (rxByte b s).fq := by
  rcases rxByte_cases b s with h | ⟨_, h⟩ | ⟨_, h⟩
  · rw [h]; exact .refl 1 s.fq
  · rw [h, appendByte_fq]; exact .refl 1 s.fq
  · rw [h, appendByte_fq]; exact appended_flushAcc s

theorem appended_lineTick (s : State) : Appended 1 s.fq (lineTick s).fq := by
  have hg : (guardTick s).fq = s.fq := by rw [guardTick_eq_guardAt]; rfl
  rw [← hg, lineTick]
  rcases fdTick_cases (guardTick s) with h | ⟨_, _, h | h⟩
  · rw [h]; exact .refl 1 _
  · rw [h]; exact .refl 1 _
  · rw [h]; exact appended_flushAcc { guardTick s with fd := _ }

/-! ## What an operation does to the queue -/

/-- The operations that can close an accumulation (40_delimiter.md R94). -/
def closesAccumulation : Instr → Bool
  | .rxbyte _ | .tick | .rxbyteTick _ | .flush | .rxdis => true
  | _ => false

/-- The queue after an operation: as it was, appended to, without its head, or empty. -/
theorem LinkEffect.fq_cases {i : Instr} {s t : State} (e : LinkEffect s i t) :
    t.fq = s.fq
    ∨ (closesAccumulation i = true ∧ Appended 2 s.fq t.fq)
    ∨ (i = .decode ∧ s.dec.rxpValid = false ∧ ∃ c, s.fq = c :: t.fq)
    ∨ (i = .softreset ∧ t.fq = []) := by
  cases e with
  | kept k => exact .inl k.fq
  | rxbyte b => exact .inr (.inl ⟨rfl, (appended_rxByte b s).mono (by decide)⟩)
  | tick => exact .inr (.inl ⟨rfl, (appended_lineTick s).mono (by decide)⟩)
  | rxbyteTick b => exact .inr (.inl ⟨rfl, (appended_rxByte b s).trans (appended_lineTick (rxByte b s))⟩)
  | flush => exact .inr (.inl ⟨rfl, (appended_flushAcc s).mono (by decide)⟩)
  | rxdis => exact .inr (.inl ⟨rfl, (appended_flushAcc s).mono (by decide)⟩)
  | softreset => exact .inr (.inr (.inr ⟨rfl, rfl⟩))
  | decode c rest hv hq => exact .inr (.inr (.inl ⟨rfl, hv, c, by rw [judge_fq]; exact hq⟩))
  | rxen => exact .inl rfl
  | encode => exact .inl rfl
  | send => exact .inl rfl
  | txbyte => exact .inl rfl
  | txlast => exact .inl rfl

/-! ## Where an action comes from -/

theorem registerMap_cmd : ∀ p ∈ registerMap, p.2 = .cmd → p.1 = 0x040 := by decide

theorem regAt_eq_cmd {a : Nat} (h : regAt a = some .cmd) : a = 0x040 := by
  unfold regAt at h
  cases hl : registerMap.lookup a with
  | some l =>
    rw [hl] at h
    cases h
    obtain ⟨l₁, l₂, he, -⟩ := List.lookup_eq_some_iff.mp hl
    exact registerMap_cmd (a, .cmd) (by rw [he]; simp) rfl
  | none =>
    rw [hl] at h
    simp only at h
    split at h
    · cases h
    · split at h <;> cases h

/-- CMD stands at one offset only (10_state.md R30). -/
theorem locAt_eq_cmd {off : BitVec 16} (h : locAt off = some .cmd) : off = 0x040 := by
  unfold locAt at h
  simp only at h
  split at h
  · cases h
  · split at h
    · cases h
    · split at h
      · cases h
      · split at h
        · cases h
        · split at h
          · cases h
          · exact BitVec.eq_of_toNat_eq (regAt_eq_cmd h)

theorem decodeLine_cases (w : BitVec 10) :
    decodeLine w = .noevent ∨ decodeLine w = .tick
    ∨ ∃ b, decodeLine w = .rxbyte b ∨ decodeLine w = .rxbyteTick b := by
  simp only [decodeLine]
  split
  · split
    · exact .inr (.inr ⟨_, .inr rfl⟩)
    · exact .inr (.inl rfl)
  · split
    · exact .inr (.inr ⟨_, .inl rfl⟩)
    · exact .inl rfl

/-- The host command that closes an accumulation is RXDIS, and DEC's step is no host command. -/
theorem decodeCmd_closes (w : Word) :
    (closesAccumulation (decodeCmd w) = true → decodeCmd w = .rxdis) ∧ decodeCmd w ≠ .decode := by
  unfold decodeCmd
  split <;> simp [closesAccumulation]

/-- The events that make the block run an operation, with the operation each of them runs. -/
theorem pending_of_run {s : State} {i : Instr} (h : nextAction s = .run i) :
    (s.env.pending = [] ∧ (i = .decode ∨ i = .noevent))
    ∨ ∃ rest, (∃ w, s.env.pending = .sample w :: rest ∧ i = decodeLine w)
      ∨ (∃ w, s.env.pending = .hostWrite 0x040 w :: rest ∧ i = decodeCmd w)
      ∨ (s.env.pending = .decTurn :: rest ∧ i = .decode)
      ∨ (s.env.pending = .txReady :: rest ∧ i = .txbyte) := by
  unfold nextAction at h
  cases hp : s.env.pending with
  | nil =>
    rw [hp] at h
    simp only at h
    split at h <;> cases h
    · exact .inl ⟨rfl, .inl rfl⟩
    · exact .inl ⟨rfl, .inr rfl⟩
  | cons e rest =>
    rw [hp] at h
    refine .inr ⟨rest, ?_⟩
    cases e with
    | sample w => cases h; exact .inl ⟨w, rfl, rfl⟩
    | hostRead off => cases h
    | hostWrite off w =>
      simp only [actionOf] at h
      split at h <;> cases h
      rename_i hl
      exact .inr (.inl ⟨w, by rw [locAt_eq_cmd hl], rfl⟩)
    | decTurn => cases h; exact .inr (.inr (.inl ⟨rfl, rfl⟩))
    | txReady => cases h; exact .inr (.inr (.inr ⟨rfl, rfl⟩))
    | rst => cases h

theorem pending_of_reset {s : State} (h : nextAction s = .reset) : ∃ rest, s.env.pending = .rst :: rest := by
  unfold nextAction at h
  cases hp : s.env.pending with
  | nil => rw [hp] at h; simp only at h; split at h <;> cases h
  | cons e rest =>
    rw [hp] at h
    cases e with
    | rst => exact ⟨rest, rfl⟩
    | hostWrite off w => simp only [actionOf] at h; split at h <;> cases h
    | sample w => cases h
    | hostRead off => cases h
    | decTurn => cases h
    | txReady => cases h

/-- An accumulation is closed at a sample or at RXDIS. -/
theorem pending_of_closes {s : State} {i : Instr} (h : nextAction s = .run i) (hc : closesAccumulation i = true) :
    ∃ rest, (∃ w, s.env.pending = .sample w :: rest)
      ∨ ∃ w, s.env.pending = .hostWrite 0x040 w :: rest ∧ decode (.cmd w) = .ok .rxdis := by
  rcases pending_of_run h with
    ⟨_, rfl | rfl⟩ | ⟨rest, ⟨w, hp, rfl⟩ | ⟨w, hp, rfl⟩ | ⟨_, rfl⟩ | ⟨_, rfl⟩⟩
  · cases hc
  · cases hc
  · exact ⟨rest, .inl ⟨w, hp⟩⟩
  · exact ⟨rest, .inr ⟨w, hp, congrArg Except.ok ((decodeCmd_closes w).1 hc)⟩⟩
  · cases hc
  · cases hc

/-- DEC goes when it is given its turn, or when nothing is pending (log 2). -/
theorem pending_of_decode {s : State} (h : nextAction s = .run .decode) :
    s.env.pending = [] ∨ ∃ rest, s.env.pending = .decTurn :: rest := by
  rcases pending_of_run h with
    ⟨hp, _⟩ | ⟨rest, ⟨w, _, hw⟩ | ⟨w, _, hw⟩ | ⟨hp, _⟩ | ⟨_, hi⟩⟩
  · exact .inl hp
  · rcases decodeLine_cases w with e | e | ⟨b, e | e⟩ <;> rw [e] at hw <;> cases hw
  · exact absurd hw.symm (decodeCmd_closes w).2
  · exact .inr ⟨rest, hp⟩
  · cases hi

theorem pending_of_softreset {s : State} (h : nextAction s = .run .softreset) :
    ∃ rest w, s.env.pending = .hostWrite 0x040 w :: rest ∧ decode (.cmd w) = .ok .softreset := by
  rcases pending_of_run h with
    ⟨_, hi | hi⟩ | ⟨rest, ⟨w, _, hw⟩ | ⟨w, hp, hw⟩ | ⟨_, hi⟩ | ⟨_, hi⟩⟩
  · cases hi
  · cases hi
  · rcases decodeLine_cases w with e | e | ⟨b, e | e⟩ <;> rw [e] at hw <;> cases hw
  · exact ⟨rest, w, hp, congrArg Except.ok hw.symm⟩
  · cases hi
  · cases hi

end Sys2Proof.Machine

namespace Sys2Proof.Proofs
open Sys2Proof.Machine

/-- Settles O59: by the action of the step, and for an operation by its effect on the queue and the event it
comes from. -/
theorem frameQueueIsFirstInFirstOut : Obligations.FrameQueueIsFirstInFirstOut := by
  intro s t h
  rcases step_cases h with ⟨i, hn, hi⟩ | ⟨off, -, rfl⟩ | ⟨off, w, -, rfl⟩ | ⟨hn, rfl⟩
  · rcases (exec_linkEffect hi).fq_cases with
      hq | ⟨hc, hq | ⟨cs, hq, hl, h4⟩⟩ | ⟨rfl, hv, c, hq⟩ | ⟨rfl, hq⟩
    · exact .inl hq
    · exact .inl hq
    · exact .inr (.inl ⟨cs, hq, hl, h4, pending_of_closes hn hc⟩)
    · exact .inr (.inr (.inl ⟨c, hq, hv, pending_of_decode hn⟩))
    · obtain ⟨rest, hw⟩ := pending_of_softreset hn
      exact .inr (.inr (.inr ⟨hq, rest, .inr hw⟩))
  · exact .inl rfl
  · exact .inl (linkKept_hostWrite off w (takeEvent s)).fq
  · obtain ⟨rest, hp⟩ := pending_of_reset hn
    exact .inr (.inr (.inr ⟨rfl, rest, .inl hp⟩))

end Sys2Proof.Proofs
end

/-! PROOF. DECODE, TXBYTE, the resets, the lookup and the step, case by case (10_state.md R10, R23, R34). -/

namespace Sys2Proof.Machine

/-! ## DECODE and TXBYTE, case by case (42_codec.md R124, R125, R130) -/

theorem execDecode_of_full {s : State} (h : s.dec.rxpValid = true) : execDecode s = .next s := by
  simp [execDecode, h]

theorem execDecode_of_empty {s : State} (h : s.fq = []) : execDecode s = .next s := by
  simp [execDecode, h]

theorem execDecode_of_head {s : State} {c : Candidate} {rest : List Candidate} (hv : s.dec.rxpValid = false)
    (hq : s.fq = c :: rest) : execDecode s = .next (judge c.bytes { s with fq := rest }) := by
  simp [execDecode, hv, hq]

theorem execTxbyte_of_idle {s : State} (h : s.tx.txBusy = false) : execTxbyte s = .next s := by
  simp [execTxbyte, h]

theorem execTxbyte_of_busy {s : State} (h : s.tx.txBusy = true) :
    execTxbyte s =
      .next (if s.tx.txIdx + 1 = s.tx.txLen then endFrame (handedOver s) else handedOver s) := by
  simp [execTxbyte, h, handedOver]

/-- DECODE of a valid frame (42_codec.md R124). -/
theorem judge_of_valid {f : List Byte} {n : Nat} (s : State) (hl : f.length = 12 + n) (hn : (f.getD 9 0).toNat = n)
    (hc : f.drop (10 + n) = [(csum (f.take (10 + n))).1, (csum (f.take (10 + n))).2]) : judge f s = deliver f s := by
  have h2 : f.length - 2 = 10 + n := by omega
  have hvalid : validates f = true := (validates_iff (by omega)).mpr (by rw [h2]; exact hc)
  have hnone : frameError f = none := by rw [frameError_eq_of_length (by omega) (by omega), if_pos hvalid]
  simp [judge, hnone]

/-! ## The resets (10_state.md R34) -/

/-- Hard reset leaves CMDTAB all 0. -/
theorem byteAt_hardReset_of_cmdtab (s : State) {a : Nat} (h : 0x1400 ≤ a ∧ a < 0x1600) :
    byteAt (hardReset s) a = 0 := by
  have hun : unlisted a = some 0 := if_pos (inWindow_cmdtab.mpr h)
  have hmem : (hardReset s).mem = [] := rfl
  simp [byteAt, hmem, Memory.read?, hun]

theorem wordAt_eq_zero {s : State} {a : Nat} (h : ∀ b, a ≤ b → b < a + 4 → byteAt s b = 0) : wordAt s a = 0 := by
  simp only [wordAt]
  rw [h _ (by omega) (by omega), h _ (by omega) (by omega), h _ (by omega) (by omega), h _ (by omega) (by omega)]
  rfl

/-- SOFTRESET keeps the bytes of SHM, CMDTAB and ESET. -/
theorem byteAt_softReset (s : State) {a : Nat} (h : 0x1000 ≤ a) : byteAt (softReset s) a = byteAt s a := by
  have hread : Memory.read? (softReset s).mem a = Memory.read? s.mem a := Memory.read?_forgetBelow h
  have hfill : ¬ a < shmBase := Nat.not_lt.mpr h
  simp only [byteAt, hread, fillByte, if_neg hfill]
  rfl

/-! ## The catalogue -/

/-- A lookup passes over a word that is no entry of the code. -/
theorem entryStart_eq_none {w : Word} {code : BitVec 16} :
    entryStart w code = none ↔ ∀ st, decode (.entry w) ≠ .ok (.cmdtabEntry st code) := by
  simp only [Option.eq_none_iff_forall_ne_some, ne_eq, entryStart_eq_some]

/-! ## The step, by the event it takes -/

theorem nextAction_of_event {s : State} {e : Event} {rest : List Event} (h : s.env.pending = e :: rest) :
    nextAction s = actionOf e := by
  simp [nextAction, h]

theorem takeEvent_eq {s : State} {rest : List Event} (h : s.env.pending.tail = rest) :
    takeEvent s = { s with env := { s.env with pending := rest, draw := s.env.draw + 1 } } := by
  subst h; rfl

theorem step_of_run {s : State} {i : Instr} (h : nextAction s = .run i) : step s = exec i (takeEvent s) := by
  simp only [step, h]

theorem step_of_read {s : State} {off : BitVec 16} {rest : List Event} (h : s.env.pending = .hostRead off :: rest) :
    step s = .next (hostRead off (takeEvent s)) := by
  simp only [step, nextAction_of_event h, actionOf]

theorem step_of_write {s : State} {off : BitVec 16} {w : Word} {rest : List Event}
    (h : s.env.pending = .hostWrite off w :: rest) (hcmd : locAt off ≠ some .cmd) :
    step s = .next (hostWrite off w (takeEvent s)) := by
  simp only [step, nextAction_of_event h, actionOf, if_neg hcmd]

theorem step_of_rst {s : State} {rest : List Event} (h : s.env.pending = .rst :: rest) :
    step s = .next (hardReset (takeEvent s)) := by
  simp only [step, nextAction_of_event h, actionOf]

/-- With nothing pending DEC goes if its guard holds (logs 1, 2). -/
theorem nextAction_of_decEnabled {s : State} (h : s.env.pending = []) (hq : s.fq ≠ []) (hv : s.dec.rxpValid = false) :
    nextAction s = .run .decode := by
  simp [nextAction, h, decEnabled, hq, hv]

/-- With nothing pending and DEC's guard false the line is quiet (logs 1, 2). -/
theorem nextAction_of_quiet {s : State} (h : s.env.pending = []) (hd : s.fq = [] ∨ s.dec.rxpValid = true) :
    nextAction s = .run .noevent := by
  rcases hd with hq | hv
  · simp [nextAction, h, decEnabled, hq]
  · simp [nextAction, h, decEnabled, hv]

end Sys2Proof.Machine

namespace Sys2Proof.Proofs
open Sys2Proof.Machine

/-- Settles O3, by the event the step takes. -/
theorem stepRunsTheDecodedInstruction : Obligations.StepRunsTheDecodedInstruction := by
  intro s rest taken
  have htaken (h : s.env.pending.tail = rest) {i : Instr} (hn : nextAction s = .run i) : step s = exec i taken := by
    rw [step_of_run hn, takeEvent_eq h]
  have hevent {e : Event} {i : Instr} (h : s.env.pending = e :: rest) (he : actionOf e = .run i) :
      step s = exec i taken :=
    htaken (by rw [h, List.tail_cons]) ((nextAction_of_event h).trans he)
  have hidle {i : Instr} (h : s.env.pending = []) (hr : rest = []) (hn : nextAction s = .run i) :
      step s = exec i taken :=
    htaken (by rw [h, hr]; rfl) hn
  refine ⟨fun w i h hd => ?sample, fun w i h hd => ?command, fun h => hevent h rfl, fun h => hevent h rfl,
    fun h hr hq hv => hidle h hr (nextAction_of_decEnabled h hq hv),
    fun h hr hd => hidle h hr (nextAction_of_quiet h hd)⟩
  case sample => cases hd; exact hevent h rfl
  case command => cases hd; exact hevent h rfl

/-- Settles O6: the reset state has empty buffers and memory, and every unit the invariant names at rest. -/
theorem resetStateIsInvariant : Obligations.ResetStateIsInvariant :=
  machineInv_of_reset ⟨Memory.wf_nil, Memory.allMapped_nil⟩ rfl rfl rfl rfl rfl

/-- Settles O8: the state after the clock is `hardReset`'s, whose memory lists nothing. -/
theorem hardResetLeavesTheResetValues : Obligations.HardResetLeavesTheResetValues := by
  intro s rest hp
  refine ⟨_, step_of_rst hp, rfl, rfl, rfl, rfl, rfl, rfl, rfl, rfl, rfl, fun e he => ?cmdtab, ?pending, rfl⟩
  case cmdtab => exact wordAt_eq_zero (fun b h1 h2 => byteAt_hardReset_of_cmdtab _ (by omega))
  case pending =>
    rw [takeEvent_eq (by rw [hp, List.tail_cons])]
    rfl

/-- Settles O20: the frame is valid, so DECODE delivers it. -/
theorem decodeDeliversAValidFrame : Obligations.DecodeDeliversAValidFrame := by
  intro s c rest n hq hv hl hn hc
  have hpayload : framePayload c.bytes = (c.bytes.drop 10).take n := congrArg ((c.bytes.drop 10).take ·) hn
  refine ⟨deliver c.bytes { s with fq := rest }, ?_, rfl, ?_⟩
  · exact (execDecode_of_head hv hq).trans (congrArg _ (judge_of_valid _ hl hn hc))
  · rw [← hpayload]
    exact stored_of_mem rfl rfl rfl

/-- Settles O29: SOFTRESET is the reset state but for what it keeps. -/
theorem softresetKeepsTheConfiguration : Obligations.SoftresetKeepsTheConfiguration := by
  intro s
  exact ⟨softReset s, rfl, rfl, rfl, rfl, rfl, rfl, rfl, rfl, rfl, rfl, fun _ h => byteAt_softReset s h, rfl, rfl⟩

/-- Settles O48: the first of the 128 words that is an entry of the code answers. -/
theorem lookupTakesTheLowestValidEntry : Obligations.LookupTakesTheLowestValidEntry := by
  refine ⟨fun s code start => ?lowest, fun s code start => ⟨fun h => ?taken, fun h => ?passed⟩⟩
  case lowest =>
    simp only [lookup_eq_some, entryStart_eq_some, entryStart_eq_none]
    exact Iff.rfl
  case taken => exact congrArg Host.Outcome.next (if_pos h)
  case passed => exact congrArg Host.Outcome.next (if_neg h)

end Sys2Proof.Proofs

/-! PROOF. Interrupts influence nothing else (60_exceptions.md R223): every operation takes states that agree but for
the interrupt registers and the bus read data to states that agree but for these. -/

namespace Sys2Proof.Machine

/-! ## States that agree but for the interrupt registers and the read data -/

/-- `s` and `u` agree but for IRQ_PEND, IRQ_EN and the bus read data. -/
def IrqAlike (s u : State) : Prop := withoutIrq s = withoutIrq u

/-- `s` with other interrupt registers and other read data. -/
def irqSet (q : Irq) (r : Word) (s : State) : State := { s with irq := q, env := { s.env with rdata := r } }

/-- Two states that agree so differ by a choice of the interrupt registers and the read data. -/
theorem IrqAlike.exists_irqSet {s u : State} (h : IrqAlike s u) : ∃ q r, u = irqSet q r s :=
  ⟨u.irq, u.env.rdata, show irqSet u.irq u.env.rdata (withoutIrq u) = irqSet u.irq u.env.rdata (withoutIrq s) from
    congrArg _ (Eq.symm h)⟩

/-- A choice made alike in both states. -/
theorem IrqAlike.ite {c : Prop} [Decidable c] {s s' u u' : State} (h : IrqAlike s u) (h' : IrqAlike s' u') :
    IrqAlike (if c then s else s') (if c then u else u') := by
  split
  · exact h
  · exact h'

/-! ## The operations on the state -/

section
variable {s u : State} (h : IrqAlike s u)
include h

theorem irqAlike_setx (i : XIndex) (w : Word) : IrqAlike (setx i w s) (setx i w u) := by
  obtain ⟨q, r, rfl⟩ := h.exists_irqSet; rfl

theorem irqAlike_advance (k : Nat) : IrqAlike (advance k s) (advance k u) := by
  obtain ⟨q, r, rfl⟩ := h.exists_irqSet; rfl

theorem irqAlike_setPc (p : Byte) : IrqAlike (setPc p s) (setPc p u) := by
  obtain ⟨q, r, rfl⟩ := h.exists_irqSet; rfl

theorem irqAlike_refuse (e : RefuseReason) : IrqAlike (refuse e s) (refuse e u) := by
  obtain ⟨q, r, rfl⟩ := h.exists_irqSet; rfl

theorem irqAlike_rxErrorEntry (e : RxError) (len : Nat) : IrqAlike (rxErrorEntry e len s) (rxErrorEntry e len u) := by
  obtain ⟨q, r, rfl⟩ := h.exists_irqSet; cases e <;> rfl

theorem irqAlike_opFaultEntry (f : OpFault) (p c : Byte) : IrqAlike (opFaultEntry f p c s) (opFaultEntry f p c u) := by
  obtain ⟨q, r, rfl⟩ := h.exists_irqSet
  cases hd : s.cpp.pkDir with
  | pack => rw [opFaultEntry_of_pack hd, opFaultEntry_of_pack (s := irqSet q r s) hd]; rfl
  | unpack => rw [opFaultEntry_of_unpack hd, opFaultEntry_of_unpack (s := irqSet q r s) hd]; rfl

theorem irqAlike_deliver (f : List Byte) : IrqAlike (deliver f s) (deliver f u) := by
  obtain ⟨q, r, rfl⟩ := h.exists_irqSet; rfl

theorem irqAlike_judge (f : List Byte) : IrqAlike (judge f s) (judge f u) := by
  unfold judge
  split
  · exact irqAlike_rxErrorEntry h _ _
  · exact irqAlike_deliver h f

theorem irqAlike_softReset : IrqAlike (softReset s) (softReset u) := by
  obtain ⟨q, r, rfl⟩ := h.exists_irqSet; rfl

theorem irqAlike_hardReset : IrqAlike (hardReset s) (hardReset u) := by
  obtain ⟨q, r, rfl⟩ := h.exists_irqSet; rfl

theorem irqAlike_takeEvent : IrqAlike (takeEvent s) (takeEvent u) := by
  obtain ⟨q, r, rfl⟩ := h.exists_irqSet; rfl

/-! ## The delimiter and the guard -/

theorem irqAlike_flushAcc : IrqAlike (flushAcc s) (flushAcc u) := by
  obtain ⟨q, r, rfl⟩ := h.exists_irqSet
  by_cases ha : s.fd.acc = []
  · rw [flushAcc_of_empty ha, flushAcc_of_empty (s := irqSet q r s) ha]; rfl
  · by_cases hq : s.fq.length < 4
    · rw [flushAcc_of_room ha hq, flushAcc_of_room (s := irqSet q r s) ha hq]; rfl
    · have hq' : 4 ≤ s.fq.length := Nat.le_of_not_lt hq
      rw [flushAcc_of_full ha hq', flushAcc_of_full (s := irqSet q r s) ha hq']; rfl

theorem irqAlike_appendByte (b : Byte) : IrqAlike (appendByte b s) (appendByte b u) := by
  obtain ⟨q, r, rfl⟩ := h.exists_irqSet
  exact IrqAlike.ite rfl rfl

theorem irqAlike_rxByte (b : Byte) : IrqAlike (rxByte b s) (rxByte b u) := by
  have hf := irqAlike_flushAcc h
  obtain ⟨q, r, rfl⟩ := h.exists_irqSet
  exact IrqAlike.ite (irqAlike_appendByte (IrqAlike.ite (c := lateByte s = true) hf h) b) h

theorem irqAlike_guardTick : IrqAlike (guardTick s) (guardTick u) := by
  obtain ⟨q, r, rfl⟩ := h.exists_irqSet
  exact IrqAlike.ite rfl rfl

theorem irqAlike_fdTick : IrqAlike (fdTick s) (fdTick u) := by
  obtain ⟨q, r, rfl⟩ := h.exists_irqSet
  have hc : IrqAlike { s with fd := { s.fd with ict := sat16Succ s.fd.ict } }
      { irqSet q r s with fd := { s.fd with ict := sat16Succ s.fd.ict } } := rfl
  exact IrqAlike.ite (IrqAlike.ite (irqAlike_flushAcc hc) hc) h

theorem irqAlike_lineTick : IrqAlike (lineTick s) (lineTick u) := irqAlike_fdTick (irqAlike_guardTick h)

/-! ## The descriptors -/

theorem irqAlike_setxs (ws : List (XIndex × Word)) : IrqAlike (setxs ws s) (setxs ws u) := by
  induction ws generalizing s u with
  | nil => exact h
  | cons w ws ih => exact ih (irqAlike_setx h w.1 w.2)

theorem irqAlike_endShape : IrqAlike (endShape s) (endShape u) := by
  obtain ⟨q, r, rfl⟩ := h.exists_irqSet
  unfold endShape
  cases hd : s.cpp.pkDir <;> simp only [irqSet, hd] <;> rfl

theorem irqAlike_unpackTail : IrqAlike (unpackTail s) (unpackTail u) := by
  obtain ⟨q, r, rfl⟩ := h.exists_irqSet; rfl

theorem irqAlike_packBytes (p : Byte) (adv : Nat) (res : Except OpFault (List Byte)) :
    IrqAlike (packBytes p adv res s) (packBytes p adv res u) := by
  obtain ⟨q, r, rfl⟩ := h.exists_irqSet
  cases res with
  | error f => exact irqAlike_opFaultEntry h f p s.cpp.cur
  | ok bs => exact IrqAlike.ite (irqAlike_opFaultEntry h .overflow p s.cpp.cur) rfl

theorem irqAlike_unpackBytes (p : Byte) (k adv : Nat) (value : List Byte → Except OpFault (List (XIndex × Word))) :
    IrqAlike (unpackBytes p k adv value s) (unpackBytes p k adv value u) := by
  obtain ⟨q, r, rfl⟩ := h.exists_irqSet
  refine IrqAlike.ite (irqAlike_opFaultEntry h .unpackUnderrun p s.cpp.cur) ?_
  show IrqAlike _ (match value (bytesAt s (rxpayBase + s.cpp.cur.toNat) k) with
    | .error f => opFaultEntry f p s.cpp.cur (irqSet q r s)
    | .ok ws => advance adv (setxs ws (irqSet q r s)))
  cases value (bytesAt s (rxpayBase + s.cpp.cur.toNat) k) with
  | error f => exact irqAlike_opFaultEntry h f p s.cpp.cur
  | ok ws => exact irqAlike_advance (irqAlike_setxs h ws) adv

theorem irqAlike_runField {pk un : Byte → State → State} (legal : Bool)
    (hpk : ∀ p {t v}, IrqAlike t v → IrqAlike (pk p t) (pk p v))
    (hun : ∀ p {t v}, IrqAlike t v → IrqAlike (un p t) (un p v)) :
    IrqAlike (runField legal pk un s) (runField legal pk un u) := by
  obtain ⟨q, r, rfl⟩ := h.exists_irqSet
  have hnext : IrqAlike (pcAdvanced s) (pcAdvanced (irqSet q r s)) := rfl
  by_cases hp : s.cpp.pc = 255
  · rw [runField_at_255 hp, runField_at_255 (s := irqSet q r s) hp]
    exact irqAlike_opFaultEntry h _ _ _
  · cases legal with
    | false =>
      rw [runField_illegal hp, runField_illegal (s := irqSet q r s) hp]
      exact irqAlike_opFaultEntry hnext _ _ _
    | true =>
      cases hd : s.cpp.pkDir with
      | pack =>
        rw [runField_pack ⟨hd, hp⟩, runField_pack (s := irqSet q r s) ⟨hd, hp⟩]
        exact hpk _ hnext
      | unpack =>
        rw [runField_unpack ⟨hd, hp⟩, runField_unpack (s := irqSet q r s) ⟨hd, hp⟩]
        exact hun _ hnext

/-- A descriptor that packs the bytes it computes from the state, and unpacks what it computes from the state and the
received bytes. -/
theorem irqAlike_field (legal : Bool) (padv k uadv : Nat) {bytes : State → Except OpFault (List Byte)}
    {value : State → List Byte → Except OpFault (List (XIndex × Word))}
    (hbytes : ∀ q r t, bytes (irqSet q r t) = bytes t) (hvalue : ∀ q r t, value (irqSet q r t) = value t) :
    IrqAlike
      (runField legal (fun p t => packBytes p padv (bytes t) t) (fun p t => unpackBytes p k uadv (value t) t) s)
      (runField legal (fun p t => packBytes p padv (bytes t) t) (fun p t => unpackBytes p k uadv (value t) t) u) := by
  refine irqAlike_runField h legal (fun p {t v} htv => ?_) (fun p {t v} htv => ?_)
  · obtain ⟨q, r, rfl⟩ := htv.exists_irqSet
    simp only [hbytes]
    exact irqAlike_packBytes htv p padv (bytes t)
  · obtain ⟨q, r, rfl⟩ := htv.exists_irqSet
    simp only [hvalue]
    exact irqAlike_unpackBytes htv p k uadv (value t)

theorem irqAlike_enum8Field (xr : XIndex) (set : BitVec 5) : IrqAlike (enum8Field xr set s) (enum8Field xr set u) :=
  irqAlike_field h true 1 1 1 (bytes := enum8Bytes xr set) (value := enum8Value xr set)
    (fun _ _ _ => rfl) (fun _ _ _ => rfl)

theorem irqAlike_twosField (xr : XIndex) (w16 le : Bool) (n : BitVec 5) :
    IrqAlike (twosField xr w16 le n s) (twosField xr w16 le n u) :=
  irqAlike_field h (twosLegal w16 n) (fieldLen w16) (fieldLen w16) (fieldLen w16) (bytes := twosBytes xr w16 le n)
    (value := fun _ => twosRead xr le n) (fun _ _ _ => rfl) (fun _ _ _ => rfl)

theorem irqAlike_fixpField (xr : XIndex) (w16 le sgn : Bool) (scale : BitVec 16) :
    IrqAlike (fixpField xr w16 le sgn scale s) (fixpField xr w16 le sgn scale u) :=
  irqAlike_field h (fixpLegal scale) (fieldLen w16) (fieldLen w16) (fieldLen w16)
    (bytes := fixpBytes xr w16 le sgn scale) (value := fixpRead xr w16 le sgn scale)
    (fun _ _ _ => rfl) (fun _ _ _ => rfl)

theorem irqAlike_bitfField (xr : XIndex) (adv : Bool) (wid : BitVec 4) (pos : BitVec 3) :
    IrqAlike (bitfField xr adv wid pos s) (bitfField xr adv wid pos u) :=
  irqAlike_field h (bitfLegal wid pos) (bitfAdvance adv) 1 (bitfAdvance adv) (bytes := bitfBytes xr wid pos)
    (value := fun _ => bitfRead xr wid pos) (fun _ _ _ => rfl) (fun _ _ _ => rfl)

theorem irqAlike_rtimerField (xr xr2 : XIndex) : IrqAlike (rtimerField xr xr2 s) (rtimerField xr xr2 u) :=
  irqAlike_field h true 1 1 1 (bytes := rtimerBytes xr xr2) (value := fun _ => rtimerRead xr xr2)
    (fun _ _ _ => rfl) (fun _ _ _ => rfl)

theorem irqAlike_tailField : IrqAlike (tailField s) (tailField u) := by
  refine irqAlike_runField h true (fun p {t v} htv => ?_) (fun p {t v} htv => irqAlike_unpackTail htv)
  have hk := irqAlike_packBytes htv p t.cpp.tailLen.toNat (.ok (bytesAt t tailBase t.cpp.tailLen.toNat))
  obtain ⟨q, r, rfl⟩ := htv.exists_irqSet
  exact hk

end

/-! ## Outcomes -/

/-- Both operations answer a next state, and the two agree but for the interrupt registers and the read data. -/
def OutcomeAlike (o p : Host.Outcome State Fault Refusal) : Prop :=
  ∃ t v, o = .next t ∧ p = .next v ∧ IrqAlike t v

theorem IrqAlike.next {s u : State} (h : IrqAlike s u) : OutcomeAlike (.next s) (.next u) := ⟨s, u, rfl, rfl, h⟩

theorem OutcomeAlike.ite {c : Prop} [Decidable c] {o o' p p' : Host.Outcome State Fault Refusal}
    (h : OutcomeAlike o p) (h' : OutcomeAlike o' p') :
    OutcomeAlike (if c then o else o') (if c then p else p') := by
  split
  · exact h
  · exact h'

section
variable {s u : State} (h : IrqAlike s u)
include h

theorem outcomeAlike_execDescriptor (i : Instr) : OutcomeAlike (execDescriptor i s) (execDescriptor i u) := by
  cases i
  case endShape => exact (irqAlike_endShape h).next
  case enum8 xr set => exact (irqAlike_enum8Field h xr set).next
  case twos xr w16 le n => exact (irqAlike_twosField h xr w16 le n).next
  case twos8 xr n => exact (irqAlike_twosField h xr false false n).next
  case twos16be xr n => exact (irqAlike_twosField h xr true false n).next
  case twos16le xr n => exact (irqAlike_twosField h xr true true n).next
  case s8 xr => exact (irqAlike_twosField h xr false false 8).next
  case s16be xr => exact (irqAlike_twosField h xr true false 16).next
  case s16le xr => exact (irqAlike_twosField h xr true true 16).next
  case fixp xr w16 le sgn scale => exact (irqAlike_fixpField h xr w16 le sgn scale).next
  case fixp8 xr sgn scale => exact (irqAlike_fixpField h xr false false sgn scale).next
  case fixp16be xr sgn scale => exact (irqAlike_fixpField h xr true false sgn scale).next
  case fixp16le xr sgn scale => exact (irqAlike_fixpField h xr true true sgn scale).next
  case bitf xr adv wid pos => exact (irqAlike_bitfField h xr adv wid pos).next
  case u8 xr => exact (irqAlike_bitfField h xr true 8 0).next
  case bit xr adv pos => exact (irqAlike_bitfField h xr adv 1 pos).next
  case tail => exact (irqAlike_tailField h).next
  case rtimer xr xr2 => exact (irqAlike_rtimerField h xr xr2).next
  case reservedKind => exact (irqAlike_runField h false (fun _ _ _ => id) (fun _ _ _ => id)).next
  all_goals exact h.next

/-- The two states fetch the same descriptors. -/
theorem outcomeAlike_runLoop (n : Nat) : OutcomeAlike (runLoop n s) (runLoop n u) := by
  induction n generalizing s u with
  | zero => exact h.next
  | succ n ih =>
    obtain ⟨t, v, ht, hv, htv⟩ := outcomeAlike_execDescriptor h (decodeDesc (shmWord s s.cpp.pc))
    obtain ⟨q, r, rfl⟩ := h.exists_irqSet
    rw [runLoop_succ ht, runLoop_succ (s := irqSet q r s) hv]
    have hgo := ih htv
    obtain ⟨q', r', rfl⟩ := htv.exists_irqSet
    exact OutcomeAlike.ite hgo htv.next

theorem irqAlike_packStart (code : BitVec 16) : IrqAlike (packStart code s) (packStart code u) := by
  obtain ⟨q, r, rfl⟩ := h.exists_irqSet; rfl

theorem irqAlike_packEntered (code : BitVec 16) (start : Byte) :
    IrqAlike (packEntered code start s) (packEntered code start u) := by
  obtain ⟨q, r, rfl⟩ := h.exists_irqSet; rfl

theorem outcomeAlike_execPack (code : BitVec 16) : OutcomeAlike (execPack code s) (execPack code u) := by
  have hstart := irqAlike_packStart h code
  have henter := irqAlike_packEntered h code
  obtain ⟨q, r, rfl⟩ := h.exists_irqSet
  refine OutcomeAlike.ite (irqAlike_opFaultEntry hstart .range 0 0).next ?_
  have hl : lookup (irqSet q r s) code = lookup s code := rfl
  rw [hl]
  cases lookup s code with
  | none => exact (irqAlike_opFaultEntry hstart .unknownCommand 0 0).next
  | some start => exact outcomeAlike_runLoop (henter start) 256

theorem outcomeAlike_execUnpack : OutcomeAlike (execUnpack s) (execUnpack u) := by
  have hr := irqAlike_refuse h .refused
  obtain ⟨q, r, rfl⟩ := h.exists_irqSet
  have hstart : IrqAlike (unpackStart s) (unpackStart (irqSet q r s)) := rfl
  have hcode : IrqAlike (unpackCode s) (unpackCode (irqSet q r s)) := rfl
  refine OutcomeAlike.ite (OutcomeAlike.ite (irqAlike_opFaultEntry hstart .unpackUnderrun 0 0).next ?_) hr.next
  have hl : lookup (irqSet q r s) (receivedCode (irqSet q r s)) = lookup s (receivedCode s) := rfl
  rw [hl]
  cases lookup s (receivedCode s) with
  | none => exact (irqAlike_opFaultEntry hcode .unknownCommand 0 0).next
  | some start => exact outcomeAlike_runLoop (irqAlike_setPc hcode start) 256

/-! ## Every operation, and the host bus -/

theorem outcomeAlike_execDecode : OutcomeAlike (execDecode s) (execDecode u) := by
  obtain ⟨q, r, rfl⟩ := h.exists_irqSet
  cases hv : s.dec.rxpValid with
  | true =>
    rw [execDecode_of_full hv, execDecode_of_full (s := irqSet q r s) hv]
    exact h.next
  | false =>
    cases hq : s.fq with
    | nil =>
      rw [execDecode_of_empty hq, execDecode_of_empty (s := irqSet q r s) hq]
      exact h.next
    | cons c rest =>
      rw [execDecode_of_head hv hq, execDecode_of_head (s := irqSet q r s) hv hq]
      exact (irqAlike_judge (s := { s with fq := rest }) (u := { irqSet q r s with fq := rest }) rfl c.bytes).next

theorem outcomeAlike_execTxbyte : OutcomeAlike (execTxbyte s) (execTxbyte u) := by
  obtain ⟨q, r, rfl⟩ := h.exists_irqSet
  cases hb : s.tx.txBusy with
  | true =>
    rw [execTxbyte_of_busy hb, execTxbyte_of_busy (s := irqSet q r s) hb]
    have hmore : IrqAlike (handedOver s) (handedOver (irqSet q r s)) := rfl
    have hlast : IrqAlike (endFrame (handedOver s)) (endFrame (handedOver (irqSet q r s))) := rfl
    exact (IrqAlike.ite hlast hmore).next
  | false =>
    rw [execTxbyte_of_idle hb, execTxbyte_of_idle (s := irqSet q r s) hb]
    exact h.next

theorem outcomeAlike_exec (i : Instr) : OutcomeAlike (exec i s) (exec i u) := by
  by_cases hi : i = .endShape ∨ isField i = true
  · rw [exec_eq_execDescriptor hi, exec_eq_execDescriptor hi]
    exact outcomeAlike_execDescriptor h i
  · cases i
    case noevent => exact h.next
    case rxbyte b => exact (irqAlike_rxByte h b).next
    case tick => exact (irqAlike_lineTick h).next
    case rxbyteTick b => exact (irqAlike_lineTick (irqAlike_rxByte h b)).next
    case nop => exact h.next
    case pack code => exact outcomeAlike_execPack h code
    case unpack => exact outcomeAlike_execUnpack h
    case encode | send =>
      have hr := irqAlike_refuse h .refused
      obtain ⟨q, r, rfl⟩ := h.exists_irqSet
      exact OutcomeAlike.ite hr.next (IrqAlike.next rfl)
    case rxpop =>
      have hr := irqAlike_refuse h .refused
      obtain ⟨q, r, rfl⟩ := h.exists_irqSet
      exact OutcomeAlike.ite (IrqAlike.next rfl) hr.next
    case rxen =>
      obtain ⟨q, r, rfl⟩ := h.exists_irqSet
      exact OutcomeAlike.ite h.next (IrqAlike.next rfl)
    case rxdis =>
      obtain ⟨q', r', hf⟩ := (irqAlike_flushAcc h).exists_irqSet
      obtain ⟨q, r, rfl⟩ := h.exists_irqSet
      refine OutcomeAlike.ite (IrqAlike.next ?_) h.next
      simp only [hf]
      rfl
    case clrx =>
      obtain ⟨q, r, rfl⟩ := h.exists_irqSet
      exact IrqAlike.next rfl
    case softreset => exact (irqAlike_softReset h).next
    case reservedCmd => exact (irqAlike_refuse h .badcmd).next
    case decode => exact outcomeAlike_execDecode h
    case txbyte => exact outcomeAlike_execTxbyte h
    case flush => exact (irqAlike_flushAcc h).next
    case csum bytes =>
      obtain ⟨q, r, rfl⟩ := h.exists_irqSet
      exact IrqAlike.next rfl
    case cmdtabEntry start code =>
      obtain ⟨q, r, rfl⟩ := h.exists_irqSet
      exact (IrqAlike.ite (irqAlike_setPc h start) h).next
    case endShape => exact absurd (.inl rfl) hi
    all_goals exact absurd (.inr rfl) hi

theorem irqAlike_hostRead (off : BitVec 16) : IrqAlike (hostRead off s) (hostRead off u) := by
  obtain ⟨q, r, rfl⟩ := h.exists_irqSet; rfl

theorem irqAlike_hostWrite (off : BitVec 16) (w : Word) : IrqAlike (hostWrite off w s) (hostWrite off w u) := by
  obtain ⟨q, r, rfl⟩ := h.exists_irqSet
  unfold hostWrite
  cases locAt off with
  | none => exact h
  | some l => cases l <;> rfl

theorem outcomeAlike_step : OutcomeAlike (step s) (step u) := by
  have htaken := irqAlike_takeEvent h
  obtain ⟨q, r, rfl⟩ := h.exists_irqSet
  have hn : nextAction (irqSet q r s) = nextAction s := rfl
  unfold step
  rw [hn]
  cases nextAction s with
  | run i => exact outcomeAlike_exec htaken i
  | read off => exact (irqAlike_hostRead htaken off).next
  | write off w => exact (irqAlike_hostWrite htaken off w).next
  | reset => exact (irqAlike_hardReset htaken).next

end

/-! ## The interrupt output -/

/-- `irq` is 1 exactly when some source is pending and enabled (10_state.md R29). -/
theorem irqOut_iff {s : State} :
    irqOut s = true ↔ ∃ k < 6, s.irq.irqPend.getLsbD k = true ∧ s.irq.irqEn.getLsbD k = true := by
  have hz : s.irq.irqPend &&& s.irq.irqEn = 0 ↔ ∀ k < 6, (s.irq.irqPend &&& s.irq.irqEn).getLsbD k = false := by
    rw [BitVec.eq_of_getLsbD_eq_iff]
    simp
  rw [irqOut, decide_eq_true_eq, ne_eq, hz]
  simp

end Sys2Proof.Machine

namespace Sys2Proof.Proofs
open Sys2Proof.Machine

/-- Settles O58. Whatever the action of the step, it takes states that agree but for the interrupt registers and the
read data to states that agree so: no unit reads them but IRQ_PEND and IRQ_EN themselves. -/
theorem interruptBitsInfluenceNothingElse : Obligations.InterruptBitsInfluenceNothingElse :=
  ⟨fun _ => irqOut_iff, fun _ _ h => outcomeAlike_step h⟩

end Sys2Proof.Proofs

/-! PROOF. No operation changes the configuration or the catalogue (10_state.md R22 to R25). -/

namespace Sys2Proof.Machine

/-- From `s` to `t` the configuration, the registry, and the bytes of SHM, CMDTAB and ESET are kept. -/
structure CatalogueKept (s t : State) : Prop where
  cfg : t.cfg = s.cfg
  bytes : ∀ a, 0x1000 ≤ a → byteAt t a = byteAt s a

namespace CatalogueKept

theorem refl (s : State) : CatalogueKept s s := ⟨rfl, fun _ _ => rfl⟩

theorem trans {s t u : State} (h : CatalogueKept s t) (k : CatalogueKept t u) : CatalogueKept s u :=
  ⟨k.cfg.trans h.cfg, fun a ha => (k.bytes a ha).trans (h.bytes a ha)⟩

/-- An update that leaves the configuration, the memory and its fills alone. -/
theorem of_memory_eq {s t : State} (hcfg : t.cfg = s.cfg) (hm : t.mem = s.mem)
    (hb : t.env.bufFill = s.env.bufFill) (hf : t.env.catFill = s.env.catFill) : CatalogueKept s t :=
  ⟨hcfg, fun a _ => byteAt_of_parts hm hb hf a⟩

/-- An update of the packer's registers. -/
theorem of_cpp (c : Cpp) (s : State) : CatalogueKept s { s with cpp := c } := .of_memory_eq rfl rfl rfl rfl

/-- A store into a buffer, which ends below SHM. -/
theorem of_store {s : State} {base : Nat} {bs : List Byte} (h : base + bs.length ≤ 0x1000) :
    CatalogueKept s (store base bs s) :=
  ⟨rfl, fun _ ha => byteAt_store_outside (by omega)⟩

end CatalogueKept

/-! ## Exceptions, refusals, the delivery of a packet -/

theorem catalogueKept_refuse (r : RefuseReason) (s : State) : CatalogueKept s (refuse r s) :=
  .of_memory_eq rfl rfl rfl rfl

theorem catalogueKept_opFaultEntry (f : OpFault) (p c : Byte) (s : State) :
    CatalogueKept s (opFaultEntry f p c s) := by
  have hrecord : CatalogueKept s { s with
      op := { opCode := opFaultCode f, opPc := p, opCur := c }
      cpp := { s.cpp with pkState := .fault }
      irq := { s.irq with irqPend := s.irq.irqPend ||| 0x20 } } := .of_memory_eq rfl rfl rfl rfl
  cases hd : s.cpp.pkDir with
  | pack =>
    rw [opFaultEntry_of_pack hd]
    exact hrecord.trans (.of_store (by simp [payBase]))
  | unpack =>
    rw [opFaultEntry_of_unpack hd]
    exact hrecord

theorem catalogueKept_judge (f : List Byte) (s : State) : CatalogueKept s (judge f s) := by
  rcases judge_cases f s with ⟨e, h⟩ | h
  · rw [h, rxErrorEntry_eq]
    exact .of_memory_eq rfl rfl rfl rfl
  · have hl := framePayload_length_le f
    have hstored : CatalogueKept s (store rxpayBase (framePayload f) s) := .of_store (by unfold rxpayBase; omega)
    rw [h]
    exact hstored.trans (.of_memory_eq rfl rfl rfl rfl)

/-! ## Descriptors, PACK and UNPACK -/

theorem PackOutcome.catalogueKept {s t : State} (h : PackOutcome s t) : CatalogueKept s t := by
  rcases h with ⟨f, _, p, rfl | rfl⟩ | ⟨_, bs, adv, hl, _, rfl⟩
  · exact catalogueKept_opFaultEntry f p s.cpp.cur s
  · exact (CatalogueKept.of_cpp _ s).trans (catalogueKept_opFaultEntry f p s.cpp.cur (pcAdvanced s))
  · have hstored : CatalogueKept (pcAdvanced s) (store (payBase + s.cpp.cur.toNat) bs (pcAdvanced s)) :=
      .of_store (by unfold payBase; omega)
    exact ((CatalogueKept.of_cpp _ s).trans hstored).trans (.of_cpp _ _)

theorem UnpackOutcome.catalogueKept {s t : State} (h : UnpackOutcome s t) : CatalogueKept s t := by
  rcases h with ⟨f, _, p, rfl | rfl⟩ | ⟨_, ws, adv, rfl⟩ | ⟨_, rfl⟩
  · exact catalogueKept_opFaultEntry f p s.cpp.cur s
  · exact (CatalogueKept.of_cpp _ s).trans (catalogueKept_opFaultEntry f p s.cpp.cur (pcAdvanced s))
  · rw [setxs_units]
    exact .of_memory_eq rfl rfl rfl rfl
  · have hp := s.dec.rxp.plen.isLt
    have hstored : CatalogueKept (pcAdvanced s) (store tailBase
        (bytesAt (pcAdvanced s) (rxpayBase + s.cpp.cur.toNat) (s.dec.rxp.plen.toNat - s.cpp.cur.toNat))
        (pcAdvanced s)) := .of_store (by rw [bytesAt_length]; unfold tailBase; omega)
    exact ((CatalogueKept.of_cpp _ s).trans hstored).trans (.of_cpp _ _)

theorem execDescriptor_catalogueKept {i : Instr} {s t : State} (hi : i = .endShape ∨ isField i = true)
    (h : execDescriptor i s = .next t) : CatalogueKept s t := by
  rcases hi with rfl | hi
  · cases h
    unfold endShape
    split <;> exact .of_cpp _ s
  · cases hd : s.cpp.pkDir with
    | pack =>
      obtain ⟨u, hu, ho⟩ := field_pack_outcome hi hd
      cases hu.symm.trans h
      exact ho.catalogueKept
    | unpack =>
      obtain ⟨u, hu, ho⟩ := field_unpack_outcome hi hd
      cases hu.symm.trans h
      exact ho.catalogueKept

theorem runShape_catalogueKept {s t : State} (hs : s.cpp.pkState = .idle) (h : runShape s = .next t) :
    CatalogueKept s t :=
  runLoop_keeps (P := CatalogueKept s)
    (fun u _ hu _ hd => hu.trans (execDescriptor_catalogueKept (decodeDesc_isField (shmWord u u.cpp.pc)) hd))
    256 s t (.refl s) hs h

theorem catalogueKept_packStart (code : BitVec 16) (s : State) : CatalogueKept s (packStart code s) :=
  (CatalogueKept.of_cpp _ s).trans (.of_store (by rw [List.length_replicate]; decide))

theorem catalogueKept_packEntered (code : BitVec 16) (start : Byte) (s : State) :
    CatalogueKept s (packEntered code start s) := by
  have hl := codeBytes_length_le s.cfg.cc16 code
  have hstored : CatalogueKept (packStart code s) (store payBase (codeBytes s.cfg.cc16 code) (packStart code s)) :=
    .of_store (by unfold payBase; omega)
  exact ((catalogueKept_packStart code s).trans hstored).trans (.of_cpp _ _)

theorem execPack_catalogueKept {code : BitVec 16} {s t : State} (h : execPack code s = .next t) :
    CatalogueKept s t := by
  simp only [execPack] at h
  split at h
  · cases h
    exact (catalogueKept_packStart code s).trans (catalogueKept_opFaultEntry _ _ _ _)
  · split at h
    · cases h
      exact (catalogueKept_packStart code s).trans (catalogueKept_opFaultEntry _ _ _ _)
    · exact (catalogueKept_packEntered code _ s).trans (runShape_catalogueKept rfl h)

theorem execUnpack_catalogueKept {s t : State} (h : execUnpack s = .next t) : CatalogueKept s t := by
  unfold execUnpack at h
  split at h
  · split at h
    · cases h
      exact (CatalogueKept.of_cpp _ s).trans (catalogueKept_opFaultEntry _ _ _ (unpackStart s))
    · split at h
      · cases h
        exact (CatalogueKept.of_cpp _ s).trans (catalogueKept_opFaultEntry _ _ _ (unpackCode s))
      · exact (CatalogueKept.of_cpp _ s).trans (runShape_catalogueKept rfl h)
  · cases h
    exact catalogueKept_refuse _ s

/-! ## The delimiter and the transmit unit -/

theorem catalogueKept_flushAcc (s : State) : CatalogueKept s (flushAcc s) := by
  by_cases ha : s.fd.acc = []
  · rw [flushAcc_of_empty ha]
    exact .of_memory_eq rfl rfl rfl rfl
  · by_cases hq : s.fq.length < 4
    · rw [flushAcc_of_room ha hq]
      exact .of_memory_eq rfl rfl rfl rfl
    · rw [flushAcc_of_full ha (Nat.le_of_not_lt hq)]
      exact .of_memory_eq rfl rfl rfl rfl

theorem catalogueKept_appendByte (b : Byte) (s : State) : CatalogueKept s (appendByte b s) := by
  unfold appendByte
  split <;> exact .of_memory_eq rfl rfl rfl rfl

theorem catalogueKept_rxByte (b : Byte) (s : State) : CatalogueKept s (rxByte b s) := by
  rcases rxByte_cases b s with h | ⟨_, h⟩ | ⟨_, h⟩
  · rw [h]; exact .refl s
  · rw [h]; exact catalogueKept_appendByte b s
  · rw [h]; exact (catalogueKept_flushAcc s).trans (catalogueKept_appendByte b _)

theorem catalogueKept_lineTick (s : State) : CatalogueKept s (lineTick s) := by
  have hguard : CatalogueKept s (guardTick s) := by
    rw [guardTick_eq_guardAt]
    exact .of_memory_eq rfl rfl rfl rfl
  refine hguard.trans ?_
  rw [lineTick]
  rcases fdTick_cases (guardTick s) with h | ⟨_, _, h | h⟩
  · rw [h]; exact .refl _
  · rw [h]; exact .of_memory_eq rfl rfl rfl rfl
  · rw [h]
    refine CatalogueKept.trans ?_ (catalogueKept_flushAcc _)
    exact .of_memory_eq rfl rfl rfl rfl

theorem catalogueKept_frameStaged (s : State) : CatalogueKept s (frameStaged s) := by
  have hp := s.cpp.plen.isLt
  have hstored : CatalogueKept s (store txbBase (encodedFrame s) s) :=
    .of_store (by rw [encodedFrame_length]; unfold txbBase; omega)
  exact hstored.trans (.of_memory_eq rfl rfl rfl rfl)

theorem catalogueKept_softReset (s : State) : CatalogueKept s (softReset s) := ⟨rfl, fun _ h => byteAt_softReset s h⟩

/-! ## Every operation -/

theorem exec_catalogueKept {i : Instr} {s t : State} (h : exec i s = .next t) : CatalogueKept s t := by
  by_cases hi : i = .endShape ∨ isField i = true
  · rw [exec_eq_execDescriptor hi] at h
    exact execDescriptor_catalogueKept hi h
  · cases i
    case noevent => cases h; exact .refl s
    case rxbyte b => cases h; exact catalogueKept_rxByte b s
    case tick => cases h; exact catalogueKept_lineTick s
    case rxbyteTick b => cases h; exact (catalogueKept_rxByte b s).trans (catalogueKept_lineTick _)
    case nop => cases h; exact .refl s
    case pack => exact execPack_catalogueKept h
    case unpack => exact execUnpack_catalogueKept h
    case encode =>
      simp only [exec, execEncode] at h
      split at h <;> cases h
      · exact catalogueKept_refuse _ s
      · exact catalogueKept_frameStaged s
    case send =>
      simp only [exec, execSend] at h
      split at h <;> cases h
      · exact catalogueKept_refuse _ s
      · exact .of_memory_eq rfl rfl rfl rfl
    case rxpop =>
      simp only [exec, execRxpop] at h
      split at h <;> cases h
      · exact .of_memory_eq rfl rfl rfl rfl
      · exact catalogueKept_refuse _ s
    case rxen =>
      simp only [exec, execRxen] at h
      split at h <;> cases h
      · exact .refl s
      · exact .of_memory_eq rfl rfl rfl rfl
    case rxdis =>
      simp only [exec, execRxdis] at h
      split at h <;> cases h
      · exact (catalogueKept_flushAcc s).trans (.of_memory_eq rfl rfl rfl rfl)
      · exact .refl s
    case clrx => cases h; exact .of_cpp _ s
    case softreset => cases h; exact catalogueKept_softReset s
    case reservedCmd => cases h; exact catalogueKept_refuse _ s
    case decode =>
      simp only [exec, execDecode] at h
      repeat' split at h
      all_goals cases h
      · exact .refl s
      · exact .refl s
      · refine CatalogueKept.trans ?_ (catalogueKept_judge _ _)
        exact .of_memory_eq rfl rfl rfl rfl
    case txbyte =>
      simp only [exec, execTxbyte] at h
      split at h <;> cases h
      · split <;> exact .of_memory_eq rfl rfl rfl rfl
      · exact .refl s
    case flush => cases h; exact catalogueKept_flushAcc s
    case csum => cases h; exact .of_memory_eq rfl rfl rfl rfl
    case cmdtabEntry start code =>
      cases h
      split
      · exact .of_cpp _ s
      · exact .refl s
    case endShape => exact absurd (.inl rfl) hi
    all_goals exact absurd (.inr rfl) hi

end Sys2Proof.Machine

namespace Sys2Proof.Proofs
open Sys2Proof.Machine

/-- Settles O60: every operation keeps the configuration and the bytes from SHM on. -/
theorem operationsNeverTouchTheCatalogue : Obligations.OperationsNeverTouchTheCatalogue := by
  intro i s t h
  exact ⟨(exec_catalogueKept h).cfg, (exec_catalogueKept h).bytes⟩

end Sys2Proof.Proofs

/-! PROOF. PACK and UNPACK through a catalogue entry, and the shape `U8 xR; END` (43_packer.md R154 to R157). -/

namespace Sys2Proof.Machine

/-! ## Stores over stores -/

theorem stored_iff {a : Nat} {bs : List Byte} {s t : State} :
    Stored a bs s t ↔
      ∀ b, byteAt t b = if a ≤ b ∧ b < a + bs.length then bs.getD (b - a) 0 else byteAt s b := by
  constructor
  · rintro ⟨hin, hout⟩ b
    split
    · next hb =>
      have hi : b - a < (bytesAt t a bs.length).length := by rw [bytesAt_length]; omega
      have hget := bytesAt_getElem t a bs.length (b - a) hi
      simp only [hin, Nat.add_sub_cancel' hb.1] at hget
      rw [← hget, List.getD_eq_getElem]
    · next hb => exact hout b (by omega)
  · intro h
    refine ⟨List.ext_getElem (bytesAt_length t a bs.length) (fun i h1 h2 => ?_), fun b hb => ?_⟩
    · rw [bytesAt_getElem, h, if_pos (by omega), Nat.add_sub_cancel_left, List.getD_eq_getElem]
    · rw [h, if_neg (by omega)]

/-- A store inside the bytes an earlier one left. -/
theorem Stored.overwrite {a : Nat} {pre old new post : List Byte} {s t u : State}
    (h : Stored a (pre ++ (old ++ post)) s t) (k : Stored (a + pre.length) new t u) (hl : new.length = old.length) :
    Stored a (pre ++ (new ++ post)) s u := by
  rw [stored_iff] at h k ⊢
  intro b
  rw [k, h]
  simp only [List.length_append, hl, List.getD_eq_getElem?_getD, List.getElem?_append]
  grind

/-! ## The descriptor U8 -/

/-- A field of eight bits at position 0 is the whole byte. -/
theorem bitfInsert_whole (old v : Byte) : bitfInsert 8 0 old v.toNat = v := by
  have hmask : ~~~bitfMask 8 0 = 0#8 := by decide
  simp [bitfInsert, hmask]

theorem bitfExtract_whole (b : Byte) : bitfExtract 8 0 b = b.toNat := by
  have := b.isLt
  simp only [bitfExtract]
  omega

/-- U8 in pack direction stores the byte its register holds (43_packer.md R170). -/
theorem execDescriptor_u8_of_pack {s : State} {xr : XIndex} {v : Byte} (hr : PackReady s)
    (hx : getx s xr = some (v.setWidth 32)) (hc : s.cpp.cur.toNat + 1 ≤ 255) :
    execDescriptor (.u8 xr) s =
      .next (advance 1 (store (payBase + s.cpp.cur.toNat) [v] (pcAdvanced s))) := by
  have hv : (v.setWidth 32).toNat = v.toNat := by rw [BitVec.toNat_setWidth]; omega
  have hdom : ¬ v.toNat > 2 ^ (8 : BitVec 4).toNat - 1 := by
    have := v.isLt
    have h255 : 2 ^ (8 : BitVec 4).toNat - 1 = 255 := rfl
    omega
  have hbytes : bitfBytes xr 8 0 (pcAdvanced s) = .ok [v] := by
    have hop : operand (pcAdvanced s) xr = .ok (v.setWidth 32) := operand_of_some hx
    simp only [bitfBytes, hop, hv, if_neg hdom]
    exact congrArg (fun b => Except.ok [b]) (bitfInsert_whole _ v)
  have hfit : ¬ (pcAdvanced s).cpp.cur.toNat + [v].length > Config.payMax := Nat.not_lt.mpr hc
  show Host.Outcome.next (runField true _ _ s) = _
  rw [runField_pack hr, hbytes, packBytes]
  exact congrArg Host.Outcome.next (if_neg hfit)

/-- U8 in unpack direction writes the byte at the cursor to its register (43_packer.md R170). -/
theorem execDescriptor_u8_of_unpack {s : State} (xr : XIndex) (hr : UnpackReady s)
    (hc : s.cpp.cur.toNat + 1 ≤ s.dec.rxp.plen.toNat) :
    execDescriptor (.u8 xr) s =
      .next (advance 1 (setx xr ((byteAt s (rxpayBase + s.cpp.cur.toNat)).setWidth 32) (pcAdvanced s))) := by
  have hfit : ¬ (pcAdvanced s).cpp.cur.toNat + 1 > (pcAdvanced s).dec.rxp.plen.toNat := Nat.not_lt.mpr hc
  have hread : bitfRead xr 8 0 (bytesAt (pcAdvanced s) (rxpayBase + s.cpp.cur.toNat) 1) =
      .ok [(xr, (byteAt s (rxpayBase + s.cpp.cur.toNat)).setWidth 32)] := by
    have hw : BitVec.ofNat 32 (bitfExtract 8 0 (byteAt s (rxpayBase + s.cpp.cur.toNat))) =
        (byteAt s (rxpayBase + s.cpp.cur.toNat)).setWidth 32 := by
      rw [bitfExtract_whole, BitVec.ofNat_toNat]
    exact congrArg (fun w => Except.ok [(xr, w)]) hw
  show Host.Outcome.next (runField true _ _ s) = _
  rw [runField_unpack hr, unpackBytes, if_neg hfit]
  simp only [show (pcAdvanced s).cpp.cur = s.cpp.cur from rfl, show bitfAdvance true = 1 from rfl, hread]
  rfl

/-! ## The shape `U8 xR; END` -/

theorem CatalogueKept.shmWord {s t : State} (h : CatalogueKept s t) (p : Byte) : shmWord t p = shmWord s p :=
  wordAt_congr (fun b h1 _ => h.bytes b (by unfold shmBase at h1; omega))

/-- RUN of a descriptor that goes on, before an END. -/
theorem runLoop_field_end {n : Nat} {s t : State}
    (hf : execDescriptor (decodeDesc (shmWord s s.cpp.pc)) s = .next t) (hi : t.cpp.pkState = .idle)
    (he : decodeDesc (shmWord t t.cpp.pc) = .endShape) : runLoop (n + 2) s = .next (endShape t) := by
  have hend : execDescriptor (decodeDesc (shmWord t t.cpp.pc)) t = .next (endShape t) := by rw [he]; rfl
  have hdone : (endShape t).cpp.pkState ≠ .idle := by unfold endShape; split <;> simp
  rw [runLoop_succ hf, if_pos hi, runLoop_succ hend, if_neg hdone]

/-- RUN of `U8 xR; END` in pack direction stores the register's byte at the cursor and stages the payload. -/
theorem runLoop_u8_end_of_pack {n : Nat} {s : State} {xr : XIndex} {v : Byte} (hr : PackReady s)
    (hi : s.cpp.pkState = .idle) (hu : decodeDesc (shmWord s s.cpp.pc) = .u8 xr)
    (he : decodeDesc (shmWord s (s.cpp.pc + 1)) = .endShape) (hx : getx s xr = some (v.setWidth 32))
    (hc : s.cpp.cur.toNat + 1 ≤ 255) :
    ∃ t, runLoop (n + 2) s = .next t
      ∧ t = { s with
          cpp := { s.cpp with
            pkState := .done, payOk := true, cur := BitVec.ofNat 8 (s.cpp.cur.toNat + 1)
            plen := BitVec.ofNat 8 (s.cpp.cur.toNat + 1), pc := s.cpp.pc + 1 }
          mem := t.mem }
      ∧ Stored (payBase + s.cpp.cur.toNat) [v] s t := by
  have hkept : CatalogueKept s (advance 1 (store (payBase + s.cpp.cur.toNat) [v] (pcAdvanced s))) := by
    have hstored : CatalogueKept (pcAdvanced s) (store (payBase + s.cpp.cur.toNat) [v] (pcAdvanced s)) :=
      .of_store (by simp only [List.length_singleton]; unfold payBase; omega)
    exact ((CatalogueKept.of_cpp _ s).trans hstored).trans (.of_cpp _ _)
  have hdir := hr.1
  have hfield := execDescriptor_u8_of_pack hr hx hc
  rw [← hu] at hfield
  have hrun := runLoop_field_end (n := n) hfield hi ((congrArg decodeDesc (hkept.shmWord (s.cpp.pc + 1))).trans he)
  simp only [endShape, advance, store, pcAdvanced, hdir] at hrun
  exact ⟨_, hrun, by simp only [hdir], stored_of_mem rfl rfl rfl⟩

/-- RUN of `U8 xR; END` in unpack direction writes the byte at the cursor to the register. -/
theorem runLoop_u8_end_of_unpack {n : Nat} {s : State} {xr : XIndex} {v : Byte} (hr : UnpackReady s)
    (hi : s.cpp.pkState = .idle) (hu : decodeDesc (shmWord s s.cpp.pc) = .u8 xr)
    (he : decodeDesc (shmWord s (s.cpp.pc + 1)) = .endShape) (hc : s.cpp.cur.toNat + 1 ≤ s.dec.rxp.plen.toNat)
    (hv : byteAt s (rxpayBase + s.cpp.cur.toNat) = v) : runLoop (n + 2) s = .next { s with cpp := { s.cpp with
      pkState := .done, cur := BitVec.ofNat 8 (s.cpp.cur.toNat + 1), pc := s.cpp.pc + 1
      x := s.cpp.x.set xr.toNat (v.setWidth 32) xr.isLt
      xv := s.cpp.xv ||| ((1 : BitVec 16) <<< xr.toNat) } } := by
  subst hv
  have hkept : CatalogueKept s (advance 1
      (setx xr ((byteAt s (rxpayBase + s.cpp.cur.toNat)).setWidth 32) (pcAdvanced s))) :=
    ((CatalogueKept.of_cpp _ s).trans (.of_cpp _ (pcAdvanced s))).trans (.of_cpp _ _)
  have hdir := hr.1
  have hfield := execDescriptor_u8_of_unpack xr hr hc
  rw [← hu] at hfield
  have hrun := runLoop_field_end (n := n) hfield hi ((congrArg decodeDesc (hkept.shmWord (s.cpp.pc + 1))).trans he)
  simpa only [endShape, advance, setx, pcAdvanced, hdir] using hrun

/-! ## The catalogue entry of a command -/

theorem codeLen_eq (cc16 : Bool) (code : BitVec 16) : codeLen cc16 = (codeBytes cc16 code).length := by
  cases cc16 <;> rfl

/-- PACK of a code that fits and has an entry is RUN from the entry (43_packer.md R154). -/
theorem execPack_of_entry {s : State} {code : BitVec 16} {start : Byte}
    (hfit : s.cfg.cc16 = true ∨ code.toNat ≤ 0xFF) (hl : lookup s code = some start) :
    execPack code s = runLoop 256 (packEntered code start s) := by
  have hr : ¬ (!s.cfg.cc16 && decide (code.toNat > 0x00FF)) = true := by
    simp only [Bool.and_eq_true, Bool.not_eq_true', decide_eq_true_eq, not_and]
    intro h
    simp only [h, Bool.false_eq_true, false_or] at hfit
    omega
  simp only [execPack, if_neg hr, hl]
  rfl

/-- The state in which PACK enters RUN, but for the memory. -/
theorem packEntered_eq (code : BitVec 16) (start : Byte) (s : State) :
    packEntered code start s = { s with
      cpp := { s.cpp with
        pkDir := .pack, pkState := .idle, payOk := false, cmdCode := code
        cur := BitVec.ofNat 8 (codeBytes s.cfg.cc16 code).length, plen := 0, pc := start }
      mem := (packEntered code start s).mem } := by
  have hcur : BitVec.ofNat 8 ((0 : Byte).toNat + (codeBytes s.cfg.cc16 code).length) =
      BitVec.ofNat 8 (codeBytes s.cfg.cc16 code).length := congrArg (BitVec.ofNat 8) (Nat.zero_add _)
  rw [← hcur]
  rfl

/-- PACK enters RUN with the code at the head of a cleared PAY. -/
theorem stored_packEntered (code : BitVec 16) (start : Byte) (s : State) :
    Stored payBase (codeBytes s.cfg.cc16 code ++ List.replicate (255 - (codeBytes s.cfg.cc16 code).length) 0) s
      (packEntered code start s) := by
  have hl := codeBytes_length_le s.cfg.cc16 code
  have hsplit : List.replicate 255 (0 : Byte) =
      List.replicate (codeBytes s.cfg.cc16 code).length 0
        ++ List.replicate (255 - (codeBytes s.cfg.cc16 code).length) 0 := by
    rw [← List.replicate_add, Nat.add_sub_cancel' (by omega)]
  have hclear : Stored payBase (List.replicate 255 0) s (packStart code s) := stored_of_mem rfl rfl rfl
  have hcode : Stored payBase (codeBytes s.cfg.cc16 code) (packStart code s) (packEntered code start s) :=
    stored_of_mem rfl rfl rfl
  rw [hsplit] at hclear
  exact Stored.overwrite (pre := []) hclear hcode List.length_replicate.symm

theorem bytesAt_succ (s : State) (a n : Nat) : bytesAt s a (n + 1) = bytesAt s a n ++ [byteAt s (a + n)] := by
  simp [bytesAt, List.range_succ]

/-- A payload that begins with the bytes of a code has that code (43_packer.md R155). -/
theorem receivedCode_of_bytes {s : State} {code : BitVec 16} (hfit : s.cfg.cc16 = true ∨ code.toNat ≤ 0xFF)
    (hb : bytesAt s rxpayBase (codeBytes s.cfg.cc16 code).length = codeBytes s.cfg.cc16 code) :
    receivedCode s = code := by
  cases hcc : s.cfg.cc16 with
  | true =>
    rw [hcc] at hb
    have hbytes : [byteAt s rxpayBase, byteAt s (rxpayBase + 1)] =
      [code.extractLsb' 0 8, code.extractLsb' 8 8] := hb
    simp only [List.cons.injEq, and_true] at hbytes
    obtain ⟨hlow, hhigh⟩ := hbytes
    rw [receivedCode, if_pos hcc, hlow, hhigh,
      BitVec.extractLsb'_append_extractLsb'_eq_extractLsb' (show 8 = 0 + 8 from rfl)]
    exact BitVec.extractLsb'_eq_self
  | false =>
    rw [hcc] at hb
    have hbytes : [byteAt s rxpayBase] = [code.extractLsb' 0 8] := hb
    simp only [List.cons.injEq, and_true] at hbytes
    have hsmall : code.toNat ≤ 0xFF := hfit.resolve_left (by simp [hcc])
    rw [receivedCode, if_neg (by simp [hcc]), hbytes]
    refine BitVec.eq_of_toNat_eq ?_
    simp only [BitVec.toNat_setWidth, BitVec.extractLsb'_toNat, Nat.shiftRight_zero]
    omega

/-- UNPACK of a payload that begins with the bytes of a code with an entry is RUN from the entry (43_packer.md R155). -/
theorem execUnpack_of_entry {s : State} {code : BitVec 16} {start : Byte}
    (hfit : s.cfg.cc16 = true ∨ code.toNat ≤ 0xFF) (hl : lookup s code = some start) (hv : s.dec.rxpValid = true)
    (hp : (codeBytes s.cfg.cc16 code).length ≤ s.dec.rxp.plen.toNat)
    (hb : bytesAt s rxpayBase (codeBytes s.cfg.cc16 code).length = codeBytes s.cfg.cc16 code) :
    execUnpack s = runLoop 256 { s with cpp := { s.cpp with
      pkDir := .unpack, pkState := .idle, cmdCode := code
      cur := BitVec.ofNat 8 (codeBytes s.cfg.cc16 code).length, pc := start } } := by
  have hcode := receivedCode_of_bytes hfit hb
  have hlen := codeLen_eq s.cfg.cc16 code
  have hlong : ¬ s.dec.rxp.plen.toNat < codeLen s.cfg.cc16 := by omega
  have henter : enterShape start (unpackCode s) = { s with cpp := { s.cpp with
      pkDir := .unpack, pkState := .idle, cmdCode := code
      cur := BitVec.ofNat 8 (codeBytes s.cfg.cc16 code).length, pc := start } } := by
    rw [← hlen, ← hcode]
    rfl
  simp only [execUnpack, if_pos hv, if_neg hlong, hcode, hl, runShape, henter]

end Sys2Proof.Machine

namespace Sys2Proof.Proofs
open Sys2Proof.Machine

/-- Settles O50: each command enters RUN at its entry, and RUN of `U8 xR; END` is two fetches. -/
theorem packAndUnpackOfAByteCommand : Obligations.PackAndUnpackOfAByteCommand := by
  intro s code start bs hfit hl
  have hbs : codeBytes s.cfg.cc16 code = bs := rfl
  have hlen : bs.length ≤ 2 := codeBytes_length_le s.cfg.cc16 code
  have hcur : (BitVec.ofNat 8 bs.length).toNat = bs.length := Nat.mod_eq_of_lt (by omega)
  have hpack : exec (.pack code) s = runLoop 256 (packEntered code start s) := execPack_of_entry hfit hl
  have hunpack := execUnpack_of_entry hfit hl
  have hentered := packEntered_eq code start s
  have hcode := stored_packEntered code start s
  have hkept := catalogueKept_packEntered code start s
  generalize packEntered code start s = u at hpack hentered hcode hkept
  rw [hbs] at hunpack hentered hcode
  refine ⟨⟨u, hpack, hentered, hcode⟩, hunpack, fun xr v hpc hu he => ?byteShape⟩
  have hu' : decodeDesc (shmWord s start) = .u8 xr := Except.ok.inj hu
  have he' : decodeDesc (shmWord s (start + 1)) = .endShape := Except.ok.inj he
  refine ⟨fun hx => ?packed, fun hv hp hb => ?unpacked⟩
  case packed =>
    obtain ⟨m, rfl⟩ : ∃ m, u = { s with
        cpp := { s.cpp with
          pkDir := .pack, pkState := .idle, payOk := false, cmdCode := code
          cur := BitVec.ofNat 8 bs.length, plen := 0, pc := start }
        mem := m } := ⟨u.mem, hentered⟩
    obtain ⟨t, hrun, ht, hbyte⟩ := runLoop_u8_end_of_pack (n := 254) ⟨rfl, hpc⟩ rfl
      ((congrArg decodeDesc (hkept.shmWord start)).trans hu')
      ((congrArg decodeDesc (hkept.shmWord (start + 1))).trans he') hx (by simp only [hcur]; omega)
    simp only [hcur] at ht hbyte
    rw [show 255 - bs.length = 1 + (254 - bs.length) by omega, List.replicate_add] at hcode
    exact ⟨t, hpack.trans hrun, ht, hcode.overwrite hbyte rfl⟩
  case unpacked =>
    obtain ⟨hhead, hlast⟩ := List.append_inj' ((bytesAt_succ s rxpayBase bs.length).symm.trans hb) rfl
    have hbyte : byteAt s (rxpayBase + bs.length) = v := List.singleton_inj.mp hlast
    refine (hunpack hv (by omega) hhead).trans ?_
    refine (runLoop_u8_end_of_unpack (n := 254) (xr := xr) (v := v)
      ?ready ?idle ?field ?closed ?room ?byte).trans ?final
    case ready => exact ⟨rfl, hpc⟩
    case idle => rfl
    case field => exact (congrArg decodeDesc ((CatalogueKept.of_cpp _ s).shmWord start)).trans hu'
    case closed => exact (congrArg decodeDesc ((CatalogueKept.of_cpp _ s).shmWord (start + 1))).trans he'
    case room => simp only [hcur]; exact hp
    case byte => simp only [hcur]; exact hbyte
    case final => simp only [hcur]

end Sys2Proof.Proofs

/-! PROOF. The register map and the windows, read and written by the host (10_state.md R28 to R32; 44_host.md R190 to
R201). -/

namespace Sys2Proof.Machine

/-! ## The fields of a word -/

/-- The word whose bits from number `n` on are the flags of a list. -/
def flagsFrom : Nat → List Bool → Word
  | _, [] => 0#32
  | n, b :: rest => bit01 b <<< n ||| flagsFrom (n + 1) rest

theorem getLsbD_bit01_shift (b : Bool) (n : Nat) {k : Nat} (hk : k < 32) :
    (bit01 b <<< n).getLsbD k = (decide (k = n) && b) := by
  have hone : (bit01 b).getLsbD (k - n) = (decide (k - n = 0) && b) := by
    cases b <;> simp [bit01, BitVec.getLsbD_one]
  rw [BitVec.getLsbD_shiftLeft, hone]
  grind

theorem getLsbD_flagsFrom (l : List Bool) (n : Nat) {k : Nat} (hk : k < 32) :
    (flagsFrom n l).getLsbD k = (decide (n ≤ k) && l.getD (k - n) false) := by
  induction l generalizing n with
  | nil => simp [flagsFrom]
  | cons b rest ih =>
    rw [flagsFrom, BitVec.getLsbD_or, getLsbD_bit01_shift b n hk, ih]
    grind

/-- Two fields side by side, the low one first. -/
theorem setWidth_append_low_first {m n : Nat} (hi : BitVec n) (lo : BitVec m) (w : Nat) :
    (hi ++ lo).setWidth w = lo.setWidth w ||| hi.setWidth w <<< m := by
  rw [BitVec.setWidth_append_eq_shiftLeft_setWidth_or, BitVec.or_comm]

theorem pkStateCode_flags (p : PkState) :
    (pkStateCode p).setWidth 32 <<< 8 = bit01 (decide (p = .done)) <<< 8 ||| bit01 (decide (p = .fault)) <<< 9 := by
  cases p <;> decide

theorem pkDirCode_flag (d : Dir) : (pkDirCode d).setWidth 32 <<< 10 = bit01 (decide (d = .unpack)) <<< 10 := by
  cases d <;> decide

theorem not_isEmpty_eq_decide {α : Type} [DecidableEq α] (l : List α) : (!l.isEmpty) = decide (l ≠ []) := by
  cases l <;> simp

/-- STATUS is a row of flags (10_state.md R28). -/
theorem statusWord_eq_flags (s : State) :
    statusWord s = flagsFrom 0
      [s.fd.rxEn, decide (s.fd.acc ≠ []), decide (s.fq ≠ []), s.dec.rxpValid,
        s.dec.rxpValid && s.dec.rxp.known, s.tx.encValid, s.tx.txBusy, decide (s.tx.txg ≠ 0),
        decide (s.cpp.pkState = .done), decide (s.cpp.pkState = .fault), decide (s.cpp.pkDir = .unpack),
        s.cpp.payOk] := by
  simp only [statusWord, flagsFrom, pkStateCode_flags, pkDirCode_flag, not_isEmpty_eq_decide, BitVec.shiftLeft_zero,
    BitVec.or_zero, BitVec.or_assoc, Nat.zero_add, Nat.reduceAdd]

/-! ## The registers that hold several fields -/

theorem readLoc_ctrl (off : BitVec 16) (s : State) :
    readLoc off s .ctrl = (BitVec.ofBool s.cfg.cc16 ++ BitVec.ofBool s.cfg.tieEven).setWidth 32 := by
  show bit01 s.cfg.tieEven ||| bit01 s.cfg.cc16 <<< 1 = _
  cases s.cfg.tieEven <;> cases s.cfg.cc16 <;> decide

theorem bit01_eq_setWidth (b : Bool) : bit01 b = (BitVec.ofBool b).setWidth 32 := by
  cases b <;> decide

/-- A length below 2^10 is shown whole by its ten bits. -/
theorem readLoc_accStat {off : BitVec 16} {s : State} (h : s.fd.acc.length ≤ Config.accCap) :
    readLoc off s .accStat = (BitVec.ofBool s.fd.accOvf ++ BitVec.ofNat 16 s.fd.acc.length).setWidth 32 := by
  have hlen : (BitVec.ofNat 10 s.fd.acc.length).setWidth 32 = (BitVec.ofNat 16 s.fd.acc.length).setWidth 32 := by
    unfold Config.accCap at h
    refine BitVec.eq_of_toNat_eq ?_
    simp only [BitVec.toNat_setWidth, BitVec.toNat_ofNat]
    omega
  rw [setWidth_append_low_first, ← hlen, ← bit01_eq_setWidth]
  rfl

theorem readLoc_fqCount {off : BitVec 16} {s : State} (h : s.fq.length ≤ Config.fqDepth) :
    readLoc off s .fqCount = BitVec.ofNat 32 s.fq.length := by
  unfold Config.fqDepth at h
  refine BitVec.eq_of_toNat_eq ?_
  simp only [readLoc, BitVec.toNat_setWidth, BitVec.toNat_ofNat]
  omega

theorem readLoc_rxerr (off : BitVec 16) (s : State) :
    readLoc off s .rxerr = (s.log.rxerrLen ++ (0 : Byte) ++ s.log.rxerrCode).setWidth 32 := by
  rw [setWidth_append_low_first, setWidth_append_low_first, BitVec.shiftLeft_or_distrib,
    ← BitVec.shiftLeft_add]
  simp [readLoc]

theorem pack4_zero (b0 b1 b2 : Byte) : pack4 b0 b1 b2 0 = (b2 ++ b1 ++ b0).setWidth 32 := by
  refine BitVec.eq_of_getLsbD_eq (fun i hi => ?_)
  simp only [pack4, BitVec.getLsbD_append, BitVec.getLsbD_setWidth, BitVec.ofNat_eq_ofNat, BitVec.getLsbD_zero]
  grind

theorem pack4_zero_zero (b0 b1 : Byte) : pack4 b0 b1 0 0 = (b1 ++ b0).setWidth 32 := by
  refine BitVec.eq_of_getLsbD_eq (fun i hi => ?_)
  simp only [pack4, BitVec.getLsbD_append, BitVec.getLsbD_setWidth, BitVec.ofNat_eq_ofNat, BitVec.getLsbD_zero]
  grind

theorem readLoc_txStat (off : BitVec 16) (s : State) :
    readLoc off s .txStat = (s.tx.txIdx ++ (0 : BitVec 7) ++ s.tx.txLen).setWidth 32 := by
  rw [setWidth_append_low_first, setWidth_append_low_first, BitVec.shiftLeft_or_distrib,
    ← BitVec.shiftLeft_add]
  simp [readLoc]

theorem readLoc_rxh2 {off : BitVec 16} {s : State} (h : s.dec.rxpValid = true) :
    readLoc off s .rxh2 = (BitVec.ofBool s.dec.rxp.known ++ s.dec.rxp.plen ++ BitVec.ofBool s.dec.rxp.dataFlow
      ++ s.dec.rxp.pktNum).setWidth 32 := by
  simp only [setWidth_append_low_first, BitVec.shiftLeft_or_distrib, ← BitVec.shiftLeft_add, ← bit01_eq_setWidth,
    readLoc, h, if_true, BitVec.or_assoc]

/-! ## Where the registers stand (10_state.md R30) -/

theorem locAt_mtReg : ∀ k : BitVec 3, locAt (0x080 + 4 * k.setWidth 16) = some (.mtReg k.toNat) := by decide

theorem locAt_x : ∀ i : XIndex, locAt (0x0C0 + 4 * i.setWidth 16) = some (.x i) := by decide

/-! ## Host reads -/

/-- A host read of a location puts what the location shows on the data lines (44_host.md R190). -/
theorem step_reads {s : State} {off : BitVec 16} {l : Loc} (hl : locAt off = some l) {w : Word}
    (hw : readLoc off (takeEvent s) l = w) :
    ∀ rest, s.env.pending = .hostRead off :: rest → ∃ t, step s = .next t ∧ t.env.rdata = w := by
  intro rest hp
  refine ⟨_, step_of_read hp, ?_⟩
  rw [hostRead_env, ← hw]
  simp only [readValue, hl]

theorem readLoc_rxpay {off : BitVec 16} {s : State} {i : Nat} (hv : s.dec.rxpValid = true)
    (hi : i < s.dec.rxp.plen.toNat) : readLoc off s (.rxpay i) = (byteAt s (rxpayBase + i)).setWidth 32 := by
  simp [readLoc, hv, hi]

theorem readLoc_txb {off : BitVec 16} {s : State} {i : Nat} (hv : s.tx.encValid = true)
    (hi : i < s.tx.txLen.toNat) : readLoc off s (.txb i) = (byteAt s (txbBase + i)).setWidth 32 := by
  simp [readLoc, hv, hi]

theorem readLoc_x {off : BitVec 16} {s : State} {i : XIndex} {w : Word} (h : getx s i = some w) :
    readLoc off s (.x i) = w := by
  obtain ⟨hv, hw⟩ := getx_eq_some.mp h
  exact (if_pos hv).trans hw

/-! ## Host writes -/

/-- The read-only locations (10_state.md R30, R32). -/
def readOnly : Loc → Bool
  | .status | .ict | .accStat | .fqCount | .rxerr | .operr | .cntFfe | .cntCsum | .cntDrop | .cntOk
  | .cpppos | .txStat | .txg | .xvReg | .cmdcode | .rxh0 | .rxh1 | .rxh2 | .rxpay _ | .txb _ => true
  | _ => false

/-- The offsets of the registers that hold no writable bit (10_state.md R30). -/
def readOnlyOffsets : List (BitVec 16) :=
  [0x004, 0x01C, 0x020, 0x024, 0x028, 0x02C, 0x030, 0x034, 0x038, 0x03C, 0x048, 0x050, 0x054, 0x058, 0x05C, 0x070,
    0x074, 0x078]

theorem locAt_readOnlyOffsets {off : BitVec 16} (h : off ∈ readOnlyOffsets) :
    ∃ l, locAt off = some l ∧ readOnly l = true := by
  have hall : readOnlyOffsets.all (fun a => (locAt a).any readOnly) = true := by decide
  exact (Option.any_eq_true _ _).mp (List.all_eq_true.mp hall off h)

/-- A write to a read-only location does nothing (20_memory.md R46). -/
theorem writeLoc_of_readOnly {l : Loc} (h : readOnly l = true) (w : Word) (s : State) : writeLoc w s l = s := by
  cases l <;> first | rfl | cases h

/-- A host write to a location other than CMD is the location's own write (44_host.md R190). -/
theorem step_writes {s : State} {off : BitVec 16} {w : Word} {rest : List Event} {l : Loc}
    (hl : locAt off = some l) (hcmd : l ≠ .cmd) (hp : s.env.pending = .hostWrite off w :: rest) :
    step s = .next (writeLoc w { s with env := { s.env with pending := rest, draw := s.env.draw + 1 } } l) := by
  rw [step_of_write hp (by rw [hl]; simpa using hcmd), takeEvent_eq (by rw [hp, List.tail_cons])]
  simp only [hostWrite, hl]

/-- MT_REG<k> takes the word; the other bits of the registry stay (10_state.md R30). -/
theorem getLsbD_setMtReg (k : Nat) (w : Word) (s : State) {j : Nat} (hj : j < 256) :
    (setMtReg k w s).cfg.mtReg.getLsbD j =
      if 32 * k ≤ j ∧ j < 32 * k + 32 then w.getLsbD (j - 32 * k) else s.cfg.mtReg.getLsbD j := by
  have hones : (0xFFFFFFFF : BitVec 256) = (BitVec.allOnes 32).setWidth 256 := rfl
  simp only [setMtReg_cfg, hones, BitVec.getLsbD_or, BitVec.getLsbD_and, BitVec.getLsbD_not,
    BitVec.getLsbD_shiftLeft, BitVec.getLsbD_setWidth, BitVec.getLsbD_allOnes]
  have hhigh : 32 ≤ j - 32 * k → w.getLsbD (j - 32 * k) = false := BitVec.getLsbD_of_ge w _
  grind

theorem bytes_append (w : Word) : bits w 24 8 ++ bits w 16 8 ++ bits w 8 8 ++ bits w 0 8 = w := by
  refine BitVec.eq_of_getLsbD_eq (fun i hi => ?_)
  simp only [bits, BitVec.getLsbD_append, BitVec.getLsbD_extractLsb']
  grind

/-- The stored word reads back. -/
theorem wordAt_store_self (a : Nat) (w : Word) (s : State) : wordAt (store a (wordBytes w) s) a = w := by
  have hbyte (i : Nat) (hi : i < 4) : byteAt (store a (wordBytes w) s) (a + i) = (wordBytes w).getD i 0 := by
    have hlen : (wordBytes w).length = 4 := rfl
    rw [byteAt_store, if_pos (by omega), Nat.add_sub_cancel_left]
  have hlow : byteAt (store a (wordBytes w) s) a = (wordBytes w).getD 0 0 := hbyte 0 (by decide)
  rw [wordAt, hbyte 3 (by decide), hbyte 2 (by decide), hbyte 1 (by decide), hlow]
  exact bytes_append w

end Sys2Proof.Machine

namespace Sys2Proof.Proofs
open Sys2Proof.Machine

/-- Settles O56: each offset has its location, and each location shows its part of the state. -/
theorem registerReadsShowTheState : Obligations.RegisterReadsShowTheState := by
  intro s reads
  have readsAt {off : BitVec 16} {w : Word} (l : Loc) (hl : locAt off = some l)
      (hw : readLoc off (takeEvent s) l = w) : reads off w := step_reads hl hw
  refine ⟨?status, readsAt .ctrl rfl (readLoc_ctrl _ _),
    readsAt .irqPend rfl rfl, readsAt .irqEn rfl rfl, readsAt .tChar rfl rfl, readsAt .tPkt rfl rfl,
    readsAt .tTxIdle rfl rfl, readsAt .ict rfl rfl, ?lengths,
    readsAt .rxerr rfl (readLoc_rxerr _ _), readsAt .operr rfl (pack4_zero _ _ _),
    readsAt .cntFfe rfl rfl, readsAt .cntCsum rfl rfl, readsAt .cntDrop rfl rfl, readsAt .cntOk rfl rfl,
    readsAt .cmd rfl rfl, readsAt .plen rfl rfl, readsAt .cpppos rfl (pack4_zero_zero _ _), readsAt .tailLen rfl rfl,
    readsAt .txStat rfl (readLoc_txStat _ _), readsAt .txg rfl rfl, readsAt .xvReg rfl rfl, readsAt .cmdcode rfl rfl,
    readsAt .txh0 rfl rfl, readsAt .txh1 rfl rfl, readsAt .txh2 rfl rfl,
    fun k => readsAt (.mtReg k.toNat) (locAt_mtReg k) rfl, fun i w hx => readsAt (.x i) (locAt_x i) (readLoc_x hx),
    fun off h => readsAt _ (locAt_byteWindow h) rfl, fun off h1 h2 hv => ?rxpay, fun off h1 h2 h3 hv => ?txb,
    fun off h4 h => readsAt _ (locAt_wordWindow h4 h) rfl, fun hv => ?rxh⟩
  case status =>
    intro rest hp
    obtain ⟨t, ht, hr⟩ := readsAt .status rfl (statusWord_eq_flags s) rest hp
    refine ⟨t, ht, fun k hk => ?_⟩
    simp only [hr, getLsbD_flagsFrom _ 0 hk, Nat.zero_le, decide_true, Bool.true_and, Nat.sub_zero]
  case lengths =>
    rintro ⟨hacc, -, -, -, hfq, -⟩
    exact ⟨readsAt .accStat rfl (readLoc_accStat (s := takeEvent s) hacc),
      readsAt .fqCount rfl (readLoc_fqCount (s := takeEvent s) hfq)⟩
  case rxpay =>
    have hp := s.dec.rxp.plen.isLt
    have ha : rxpayBase + (off.toNat - rxpayBase) = off.toNat := Nat.add_sub_cancel' h1
    have hi : off.toNat - rxpayBase < s.dec.rxp.plen.toNat := by unfold rxpayBase; omega
    rw [← ha]
    exact readsAt _ (locAt_rxpay ⟨h1, by omega⟩) (readLoc_rxpay (s := takeEvent s) hv hi)
  case txb =>
    have ha : txbBase + (off.toNat - txbBase) = off.toNat := Nat.add_sub_cancel' h1
    have hi : off.toNat - txbBase < s.tx.txLen.toNat := by unfold txbBase; omega
    rw [← ha]
    exact readsAt _ (locAt_txb ⟨h1, h2⟩) (readLoc_txb (s := takeEvent s) hv hi)
  case rxh =>
    exact ⟨readsAt .rxh0 rfl (if_pos hv), readsAt .rxh1 rfl (if_pos hv),
      readsAt .rxh2 rfl (readLoc_rxh2 (s := takeEvent s) hv)⟩

/-- Settles O57: each offset has its location, and each location takes its write. -/
theorem registerWritesStoreTheirFields : Obligations.RegisterWritesStoreTheirFields := by
  intro s w rest taken wrote
  have wroteAt {off : BitVec 16} {t : State} (l : Loc) (hl : locAt off = some l) (hcmd : l ≠ .cmd)
      (ht : writeLoc w taken l = t) : wrote off t := fun hp => ht ▸ step_writes hl hcmd hp
  refine ⟨wroteAt .ctrl rfl nofun rfl, wroteAt .irqPend rfl nofun rfl, wroteAt .irqEn rfl nofun rfl,
    wroteAt .tChar rfl nofun rfl, wroteAt .tPkt rfl nofun rfl, wroteAt .tTxIdle rfl nofun rfl,
    wroteAt .plen rfl nofun rfl, wroteAt .tailLen rfl nofun rfl,
    wroteAt .txh0 rfl nofun rfl, wroteAt .txh1 rfl nofun rfl, wroteAt .txh2 rfl nofun rfl,
    fun k hp => ?mtReg, fun i => wroteAt (.x i) (locAt_x i) nofun rfl,
    fun off h hp => ?byte, fun off h4 h hp => ?word, fun off h => ?readOnly⟩
  case mtReg =>
    exact ⟨_, step_writes (locAt_mtReg k) nofun hp, rfl, fun j hj => getLsbD_setMtReg k.toNat w taken hj⟩
  case byte =>
    exact ⟨_, step_writes (locAt_byteWindow h) nofun hp, rfl, stored_store off.toNat _ taken⟩
  case word =>
    exact ⟨_, step_writes (locAt_wordWindow h4 h) nofun hp, rfl, wordAt_store_self off.toNat w taken,
      fun a ha => byteAt_store_outside ha⟩
  case readOnly =>
    obtain ⟨l, hl, hro⟩ : ∃ l, locAt off = some l ∧ readOnly l = true := by
      rcases h with h | h | h
      · exact locAt_readOnlyOffsets h
      · exact ⟨_, locAt_rxpay h, rfl⟩
      · exact ⟨_, locAt_txb h, rfl⟩
    exact wroteAt l hl (by rintro rfl; cases hro) (writeLoc_of_readOnly hro w taken)

end Sys2Proof.Proofs

/-! PROOF. Host reads and accesses no rule maps, and the sending of a frame (20_memory.md R44 to R50; 42_codec.md R129,
R130). -/

namespace Sys2Proof.Machine

/-! ## Host accesses (44_host.md R190, 20_memory.md R44, R46) -/

theorem readValue_of_unmapped {off : BitVec 16} (h : locAt off = none) (s : State) : readValue off s = 0 := by
  simp only [readValue, h]

theorem hostWrite_of_unmapped {off : BitVec 16} (h : locAt off = none) (w : Word) (s : State) :
    hostWrite off w s = s := by
  simp only [hostWrite, h]

/-! ## Sending a frame (42_codec.md R129, R130) -/

/-- SEND accepted. -/
theorem execSend_of_accepted {s : State} (he : s.tx.encValid = true) (hb : s.tx.txBusy = false) (hg : s.tx.txg = 0) :
    execSend s = .next { s with tx := { s.tx with txBusy := true, txIdx := 0 } } := by
  simp [execSend, he, hb, hg]

/-- `s` while the frame in TXB is sent, with its first `k` bytes handed over. -/
def sending (k : Nat) (s : State) : State := { s with
  tx := { s.tx with txBusy := true, txIdx := BitVec.ofNat 9 k }
  env := { s.env with txOut := s.env.txOut ++ bytesAt s txbBase k } }

theorem sending_zero (s : State) : sending 0 s = { s with tx := { s.tx with txBusy := true, txIdx := 0 } } := by
  simp [sending, bytesAt]

theorem handedOver_sending {k : Nat} (hk : k < 512) (s : State) : handedOver (sending k s) = sending (k + 1) s := by
  have hidx : (BitVec.ofNat 9 k).toNat = k := Nat.mod_eq_of_lt hk
  have hdata : txData (sending k s) = byteAt s (txbBase + k) :=
    (byteAt_of_parts (t := sending k s) rfl rfl rfl _).trans (congrArg (fun i => byteAt s (txbBase + i)) hidx)
  have hout : (s.env.txOut ++ bytesAt s txbBase k) ++ [byteAt s (txbBase + k)] =
      s.env.txOut ++ bytesAt s txbBase (k + 1) := by rw [bytesAt_succ, List.append_assoc]
  have hnext : BitVec.ofNat 9 k + 1 = BitVec.ofNat 9 (k + 1) := (BitVec.ofNat_add k 1).symm
  unfold handedOver
  rw [hdata]
  simp only [sending, hout, hnext]

/-- TXBYTE of a frame being sent: the last byte ends the frame. -/
theorem exec_txbyte_sending {k : Nat} {s : State} (hk : k < s.tx.txLen.toNat) :
    exec .txbyte (sending k s) =
      .next (if k + 1 = s.tx.txLen.toNat then endFrame (sending (k + 1) s) else sending (k + 1) s) := by
  have hlast : BitVec.ofNat 9 k + 1 = s.tx.txLen ↔ k + 1 = s.tx.txLen.toNat := by bv_omega
  refine (execTxbyte_of_busy (s := sending k s) rfl).trans ?_
  rw [handedOver_sending (by omega)]
  exact congrArg _ (if_congr hlast rfl rfl)

/-- SEND and fewer TXBYTE than the frame is long leave the rest of the frame to send. -/
theorem execAll_send_txbytes {s : State} (hsend : exec .send s = .next (sending 0 s)) {k : Nat}
    (hk : k < s.tx.txLen.toNat) : execAll (.send :: List.replicate k .txbyte) s = .next (sending k s) := by
  induction k with
  | zero => exact execAll_cons hsend
  | succ k ih =>
    rw [List.replicate_succ', ← List.cons_append, execAll_append (ih (by omega)),
      execAll_cons (exec_txbyte_sending (by omega)), if_neg (by omega)]
    rfl

/-- SEND and as many TXBYTE as the frame is long end the frame. -/
theorem execAll_send_whole_frame {s : State} (hsend : exec .send s = .next (sending 0 s)) {n : Nat}
    (hn : n + 1 = s.tx.txLen.toNat) :
    execAll (.send :: List.replicate (n + 1) .txbyte) s = .next (endFrame (sending (n + 1) s)) := by
  rw [List.replicate_succ', ← List.cons_append, execAll_append (execAll_send_txbytes hsend (by omega)),
    execAll_cons (exec_txbyte_sending (by omega)), if_pos hn]
  rfl

end Sys2Proof.Machine

namespace Sys2Proof.Proofs
open Sys2Proof.Machine

/-- Settles O55: an offset no rule maps has no location, and the step of a host access is the access itself. -/
theorem hostReadsAndUnmappedAccesses : Obligations.HostReadsAndUnmappedAccesses := by
  intro s off rest taken unmapped
  refine ⟨fun hp => ?read, fun w hp hun => ?write⟩
  case read =>
    have htaken : takeEvent s = taken := takeEvent_eq (by rw [hp, List.tail_cons])
    exact ⟨hostRead off taken, htaken ▸ step_of_read hp, rfl,
      fun hun => readValue_of_unmapped (locAt_eq_none hun) taken⟩
  case write =>
    have hloc : locAt off = none := locAt_eq_none hun
    rw [step_of_write hp (by rw [hloc]; nofun), hostWrite_of_unmapped hloc, takeEvent_eq (by rw [hp, List.tail_cons])]

/-- Settles O25, by induction on the number of bytes handed over. -/
theorem sendHandsOverTheWholeFrame : Obligations.SendHandsOverTheWholeFrame := by
  intro s he hb hg hlen
  have hsend : exec .send s = .next (sending 0 s) := by
    rw [sending_zero]
    exact execSend_of_accepted he hb hg
  refine ⟨fun k hk => ?before, ?whole⟩
  case before =>
    exact ⟨sending k s, execAll_send_txbytes hsend hk, rfl, Nat.mod_eq_of_lt (by omega), rfl⟩
  case whole =>
    obtain ⟨n, hn⟩ : ∃ n, s.tx.txLen.toNat = n + 1 := Nat.exists_eq_succ_of_ne_zero (by bv_omega)
    rw [hn]
    exact ⟨_, execAll_send_whole_frame hsend hn.symm, rfl, rfl, rfl, rfl⟩

end Sys2Proof.Proofs

/-! PROOF. TWOS and FIXP in both directions: the stored number, its bytes and the register (20_memory.md R41;
43_packer.md R151 to R153, R163, R166). -/

namespace Sys2Proof.Machine

/-! ## The bytes of a field (20_memory.md R41) -/

theorem fieldLen_eq (w16 : Bool) : fieldLen w16 = if w16 then 2 else 1 := rfl

theorem fieldBits_eq (w16 : Bool) : fieldBits w16 = if w16 then 16 else 8 := by cases w16 <;> rfl

theorem toNat_lowByte (w : BitVec 16) : (w.extractLsb' 0 8).toNat = w.toNat % 256 := by
  rw [BitVec.extractLsb'_toNat, Nat.shiftRight_zero]

theorem toNat_highByte (w : BitVec 16) : (w.extractLsb' 8 8).toNat = w.toNat / 256 := by
  rw [BitVec.extractLsb'_toNat, Nat.shiftRight_eq_div_pow]
  omega

/-- The bytes of a field are those of the 16-bit number it holds. -/
theorem fieldBytes_eq_orderedBytes (w16 le : Bool) (u : Nat) :
    fieldBytes w16 le u = orderedBytes w16 le (BitVec.ofNat 16 u) := by
  have hlow : BitVec.ofNat 8 u = (BitVec.ofNat 16 u).extractLsb' 0 8 := by
    refine BitVec.eq_of_toNat_eq ?_
    rw [toNat_lowByte, BitVec.toNat_ofNat, BitVec.toNat_ofNat]
    omega
  have hhigh : BitVec.ofNat 8 (u / 256) = (BitVec.ofNat 16 u).extractLsb' 8 8 := by
    refine BitVec.eq_of_toNat_eq ?_
    rw [toNat_highByte, BitVec.toNat_ofNat, BitVec.toNat_ofNat]
    omega
  unfold fieldBytes orderedBytes
  rw [hlow, hhigh]
  cases w16 <;> cases le <;> rfl

theorem fieldBytes_toNat (w16 le : Bool) {z : Int} (hz : 0 ≤ z) :
    fieldBytes w16 le z.toNat = orderedBytes w16 le (BitVec.ofInt 16 z) := by
  obtain ⟨u, rfl⟩ := Int.eq_ofNat_of_zero_le hz
  rw [fieldBytes_eq_orderedBytes, Int.toNat_natCast, BitVec.ofInt_natCast]

/-- The bytes of a field show a number modulo two to the power of the field's width. -/
theorem orderedBytes_emod (w16 le : Bool) (q : Int) :
    orderedBytes w16 le (BitVec.ofInt 16 (q % 2 ^ fieldBits w16)) = orderedBytes w16 le (BitVec.ofInt 16 q) := by
  cases w16 with
  | true =>
    have hq : BitVec.ofInt 16 (q % 2 ^ 16) = BitVec.ofInt 16 q := by
      refine BitVec.eq_of_toNat_eq ?_
      simp only [BitVec.toNat_ofInt]
      omega
    exact congrArg _ hq
  | false =>
    have hq : (BitVec.ofInt 16 (q % 2 ^ 8)).extractLsb' 0 8 = (BitVec.ofInt 16 q).extractLsb' 0 8 := by
      refine BitVec.eq_of_toNat_eq ?_
      simp only [toNat_lowByte, BitVec.toNat_ofInt]
      omega
    exact congrArg (fun b => [b]) hq

theorem fieldValue_orderedBytes (w16 le : Bool) (w : BitVec 16) :
    fieldValue le (orderedBytes w16 le w) = w.toNat % 2 ^ fieldBits w16 := by
  have hw := w.isLt
  cases w16 with
  | false => exact toNat_lowByte w
  | true =>
    have hword : w.toNat % 2 ^ fieldBits true = w.toNat := Nat.mod_eq_of_lt hw
    cases le <;>
      simp only [fieldValue, orderedBytes, toNat_lowByte, toNat_highByte, hword, Bool.false_eq_true, if_false,
        if_true] <;>
      omega

/-! ## The stored numbers (43_packer.md R153, R163, R166) -/

/-- Adding the modulus to a negative number is the number modulo it. -/
theorem ite_neg_add_eq_emod {m q : Int} (hlo : -m ≤ q) (hhi : q < m) : (if q < 0 then q + m else q) = q % m := by
  split
  · rw [← Int.add_emod_right, Int.emod_eq_of_lt (by omega) (by omega)]
  · rw [Int.emod_eq_of_lt (by omega) hhi]

theorem twosStored_of_representable {n : Nat} {v : Int} (hn : 1 ≤ n) (hlo : -2 ^ (n - 1) ≤ v)
    (hhi : v ≤ 2 ^ (n - 1) - 1) : twosStored n v = .ok (v % 2 ^ n).toNat := by
  have hpow : (2 : Int) ^ (n - 1) * 2 = 2 ^ n := pow_sub_one_mul (by omega) 2
  have hpos : (0 : Int) < 2 ^ (n - 1) := by positivity
  simp only [twosStored, Nat.cast_pow, Nat.cast_ofNat]
  rw [if_neg (by omega), ite_neg_add_eq_emod (by omega) (by omega)]

/-- TWOS reads the low N bits as a signed number (43_packer.md R163). -/
theorem twosValue_eq_toInt {n : Nat} (hn : 1 ≤ n) (u : Nat) : twosValue n u = (BitVec.ofNat n u).toInt := by
  have hpow : 2 ^ (n - 1) * 2 = 2 ^ n := pow_sub_one_mul (by omega) 2
  simp only [twosValue, BitVec.toInt_eq_toNat_cond, BitVec.toNat_ofNat]
  split <;> split <;> omega

theorem twosValue_mod {n k : Nat} (h : n ≤ k) (u : Nat) : twosValue n (u % 2 ^ k) = twosValue n u := by
  simp only [twosValue, Nat.mod_mod_of_dvd u (pow_dvd_pow 2 h)]

theorem roundTie_nonneg (even : Bool) {num den : Int} (hn : 0 ≤ num) (hd : 0 < den) : 0 ≤ roundTie even num den := by
  have hq : 0 ≤ num / den := Int.ediv_nonneg hn hd.le
  unfold roundTie
  simp only
  split_ifs <;> omega

/-- What a FIXP in pack direction has to fit into its field: `round(value * scale)`, the register holding 16
fraction bits (43_packer.md R166). -/
def fixpProduct (tieEven sgn : Bool) (scale : Nat) (x : Word) : Int :=
  roundTie tieEven ((if sgn then x.toInt else (x.toNat : Int)) * scale) 65536

theorem fixpProduct_nonneg (tieEven : Bool) (scale : Nat) (x : Word) : 0 ≤ fixpProduct tieEven false scale x :=
  roundTie_nonneg tieEven (by simp only [Bool.false_eq_true, if_false]; positivity) (by decide)

theorem fixpStored_of_fits {tieEven sgn : Bool} {fw scale : Nat} {x : Word} (hfw : 1 ≤ fw)
    (hu : sgn = false → fixpProduct tieEven sgn scale x ≤ 2 ^ fw - 1)
    (hs : sgn = true → -2 ^ (fw - 1) ≤ fixpProduct tieEven sgn scale x
      ∧ fixpProduct tieEven sgn scale x ≤ 2 ^ (fw - 1) - 1) :
    fixpStored tieEven fw sgn scale x = .ok (fixpProduct tieEven sgn scale x % 2 ^ fw).toNat := by
  have hpow : (2 : Int) ^ (fw - 1) * 2 = 2 ^ fw := pow_sub_one_mul (by omega) 2
  have hpos : (0 : Int) < 2 ^ (fw - 1) := by positivity
  have hq : roundTie tieEven ((if sgn then x.toInt else (x.toNat : Int)) * scale) 65536 =
      fixpProduct tieEven sgn scale x := rfl
  simp only [fixpStored, hq, Nat.cast_pow, Nat.cast_ofNat]
  cases sgn with
  | false =>
    have hlo := fixpProduct_nonneg tieEven scale x
    have hhi := hu rfl
    rw [if_neg (fun h => absurd h.2 (by omega)), if_neg nofun, ite_neg_add_eq_emod (by omega) (by omega)]
  | true =>
    obtain ⟨hlo, hhi⟩ := hs rfl
    rw [if_neg nofun, if_neg (fun h => absurd h.2 (by omega)), ite_neg_add_eq_emod (by omega) (by omega)]

/-- The number of a field: its unsigned value, less the modulus when it is signed and its top bit is set. -/
theorem fieldNumber_eq (w16 sgn : Bool) (w : BitVec 16) :
    fieldNumber w16 sgn w =
      if sgn = true ∧ 2 ^ (fieldBits w16 - 1) ≤ w.toNat % 2 ^ fieldBits w16 then
        ((w.toNat % 2 ^ fieldBits w16 : Nat) : Int) - ((2 ^ fieldBits w16 : Nat) : Int)
      else ((w.toNat % 2 ^ fieldBits w16 : Nat) : Int) := by
  have hw := w.isLt
  have h8 : fieldBits false = 8 := rfl
  have h16 : fieldBits true = 16 := rfl
  cases w16 <;> cases sgn <;>
    simp only [fieldNumber, BitVec.toInt_eq_toNat_cond, toNat_lowByte, h8, h16, Bool.false_eq_true, false_and,
      true_and, if_false] <;>
    omega

theorem fixpValue_eq (tieEven w16 sgn : Bool) (scale : Nat) (w : BitVec 16) :
    fixpValue tieEven (fieldBits w16) sgn scale (w.toNat % 2 ^ fieldBits w16) =
      BitVec.ofInt 32 (roundTie tieEven (fieldNumber w16 sgn w * 65536) scale) := by
  rw [fixpValue, fieldNumber_eq]

/-! ## One pass, without an exception (43_packer.md R151, R156, R181) -/

theorem packBytes_packedField {adv : Nat} {r : Except OpFault (List Byte)} {bs : List Byte} {s : State}
    (hr : r = .ok bs) (hc : s.cpp.cur.toNat + bs.length ≤ 255) :
    PackedField bs adv s (packBytes s.cpp.pc adv r (pcAdvanced s)) := by
  have hfit : ¬ (pcAdvanced s).cpp.cur.toNat + bs.length > Config.payMax := Nat.not_lt.mpr hc
  have hpass : packBytes s.cpp.pc adv r (pcAdvanced s) =
      advance adv (store (payBase + s.cpp.cur.toNat) bs (pcAdvanced s)) := by
    rw [hr, packBytes]
    exact if_neg hfit
  rw [hpass]
  exact packedField_of_store

theorem unpackBytes_unpackedField {k adv : Nat} {value : List Byte → Except OpFault (List (XIndex × Word))}
    {xr : XIndex} {w : Word} {s : State} (hc : s.cpp.cur.toNat + k ≤ s.dec.rxp.plen.toNat)
    (hv : value (bytesAt s (rxpayBase + s.cpp.cur.toNat) k) = .ok [(xr, w)]) :
    unpackBytes s.cpp.pc k adv value (pcAdvanced s) = unpackedField xr w adv s := by
  have hfit : ¬ (pcAdvanced s).cpp.cur.toNat + k > (pcAdvanced s).dec.rxp.plen.toNat := Nat.not_lt.mpr hc
  have hread : value (bytesAt (pcAdvanced s) (rxpayBase + (pcAdvanced s).cpp.cur.toNat) k) = .ok [(xr, w)] := hv
  rw [unpackBytes, if_neg hfit, hread]
  rfl

/-! ## TWOS and FIXP, whatever the spelling (30_encoding.md R78, R79) -/

/-- LE says nothing of a field of one byte. -/
theorem twosField_of_byte (xr : XIndex) (le : Bool) (n : BitVec 5) (s : State) :
    twosField xr false le n s = twosField xr false false n s := by
  cases le <;> rfl

theorem fixpField_of_byte (xr : XIndex) (le sgn : Bool) (scale : BitVec 16) (s : State) :
    fixpField xr false le sgn scale s = fixpField xr false false sgn scale s := by
  cases le <;> rfl

theorem exec_of_twosForm {i : Instr} {xr : XIndex} {w16 le : Bool} {n : BitVec 5} (h : TwosForm i xr w16 le n)
    (s : State) : exec i s = .next (twosField xr w16 le n s) := by
  rcases h with rfl | ⟨rfl, rfl⟩ | ⟨rfl, rfl, rfl⟩ | ⟨rfl, rfl, rfl⟩ | ⟨rfl, rfl, rfl⟩ | ⟨rfl, rfl, rfl, rfl⟩
    | ⟨rfl, rfl, rfl, rfl⟩
  · rfl
  · rw [twosField_of_byte]; rfl
  · rfl
  · rfl
  · rw [twosField_of_byte]; rfl
  · rfl
  · rfl

theorem exec_of_fixpForm {i : Instr} {xr : XIndex} {w16 le sgn : Bool} {scale : BitVec 16}
    (h : FixpForm i xr w16 le sgn scale) (s : State) : exec i s = .next (fixpField xr w16 le sgn scale s) := by
  rcases h with rfl | ⟨rfl, rfl⟩ | ⟨rfl, rfl, rfl⟩ | ⟨rfl, rfl, rfl⟩
  · rfl
  · rw [fixpField_of_byte]; rfl
  · rfl
  · rfl

theorem twosLegal_of_le {w16 : Bool} {n : BitVec 5} (h1 : 1 ≤ n.toNat) (h2 : n.toNat ≤ fieldBits w16) :
    twosLegal w16 n = true := by
  simp [twosLegal, h1, h2]

theorem fixpLegal_of_ne_zero {scale : BitVec 16} (h : scale ≠ 0) : fixpLegal scale = true := by
  simp only [fixpLegal, decide_eq_true_eq]
  bv_omega

end Sys2Proof.Machine

namespace Sys2Proof.Proofs
open Sys2Proof.Machine

/-- Settles O32: the stored number is the value modulo 2^N, and its bytes are stored at the cursor. -/
theorem twosStoresARepresentableValue : Obligations.TwosStoresARepresentableValue := by
  intro s i xr w16 le n x hi h1 hn hr hx hlo hhi hc
  have hbytes : twosBytes xr w16 le n (pcAdvanced s) =
      .ok (orderedBytes w16 le (BitVec.ofInt 16 (x.toInt % 2 ^ n.toNat))) := by
    have hop : operand (pcAdvanced s) xr = .ok x := operand_of_some hx
    have hz : 0 ≤ x.toInt % 2 ^ n.toNat := Int.emod_nonneg _ (by positivity)
    simp only [twosBytes, hop, twosStored_of_representable h1 hlo hhi, fieldBytes_toNat w16 le hz]
  refine ⟨_, exec_of_twosForm hi s, ?_⟩
  rw [twosField, twosLegal_of_le h1 (fieldBits_eq w16 ▸ hn), runField_pack hr]
  exact packBytes_packedField hbytes (by rw [twosBytes_length hbytes]; exact hc)

/-- Settles O33: the number of the field's bytes, cut to its low N bits, is the signed value. -/
theorem twosReadsTheLowBitsAsSigned : Obligations.TwosReadsTheLowBitsAsSigned := by
  intro s i xr w16 le n w hi h1 hn hr hc hw
  have hfw : n.toNat ≤ fieldBits w16 := fieldBits_eq w16 ▸ hn
  rw [exec_of_twosForm hi, twosField, twosLegal_of_le h1 hfw, runField_unpack hr]
  refine congrArg _ (unpackBytes_unpackedField hc ?_)
  rw [fieldLen_eq, hw, twosRead, fieldValue_orderedBytes, twosValue_mod hfw,
    twosValue_eq_toInt h1]

/-- Settles O34: the rounded product, modulo the width of the field, is stored at the cursor. -/
theorem fixpStoresTheRoundedProduct : Obligations.FixpStoresTheRoundedProduct := by
  intro s i xr w16 le sgn scale x hi hscale hr hx q fw hu hs hc
  have hfw : fieldBits w16 = fw := fieldBits_eq w16
  have hbytes : fixpBytes xr w16 le sgn scale (pcAdvanced s) = .ok (orderedBytes w16 le (BitVec.ofInt 16 q)) := by
    have hop : operand (pcAdvanced s) xr = .ok x := operand_of_some hx
    have hstored : fixpStored s.cfg.tieEven (fieldBits w16) sgn scale.toNat x = .ok (q % 2 ^ fieldBits w16).toNat :=
      fixpStored_of_fits (by cases w16 <;> decide) (hfw ▸ hu) (hfw ▸ hs)
    have hz : 0 ≤ q % 2 ^ fieldBits w16 := Int.emod_nonneg _ (by positivity)
    simp only [fixpBytes, hop, show (pcAdvanced s).cfg = s.cfg from rfl, hstored, fieldBytes_toNat w16 le hz,
      orderedBytes_emod]
  refine ⟨_, exec_of_fixpForm hi s, ?_⟩
  rw [fixpField, fixpLegal_of_ne_zero hscale, runField_pack hr]
  exact packBytes_packedField hbytes (by rw [fixpBytes_length hbytes]; exact hc)

/-- Settles O35: the number of the field's bytes, signed or not, is divided by the scale. -/
theorem fixpReadsTheRoundedQuotient : Obligations.FixpReadsTheRoundedQuotient := by
  intro s i xr w16 le sgn scale w hi hscale hr hc hw
  rw [exec_of_fixpForm hi, fixpField, fixpLegal_of_ne_zero hscale, runField_unpack hr]
  refine congrArg _ (unpackBytes_unpackedField hc ?_)
  rw [fieldLen_eq, hw, fixpRead, fieldValue_orderedBytes, fixpValue_eq]
  rfl

end Sys2Proof.Proofs

/-! PROOF. Encoder and decoder (30_encoding.md R68 to R80): each word shows its fields, so it decodes to the instruction
it was made of. -/

namespace Sys2Proof

/-! ## The fields of a word -/

@[simp] theorem bits_or (v w : Word) (lo n : Nat) : bits (v ||| w) lo n = bits v lo n ||| bits w lo n :=
  BitVec.extractLsb'_or

theorem getLsbD_bits (w : Word) (lo n k : Nat) : (bits w lo n).getLsbD k = (decide (k < n) && w.getLsbD (lo + k)) :=
  BitVec.getLsbD_extractLsb' lo n w k

/-- One bit of a word is a field of width 1. -/
theorem getLsbD_eq_bits (w : Word) (k : Nat) : w.getLsbD k = (bits w k 1).getLsbD 0 := by
  rw [getLsbD_bits]
  rfl

theorem getLsbD_fieldAt {n : Nat} (v : BitVec n) (k j : Nat) :
    (fieldAt v k).getLsbD j = (decide (j < 32) && (decide (k ≤ j) && v.getLsbD (j - k))) := by
  simp only [fieldAt, BitVec.getLsbD_shiftLeft, BitVec.getLsbD_setWidth]
  grind

theorem bitAt_eq_fieldAt (b : Bool) (k : Nat) : bitAt b k = fieldAt (BitVec.ofBool b) k := rfl

/-- A field reads back at its own place. -/
@[simp] theorem bits_fieldAt_self {n k : Nat} (v : BitVec n) (h : k + n ≤ 32) : bits (fieldAt v k) k n = v := by
  refine BitVec.eq_of_getLsbD_eq (fun j hj => ?_)
  rw [getLsbD_bits, getLsbD_fieldAt, decide_eq_true hj, decide_eq_true (show k + j < 32 by omega),
    decide_eq_true (Nat.le_add_right k j), Nat.add_sub_cancel_left]
  rfl

/-- A field shows nowhere else. -/
@[simp] theorem bits_fieldAt_apart {m n k lo : Nat} (v : BitVec m) (h : k + m ≤ lo ∨ lo + n ≤ k) :
    bits (fieldAt v k) lo n = 0 := by
  refine BitVec.eq_of_getLsbD_eq (fun j hj => ?_)
  rw [getLsbD_bits, getLsbD_fieldAt, BitVec.ofNat_eq_ofNat, BitVec.getLsbD_zero]
  rcases h with h | h
  · rw [BitVec.getLsbD_of_ge v _ (by omega), Bool.and_false, Bool.and_false, Bool.and_false]
  · rw [decide_eq_false (show ¬ k ≤ lo + j by omega), Bool.false_and, Bool.and_false, Bool.and_false]

/-! ## Line samples and command words (R68 to R70) -/

/-- The three fields of a line sample, one above the other. -/
theorem getLsbD_lineSample (tick valid : Bool) (b : Byte) (k : Nat) :
    (lineSample tick valid b).getLsbD k =
      if k < 8 then b.getLsbD k else (BitVec.ofBool tick ++ BitVec.ofBool valid).getLsbD (k - 8) := by
  simp only [lineSample, BitVec.cast_eq, BitVec.getLsbD_append]

theorem decodeLine_lineSample (tick valid : Bool) (b : Byte) :
    decodeLine (lineSample tick valid b) =
      if tick then (if valid then .rxbyteTick b else .tick) else (if valid then .rxbyte b else .noevent) := by
  have hdata : (lineSample tick valid b).extractLsb' 0 8 = b := by
    refine BitVec.eq_of_getLsbD_eq (fun j hj => ?_)
    rw [BitVec.getLsbD_extractLsb', getLsbD_lineSample, Nat.zero_add, if_pos hj, decide_eq_true hj, Bool.true_and]
  have htick : (lineSample tick valid b).getLsbD 9 = tick := by
    rw [getLsbD_lineSample]
    cases tick <;> cases valid <;> rfl
  have hvalid : (lineSample tick valid b).getLsbD 8 = valid := by
    rw [getLsbD_lineSample]
    cases tick <;> cases valid <;> rfl
  simp only [decodeLine, hdata, htick, hvalid]

@[simp] theorem bits_cmdWord_op (op : Byte) (arg : BitVec 16) : bits (cmdWord op arg) 24 8 = op := by simp [cmdWord]

@[simp] theorem bits_cmdWord_arg (op : Byte) (arg : BitVec 16) : bits (cmdWord op arg) 0 16 = arg := by simp [cmdWord]

/-- A reserved opcode (R75). -/
theorem decodeCmd_of_reserved {w : Word} (h : 0x0A ≤ (bits w 24 8).toNat) :
    decodeCmd w = .reservedCmd (bits w 24 8) (bits w 0 16) := by
  unfold decodeCmd
  split
  case h_11 => rfl
  all_goals omega

theorem decodeCmd_pack (code : BitVec 16) : decodeCmd (cmdWord 0x01 code) = .pack code := by
  simp [decodeCmd]

/-! ## Descriptor words (R71, R72) -/

/-- A reserved kind (R76). -/
theorem decodeKind_of_reserved {w : Word} (h : 7 ≤ (bits w 28 4).toNat) :
    decodeKind w = .reservedKind (bits w 28 4) (bits w 24 4) (bits w 20 4) (w.getLsbD 19) (w.getLsbD 18)
      (w.getLsbD 17) (w.getLsbD 16) (bits w 0 16) := by
  unfold decodeKind
  split
  case h_8 => rfl
  all_goals omega

theorem decodeKind_twosWord (xr : XIndex) (w16 le : Bool) (n : BitVec 5) :
    decodeKind (twosWord xr w16 le n) = .twos xr w16 le n := by
  simp only [decodeKind, twosWord, descWord, getLsbD_eq_bits]
  simp [bitAt_eq_fieldAt]

theorem decodeKind_fixpWord (xr : XIndex) (w16 le sgn : Bool) (s : BitVec 16) :
    decodeKind (fixpWord xr w16 le sgn s) = .fixp xr w16 le sgn s := by
  simp only [decodeKind, fixpWord, descWord, getLsbD_eq_bits]
  simp [bitAt_eq_fieldAt]

theorem decodeKind_bitfWord (xr : XIndex) (adv : Bool) (wid : BitVec 4) (pos : BitVec 3) :
    decodeKind (bitfWord xr adv wid pos) = .bitf xr adv wid pos := by
  simp only [decodeKind, bitfWord, descWord, getLsbD_eq_bits]
  simp [bitAt_eq_fieldAt]

theorem decodeKind_enum8 (xr : XIndex) (set : BitVec 5) :
    decodeKind (descWord 1 xr ||| fieldAt set 0) = .enum8 xr set := by
  simp [decodeKind, descWord]

theorem decodeKind_rtimer (xr xr2 : XIndex) : decodeKind (descWord 6 xr ||| fieldAt xr2 20) = .rtimer xr xr2 := by
  simp [decodeKind, descWord]

theorem decodeKind_reserved {kind : BitVec 4} (h : 7 ≤ kind.toNat) (xr xr2 : BitVec 4) (w16 le sgn adv : Bool)
    (param : BitVec 16) :
    decodeKind (descWord kind xr ||| fieldAt xr2 20 ||| bitAt w16 19 ||| bitAt le 18 ||| bitAt sgn 17
      ||| bitAt adv 16 ||| fieldAt param 0) = .reservedKind kind xr xr2 w16 le sgn adv param := by
  have hkind : bits (descWord kind xr ||| fieldAt xr2 20 ||| bitAt w16 19 ||| bitAt le 18 ||| bitAt sgn 17
      ||| bitAt adv 16 ||| fieldAt param 0) 28 4 = kind := by simp [descWord, bitAt_eq_fieldAt]
  rw [decodeKind_of_reserved (hkind.symm ▸ h), hkind]
  simp only [descWord, getLsbD_eq_bits]
  simp [bitAt_eq_fieldAt]

/-! ## Catalogue entries (R73) -/

theorem decodeEntry_of_valid (start : Byte) (code : BitVec 16) :
    decodeEntry (bitAt true 31 ||| fieldAt start 16 ||| fieldAt code 0) = .ok (.cmdtabEntry start code) := by
  simp only [decodeEntry, getLsbD_eq_bits]
  simp [bitAt_eq_fieldAt]

/-! ## Decode of encode -/

/-- A descriptor word decodes to the most specific of the spellings it can be written in. -/
theorem decode_desc_of_kind {w : Word} {i j : Instr} (h : decodeKind w = j) (hc : j.canon = i.canon) :
    decode (.desc w) = .ok i.canon := by
  rw [decode, decodeDesc, h, hc]

/-- The code of a well-formed instruction decodes to its most specific spelling (R78, R79). -/
theorem decode_of_encode {i : Instr} {c : Code} (hw : i.wellFormed = true) (he : encode i = some c) :
    decode c = .ok i.canon := by
  cases i <;> cases he
  case noevent | rxbyte | tick | rxbyteTick => exact congrArg Except.ok (decodeLine_lineSample _ _ _)
  case nop | unpack | encode | send | rxpop | rxen | rxdis | clrx | softreset => rfl
  case pack code => exact congrArg Except.ok (decodeCmd_pack code)
  case reservedCmd op arg =>
    have hop : bits (cmdWord op arg) 24 8 = op := bits_cmdWord_op op arg
    have hres : decodeCmd (cmdWord op arg) = .reservedCmd op arg := by
      rw [decodeCmd_of_reserved (hop.symm ▸ of_decide_eq_true hw), hop, bits_cmdWord_arg]
    exact congrArg Except.ok hres
  case endShape | tail => rfl
  case enum8 xr set => exact decode_desc_of_kind (decodeKind_enum8 xr set) rfl
  case twos | twos8 | twos16be | twos16le | s8 | s16be | s16le =>
    exact decode_desc_of_kind (decodeKind_twosWord _ _ _ _) rfl
  case fixp | fixp8 | fixp16be | fixp16le => exact decode_desc_of_kind (decodeKind_fixpWord _ _ _ _ _) rfl
  case bitf | u8 | bit => exact decode_desc_of_kind (decodeKind_bitfWord _ _ _ _) rfl
  case rtimer xr xr2 => exact decode_desc_of_kind (decodeKind_rtimer xr xr2) rfl
  case reservedKind kind xr xr2 w16 le sgn adv param =>
    exact decode_desc_of_kind (decodeKind_reserved (of_decide_eq_true hw) xr xr2 w16 le sgn adv param) rfl
  case cmdtabEntry start code => exact decodeEntry_of_valid start code

end Sys2Proof

namespace Sys2Proof.Proofs
open Sys2Proof.Machine

/-- Settles O1: each word is written out, and the decoder evaluates on it. -/
theorem writtenWordsDecodeToTheirInstructions : Obligations.WrittenWordsDecodeToTheirInstructions := by
  unfold Obligations.WrittenWordsDecodeToTheirInstructions
  decide

/-- Settles O2, row by row: the fields of each word read back. -/
theorem decodeInvertsEncode : Obligations.DecodeInvertsEncode := by
  intro i c hw he
  have hcanon : decode c = .ok i.canon := decode_of_encode hw he
  exact ⟨hcanon, fun hc => hcanon.trans (congrArg Except.ok (of_decide_eq_true hc))⟩

end Sys2Proof.Proofs

/-! PROOF. ENUM8 and BITF in both directions (30_encoding.md R74, R79; 43_packer.md R151, R160, R170). -/

namespace Sys2Proof.Machine

/-! ## ENUM8 -/

theorem enum8Bytes_of_member {s : State} {xr : XIndex} {set : BitVec 5} {v : Byte}
    (hx : getx s xr = some (v.setWidth 32)) (hv : esetHas s set v.toNat = true) : enum8Bytes xr set s = .ok [v] := by
  have hval : (v.setWidth 32).toNat = v.toNat := by rw [BitVec.toNat_setWidth]; omega
  have hbyte : ¬ v.toNat > 255 := Nat.not_lt.mpr (Nat.le_of_lt_succ v.isLt)
  simp only [enum8Bytes, operand_of_some hx, hval, if_neg hbyte, if_pos hv, BitVec.ofNat_toNat, BitVec.setWidth_eq]

theorem enum8Value_of_member {s : State} (xr : XIndex) {set : BitVec 5} {v : Byte}
    (hv : esetHas s set v.toNat = true) : enum8Value xr set s [v] = .ok [(xr, v.setWidth 32)] := if_pos hv

/-! ## The bits of a BITF (43_packer.md R170) -/

/-- The mask covers the bits POS to POS + WID - 1. -/
theorem getLsbD_bitfMask (wid pos : Nat) {k : Nat} (hk : k < 8) :
    (bitfMask wid pos).getLsbD k = decide (pos ≤ k ∧ k < pos + wid) := by
  rw [bitfMask, BitVec.getLsbD_ofNat, Nat.testBit_mul_two_pow, Nat.testBit_two_pow_sub_one]
  grind

/-- BITF in pack direction replaces the bits of its field and keeps the others. -/
theorem getLsbD_bitfInsert {wid pos v : Nat} (old : Byte) (hv : v < 2 ^ wid) {k : Nat} (hk : k < 8) :
    (bitfInsert wid pos old v).getLsbD k =
      if pos ≤ k ∧ k < pos + wid then v.testBit (k - pos) else old.getLsbD k := by
  have hhigh (h : pos + wid ≤ k) : v.testBit (k - pos) = false :=
    Nat.testBit_lt_two_pow (hv.trans_le (Nat.pow_le_pow_right (by decide) (by omega)))
  simp only [bitfInsert, BitVec.getLsbD_or, BitVec.getLsbD_and, BitVec.getLsbD_not, getLsbD_bitfMask wid pos hk,
    BitVec.getLsbD_ofNat, Nat.testBit_mul_two_pow]
  grind

/-- BITF in unpack direction takes the bits of its field, zero-extended. -/
theorem getLsbD_bitfExtract (wid pos : Nat) (b : Byte) {k : Nat} (hk : k < 32) :
    (BitVec.ofNat 32 (bitfExtract wid pos b)).getLsbD k = (decide (k < wid) && b.getLsbD (pos + k)) := by
  rw [BitVec.getLsbD_ofNat, bitfExtract, Nat.testBit_mod_two_pow, Nat.testBit_div_two_pow, decide_eq_true hk,
    Bool.true_and, Nat.add_comm k pos]
  rfl

theorem bitfBytes_of_fits {s : State} {xr : XIndex} {wid : BitVec 4} {pos : BitVec 3} {x : Word}
    (hx : getx s xr = some x) (hv : x.toNat < 2 ^ wid.toNat) :
    bitfBytes xr wid pos s =
      .ok [bitfInsert wid.toNat pos.toNat (byteAt s (payBase + s.cpp.cur.toNat)) x.toNat] := by
  have hfit : ¬ x.toNat > 2 ^ wid.toNat - 1 := by omega
  simp only [bitfBytes, operand_of_some hx, if_neg hfit]

/-- The legal parameters of BITF (30_encoding.md R72). -/
theorem bitfLegal_iff {wid : BitVec 4} {pos : BitVec 3} :
    bitfLegal wid pos = true ↔ 1 ≤ wid.toNat ∧ pos.toNat + wid.toNat ≤ 8 := by
  simp only [bitfLegal, Bool.and_eq_true, decide_eq_true_eq]
  omega

theorem exec_of_bitfForm {i : Instr} {xr : XIndex} {adv : Bool} {wid : BitVec 4} {pos : BitVec 3}
    (h : BitfForm i xr adv wid pos) (s : State) : exec i s = .next (bitfField xr adv wid pos s) := by
  rcases h with rfl | ⟨rfl, rfl, rfl, rfl⟩ | ⟨rfl, rfl⟩ <;> rfl

/-! ## ShapeFault (43_packer.md R156) -/

/-- An exception at index 255 comes before every other test. -/
theorem exec_field_at_255 {i : Instr} {s : State} (hi : isField i = true) (h : s.cpp.pc = 255) :
    exec i s = .next (opFaultEntry .shapeFault 255 s.cpp.cur s) := by
  cases i <;> cases hi <;> exact congrArg Host.Outcome.next (runField_at_255 h)

/-- An illegal descriptor before index 255 raises ShapeFault with `pc` past it, in either direction. -/
theorem runField_illegal_faulted {legal : Bool} {pk un : Byte → State → State} {s : State} (hl : legal = false)
    (h : s.cpp.pc ≠ 255) : Faulted 0x20 s.cpp.pc s.cpp.cur (pcAdvanced s) (runField legal pk un s) := by
  rw [hl, runField_illegal h]
  exact opFaultEntry_faulted .shapeFault s.cpp.pc s.cpp.cur (pcAdvanced s)

end Sys2Proof.Machine

namespace Sys2Proof.Proofs
open Sys2Proof.Machine

/-- Settles O31: the member is the byte stored, and the byte read. -/
theorem enum8CarriesAMemberOfItsSet : Obligations.Enum8CarriesAMemberOfItsSet := by
  intro s xr set v hv
  have hset : esetHas (pcAdvanced s) set v.toNat = true := hv
  refine ⟨fun hr hx hc => ⟨_, rfl, ?packed⟩, fun hr hc hb => congrArg Host.Outcome.next ?unpacked⟩
  case packed =>
    rw [enum8Field, runField_pack hr]
    exact packBytes_packedField (enum8Bytes_of_member hx hset) hc
  case unpacked =>
    rw [enum8Field, runField_unpack hr]
    refine unpackBytes_unpackedField hc ?_
    subst hb
    exact enum8Value_of_member xr hset

/-- Settles O36: the byte stored is the one at the cursor with the field's bits replaced. -/
theorem bitfSetsOnlyItsBits : Obligations.BitfSetsOnlyItsBits := by
  intro s i xr adv wid pos x hi h1 h8 hr hx hv hc
  refine ⟨_, _, exec_of_bitfForm hi s, ?_, fun k hk => getLsbD_bitfInsert _ hv hk⟩
  rw [bitfField, bitfLegal_iff.mpr ⟨h1, h8⟩, runField_pack hr]
  exact packBytes_packedField (bitfBytes_of_fits (s := pcAdvanced s) hx hv) hc

/-- Settles O37: the word written is the field of the byte at the cursor. -/
theorem bitfReadsOnlyItsBits : Obligations.BitfReadsOnlyItsBits := by
  intro s i xr adv wid pos hi h1 h8 hr hc
  refine ⟨_, ?_, fun k hk => getLsbD_bitfExtract wid.toNat pos.toNat _ hk⟩
  rw [exec_of_bitfForm hi, bitfField, bitfLegal_iff.mpr ⟨h1, h8⟩, runField_unpack hr]
  exact congrArg Host.Outcome.next (unpackBytes_unpackedField hc rfl)

/-- Settles O40: `runField` tests the index and the parameter before it turns to the direction. -/
theorem malformedShapesRaiseShapeFault : Obligations.MalformedShapesRaiseShapeFault := by
  intro s
  refine ⟨fun i hi hpc => ?last, fun hpc => ⟨?reserved, ?twos, ?fixp, ?bitf⟩, fun w hw => ?word⟩
  case last => exact ⟨_, exec_field_at_255 hi hpc, opFaultEntry_faulted .shapeFault 255 s.cpp.cur s⟩
  case reserved => exact fun _ _ _ _ _ _ _ _ => ⟨_, rfl, runField_illegal_faulted rfl hpc⟩
  case twos =>
    intro i xr w16 le n hi hn
    have hl : twosLegal w16 n = false := by
      rw [← fieldBits_eq] at hn
      simp only [twosLegal, Bool.and_eq_false_iff, decide_eq_false_iff_not]
      omega
    exact ⟨_, exec_of_twosForm hi s, runField_illegal_faulted hl hpc⟩
  case fixp => exact fun i xr w16 le sgn hi => ⟨_, exec_of_fixpForm hi s, runField_illegal_faulted rfl hpc⟩
  case bitf =>
    intro i xr adv wid pos hi hbad
    have hl : bitfLegal wid pos = false := by
      rw [Bool.eq_false_iff, ne_eq, bitfLegal_iff]
      omega
    exact ⟨_, exec_of_bitfForm hi s, runField_illegal_faulted hl hpc⟩
  case word => exact ⟨_, _, _, _, _, _, _, decode_desc_of_kind (decodeKind_of_reserved hw) rfl⟩

end Sys2Proof.Proofs

/-! PROOF. DECODE of the frame ENCODE built (30_encoding.md R61; 42_codec.md R121, R124, R127). -/

namespace Sys2Proof.Machine

/-! ## The frame ENCODE leaves in TXB -/

theorem execEncode_of_accepted {s : State} (hb : s.tx.txBusy = false) (hp : s.cpp.payOk = true) :
    execEncode s = .next (frameStaged s) := by
  simp [execEncode, hb, hp, frameStaged]

/-- The frame reads back whole from TXB. -/
theorem bytesAt_frameStaged (s : State) :
    bytesAt (frameStaged s) txbBase (frameStaged s).tx.txLen.toNat = encodedFrame s := by
  rw [frameStaged_txLen, ← encodedFrame_length, bytesAt_congr (fun a _ _ => byteAt_frameStaged s a),
    bytesAt_store_self]

/-! ## What DECODE makes of it -/

/-- The frame passes every test of DECODE. -/
theorem judge_encodedFrame (s u : State) : judge (encodedFrame s) u = deliver (encodedFrame s) u := by
  have hlen := encodedFrame_length s
  have hnine : ((encodedFrame s).getD 9 0).toNat = s.cpp.plen.toNat := by rw [encodedFrame_getD_nine]
  have hvalid : validates (encodedFrame s) = true := validates_append_csum (frameBody s)
  have hnone : frameError (encodedFrame s) = none := by
    rw [frameError_eq_of_length (by omega) (by omega), if_pos hvalid]
  simp only [judge, hnone]

/-- The header fields come back: byte `k` of the frame is byte `k` of the staged header. -/
theorem packetOf_encodedFrame (mtReg : BitVec 256) (s : State) :
    packetOf mtReg (encodedFrame s) = {
      dst := s.tx.hdr.dst, src := s.tx.hdr.src, subnet := s.tx.hdr.subnet, sendMethod := s.tx.hdr.sendMethod
      sp0 := s.tx.hdr.sp0, sp1 := s.tx.hdr.sp1, srcNodeType := s.tx.hdr.srcNodeType
      msgType := s.tx.hdr.msgType, dataFlow := s.tx.hdr.pktByte.getLsbD 7
      pktNum := s.tx.hdr.pktByte.extractLsb' 0 7, plen := s.cpp.plen
      known := mtReg.getLsbD s.tx.hdr.msgType.toNat } := rfl

/-- The payload lies between the length byte and the check bytes. -/
theorem framePayload_encodedFrame (s : State) :
    framePayload (encodedFrame s) = bytesAt s payBase s.cpp.plen.toNat := by
  have hafter : (encodedFrame s).drop 10 =
      bytesAt s payBase s.cpp.plen.toNat ++ [(csum (frameBody s)).1, (csum (frameBody s)).2] := rfl
  have hplen : (frameByte (encodedFrame s) 9).toNat = s.cpp.plen.toNat := congrArg _ (encodedFrame_getD_nine s)
  rw [framePayload, hplen, hafter]
  exact List.take_left' (bytesAt_length s payBase s.cpp.plen.toNat)

/-- A delivered payload reads back from RXPAY. -/
theorem bytesAt_deliver (f : List Byte) (s : State) :
    bytesAt (deliver f s) rxpayBase (framePayload f).length = framePayload f :=
  bytesAt_store_self rxpayBase (framePayload f) _

end Sys2Proof.Machine

namespace Sys2Proof.Proofs
open Sys2Proof.Machine

/-- Settles O22: the candidate is the encoded frame, which DECODE accepts and takes apart. -/
theorem decodingTheEncodedFrameGivesBackThePacket :
    Obligations.DecodingTheEncodedFrameGivesBackThePacket := by
  intro s t u o rest hb hp he hq hv
  obtain rfl : frameStaged s = t := Host.Outcome.next.inj ((execEncode_of_accepted hb hp).symm.trans he)
  rw [bytesAt_frameStaged] at hq
  have hdecode : exec .decode u = .next (deliver (encodedFrame s) { u with fq := rest }) :=
    (execDecode_of_head hv hq).trans (congrArg _ (judge_encodedFrame s _))
  refine ⟨_, hdecode, ?packet, ?payload⟩
  case packet => exact congrArg (Dec.mk true) (packetOf_encodedFrame u.cfg.mtReg s)
  case payload =>
    have hread := bytesAt_deliver (encodedFrame s) { u with fq := rest }
    rwa [framePayload_encodedFrame, bytesAt_length] at hread

end Sys2Proof.Proofs

/-! PROOF. TICK's two parts and the guard over a run of ticks, up to the SEND it admits (40_delimiter.md R92, R97;
42_codec.md R129, R131). -/

namespace Sys2Proof.Machine

/-! ## What a tick leaves of the transmit unit (42_codec.md R131) -/

theorem flushAcc_tx (s : State) : (flushAcc s).tx = s.tx := by
  by_cases ha : s.fd.acc = []
  · rw [flushAcc_of_empty ha]
  · by_cases hq : s.fq.length < 4
    · rw [flushAcc_of_room ha hq]
    · rw [flushAcc_of_full ha (Nat.le_of_not_lt hq)]

theorem fdTick_tx (s : State) : (fdTick s).tx = s.tx := by
  rcases fdTick_cases s with h | ⟨_, _, h | h⟩
  · rw [h]
  · rw [h]
  · rw [h, flushAcc_tx]

theorem lineTick_tx (s : State) : (lineTick s).tx = (guardAt (guardNext s.tx.txg) s).tx := by
  rw [lineTick, fdTick_tx, guardTick_eq_guardAt]

/-- One tick counts the guard down as a truncated subtraction does. -/
theorem guardNext_ofNat_sub (g : BitVec 16) (j : Nat) :
    guardNext (BitVec.ofNat 16 (g.toNat - j)) = BitVec.ofNat 16 (g.toNat - (j + 1)) := by
  have hg := g.isLt
  unfold guardNext
  split <;> bv_omega

theorem execAll_ticks_snoc {k : Nat} {s t : State} (h : execAll (ticks k) s = .next t) :
    execAll (ticks (k + 1)) s = .next (lineTick t) := by
  rw [ticks_add, execAll_append h]
  rfl

/-- Ticks move the transmit guard and nothing else of the transmit unit, whatever the delimiter does meanwhile. -/
theorem execAll_ticks_tx (k : Nat) (s : State) : ∃ t, execAll (ticks k) s = .next t ∧
    t.tx = (guardAt (BitVec.ofNat 16 (s.tx.txg.toNat - k)) s).tx := by
  induction k with
  | zero => exact ⟨s, rfl, by rw [Nat.sub_zero, BitVec.ofNat_toNat, BitVec.setWidth_eq]; rfl⟩
  | succ k ih =>
    obtain ⟨t, hrun, htx⟩ := ih
    exact ⟨lineTick t, execAll_ticks_snoc hrun, by rw [lineTick_tx, guardAt, htx, ← guardNext_ofNat_sub]; rfl⟩

/-! ## SEND refused (42_codec.md R129) -/

theorem execSend_of_refused {s : State} (h : s.tx.encValid = false ∨ s.tx.txBusy = true ∨ s.tx.txg ≠ 0) :
    execSend s = .next (refusedWith 0x30 s) := by
  rw [execSend, if_pos (by simpa [or_assoc] using h)]
  rfl

end Sys2Proof.Machine

namespace Sys2Proof.Proofs
open Sys2Proof.Machine

/-- Settles O26: `k` ticks leave the guard at what it held less `k`, which is 0 from that many ticks on. -/
theorem sendWaitsForTheIdlePeriod : Obligations.SendWaitsForTheIdlePeriod := by
  intro s k he hb
  obtain ⟨t, hrun, htx⟩ := execAll_ticks_tx k s
  have hguard : t.tx.txg = BitVec.ofNat 16 (s.tx.txg.toNat - k) := congrArg Tx.txg htx
  refine ⟨t, hrun, fun hk => ?waiting, fun hk => ?elapsed⟩
  case waiting => exact execSend_of_refused (.inr (.inr (by rw [hguard]; bv_omega)))
  case elapsed =>
    refine execSend_of_accepted ((congrArg Tx.encValid htx).trans he) ((congrArg Tx.txBusy htx).trans hb) ?_
    rw [hguard, Nat.sub_eq_zero_of_le hk]
    rfl

/-- Settles O11: the guard's tick first, then the three cases of the delimiter's. -/
theorem tickCountsGuardAndTimer : Obligations.TickCountsGuardAndTimer := by
  intro s g k
  have htick : lineTick s = fdTick { s with tx := g } := congrArg fdTick (guardTick_eq s)
  refine ⟨fun h => ?idle, fun he ha hk => ?counting, fun he ha hk => ⟨_, rfl, ?timeout⟩⟩
  case idle => exact congrArg Host.Outcome.next (htick.trans (fdTick_of_idle h))
  case counting => exact congrArg Host.Outcome.next (htick.trans (fdTick_of_counting he ha (BitVec.not_lt.mpr hk)))
  case timeout => exact congrArg Host.Outcome.next (htick.trans (fdTick_of_timeout he ha hk))

/-- Settles O12: the one step of the sample is the composition of the two events. -/
theorem coincidentByteComesBeforeTheTick : Obligations.CoincidentByteComesBeforeTheTick := by
  intro s b
  exact ⟨⟨rxByte b s, lineTick (rxByte b s), rfl, rfl, rfl⟩, rfl, rfl⟩

end Sys2Proof.Proofs

/-! PROOF. The dual-sum checksum: its result, its ranges and what it sees of a byte (41_checksum.md R110, R111,
R114, R115). -/

namespace Sys2Proof.Machine

/-! ## CSUM and its check bytes (41_checksum.md R110, R111, R114) -/

theorem exec_csum (bytes : List Byte) (s : State) :
    exec (.csum bytes) s = .next { s with env := { s.env with csumOut := csum bytes } } := rfl


theorem toNat_ofNat_mod_csMod_lt (n : Nat) : (BitVec.ofNat 8 (n % Config.csMod)).toNat < 255 :=
  calc (BitVec.ofNat 8 (n % Config.csMod)).toNat
    _ ≤ n % Config.csMod := by rw [BitVec.toNat_ofNat]; exact Nat.mod_le _ _
    _ < 255 := Nat.mod_lt _ (by decide)

/-- Both check bytes are reduced modulo 255, whatever was summed. -/
theorem csum_lt (bytes : List Byte) : (csum bytes).1.toNat < 255 ∧ (csum bytes).2.toNat < 255 :=
  ⟨toNat_ofNat_mod_csMod_lt _, toNat_ofNat_mod_csMod_lt _⟩

theorem csum_ne_ff (bytes : List Byte) : (csum bytes).1 ≠ 0xFF ∧ (csum bytes).2 ≠ 0xFF := by
  obtain ⟨h1, h2⟩ := csum_lt bytes
  constructor <;> bv_omega

/-- A frame written as its body and its trailer validates exactly when the trailer is the body's checksum (R111). -/
theorem validates_append_iff (body : List Byte) (a b : Byte) :
    validates (body ++ [a, b]) = true ↔ a = (csum body).1 ∧ b = (csum body).2 := by
  simp [validates]

/-! ## What the sums see of a byte (41_checksum.md R115) -/

/-- A step sees its byte modulo 255 only. -/
theorem csumStep_congr {b c : Byte} (h : b.toNat % Config.csMod = c.toNat % Config.csMod) (p : Nat × Nat) :
    csumStep p b = csumStep p c := by
  have hsum : (p.1 + b.toNat) % Config.csMod = (p.1 + c.toNat) % Config.csMod := Nat.ModEq.add_left p.1 h
  unfold csumStep
  rw [hsum]

/-- So do the running sums: a byte anywhere may be exchanged for one that is the same modulo 255. -/
theorem csumSums_congr {b c : Byte} (h : b.toNat % Config.csMod = c.toNat % Config.csMod) (pre post : List Byte) :
    csumSums (pre ++ b :: post) = csumSums (pre ++ c :: post) := by
  unfold csumSums
  rw [List.foldl_append, List.foldl_append, List.foldl_cons, List.foldl_cons, csumStep_congr h]

theorem csum_congr {bs cs : List Byte} (h : csumSums bs = csumSums cs) : csum bs = csum cs := by
  unfold csum
  rw [h]

end Sys2Proof.Machine

namespace Sys2Proof.Proofs
open Sys2Proof.Machine

/-- Settles O17: the seeds are below 255 and every update reduces modulo 255, so a trailer byte 0xFF cannot be a
check byte of any body. -/
theorem checkBytesAreNever0xFF : Obligations.CheckBytesAreNever0xFF := by
  refine ⟨fun bytes => ?ranges, fun body a b hff => ?trailer⟩
  case ranges =>
    obtain ⟨hsum1, hsum2⟩ := csumSums_lt bytes
    obtain ⟨hcheck1, hcheck2⟩ := csum_lt bytes
    exact ⟨Nat.le_of_lt_succ hsum1, Nat.le_of_lt_succ hsum2, Nat.le_of_lt_succ hcheck1, Nat.le_of_lt_succ hcheck2⟩
  case trailer =>
    rw [Bool.eq_false_iff, ne_eq, validates_append_iff]
    rintro ⟨rfl, rfl⟩
    obtain ⟨hne1, hne2⟩ := csum_ne_ff body
    exact hff.elim hne1 hne2

/-- Settles O18: 0x00 and 0xFF are the same number modulo 255. -/
theorem zeroAndFFBytesAreIndistinguishable : Obligations.ZeroAndFFBytesAreIndistinguishable :=
  fun pre post => csum_congr (csumSums_congr (by decide) pre post)

/-- Settles O16: the seeds and the modulus that R110 writes out are the model's constants. -/
theorem csumReturnsTheDualSum : Obligations.CsumReturnsTheDualSum :=
  fun bytes s => exec_csum bytes s

end Sys2Proof.Proofs

/-! PROOF. ENCODE, DECODE of a bad candidate, RXPOP, SEND and TXBYTE, case by case (42_codec.md R121, R124, R125, R128
to R130). -/

namespace Sys2Proof.Machine

/-! ## ENCODE and RXPOP (42_codec.md R121, R128) -/

theorem execEncode_of_refused {s : State} (h : s.tx.txBusy = true ∨ s.cpp.payOk = false) :
    execEncode s = .next (refusedWith 0x30 s) := by
  rw [execEncode, if_pos (by simpa using h)]
  rfl

/-- The frame stands in TXB, and no other byte has changed. -/
theorem stored_frameStaged (s : State) : Stored txbBase (encodedFrame s) s (frameStaged s) :=
  stored_of_mem rfl rfl rfl

theorem execRxpop_of_packet {s : State} (h : s.dec.rxpValid = true) :
    execRxpop s = .next { s with dec := { s.dec with rxpValid := false } } := by
  rw [execRxpop, if_pos h]

theorem execRxpop_of_none {s : State} (h : s.dec.rxpValid = false) :
    execRxpop s = .next (refusedWith 0x30 s) := by
  rw [execRxpop, if_neg (by simp [h])]
  rfl

/-! ## DECODE of a bad candidate (42_codec.md R124, 60_exceptions.md R216) -/

/-- A frame of the right length whose last two bytes are not the checksum of the others. -/
theorem frameError_checksum {f : List Byte} (hl : 12 ≤ f.length) (hn : (f.getD 9 0).toNat = f.length - 12)
    (hc : f.drop (f.length - 2) ≠ [(csum (f.take (f.length - 2))).1, (csum (f.take (f.length - 2))).2]) :
    frameError f = some .checksum := by
  have hbad : ¬ validates f = true := fun hv => hc ((validates_iff (by omega)).mp hv)
  rw [frameError_eq_of_length hl hn, if_neg hbad]

/-- DECODE of a candidate with an error drops it and enters that error. -/
theorem execDecode_of_error {s : State} {c : Candidate} {rest : List Candidate} {e : RxError}
    (hq : s.fq = c :: rest) (hv : s.dec.rxpValid = false) (he : frameError c.bytes = some e) :
    execDecode s = .next (rxErrorEntry e c.bytes.length { s with fq := rest }) := by
  rw [execDecode_of_head hv hq, judge, he]

end Sys2Proof.Machine

namespace Sys2Proof.Proofs
open Sys2Proof.Machine

/-- Settles O19: the accepted ENCODE stages the frame, whose layout is the one the statement spells out. -/
theorem encodeBuildsTheFrame : Obligations.EncodeBuildsTheFrame := by
  intro s h body
  have hframe : encodedFrame s = body ++ [(csum body).1, (csum body).2] := rfl
  refine ⟨fun hb hp => ⟨frameStaged s, execEncode_of_accepted hb hp, rfl, ?stored⟩, execEncode_of_refused⟩
  case stored => exact hframe ▸ stored_frameStaged s

/-- Settles O21: the length decides between the errors, and the entry of each logs it. -/
theorem decodeDropsAndLogsABadFrame : Obligations.DecodeDropsAndLogsABadFrame := by
  intro s logged ffe bad irq
  refine ⟨fun c rest hq hv => ⟨fun hl => ?short, fun hl hn => ?length, fun hl hn hc => ?checksum⟩,
    fun h => ?unguarded⟩
  case short => exact execDecode_of_error hq hv (frameError_short hl)
  case length => exact execDecode_of_error hq hv (frameError_length hl hn)
  case checksum => exact execDecode_of_error hq hv (frameError_checksum hl hn hc)
  case unguarded => exact h.elim execDecode_of_empty execDecode_of_full

/-- Settles O23, by the guard of each command. -/
theorem rxpopFreesTheSlotAndSendStartsTheFrame : Obligations.RxpopFreesTheSlotAndSendStartsTheFrame :=
  fun _ => ⟨execRxpop_of_packet, execRxpop_of_none, execSend_of_accepted, execSend_of_refused⟩

/-- Settles O24: the index of the next byte decides whether the frame ends. -/
theorem txbyteHandsOverOneByte : Obligations.TxbyteHandsOverOneByte := by
  intro s out
  refine ⟨⟨rfl, rfl⟩, fun hb hi => ?inner, fun hb hi => ?last, execTxbyte_of_idle⟩
  case inner => exact (execTxbyte_of_busy hb).trans (congrArg _ (if_neg hi))
  case last => exact (execTxbyte_of_busy hb).trans (congrArg _ (if_pos hi))

end Sys2Proof.Proofs

/-! PROOF. Every PACK and every UNPACK ends, and what it can have changed by then (43_packer.md R154 to R157, R180;
60_exceptions.md R217, R218). -/

namespace Sys2Proof.Machine

/-! ## RUN from an open state to an ended one -/

/-- `runShape_ends` with what is kept on the way: where END ends an open shape program and a field descriptor leaves it
open or ends it, RUN ends it. -/
theorem runShape_ends_of_open {Open Ended : State → Prop} (hidle : ∀ u, Open u → u.cpp.pkState = .idle)
    (hended : ∀ u, Ended u → u.cpp.pkState ≠ .idle) (hend : ∀ u, Open u → Ended (endShape u))
    (hfield : ∀ i u v, isField i = true → Open u → execDescriptor i u = .next v → Open v ∨ Ended v)
    {s : State} (hs : Open s) : ∃ t, runShape s = .next t ∧ Ended t := by
  obtain ⟨t, hrun, hstopped⟩ := runShape_ends (hidle s hs)
  have hkept : Open t ∨ Ended t := by
    refine runLoop_keeps (P := fun u => Open u ∨ Ended u) (fun u v hu hi hd => ?_) 256 s t (.inl hs) (hidle s hs) hrun
    have hopen : Open u := hu.resolve_right (fun he => hended u he hi)
    rcases decodeDesc_isField (shmWord u u.cpp.pc) with h | h
    · rw [h] at hd
      exact .inr (Host.Outcome.next.inj hd ▸ hend u hopen)
    · exact hfield _ u v h hopen hd
  exact ⟨t, hrun, hkept.resolve_left (fun ho => hstopped (hidle t ho))⟩

/-! ## Memory outside a window -/

theorem SameMemory.outside {s t : State} (h : SameMemory s t) (base n : Nat) : SameMemoryOutside base n s t :=
  fun a _ => h a

theorem SameMemoryOutside.trans {base n : Nat} {s t u : State} (h : SameMemoryOutside base n s t)
    (k : SameMemoryOutside base n t u) : SameMemoryOutside base n s u :=
  fun a ha => (k a ha).trans (h a ha)

/-- Bytes stored inside a window. -/
theorem Stored.outside {base n a : Nat} {bs : List Byte} {s t : State} (h : Stored a bs s t) (hl : base ≤ a)
    (hr : a + bs.length ≤ base + n) : SameMemoryOutside base n s t :=
  fun b hb => h.2 b (by omega)

/-! ## PACK (43_packer.md R154, R180) -/

/-- `t` is `s` inside a PACK of `code`, before its END or an exception: nothing is staged. -/
structure PackOpen (code : BitVec 16) (s t : State) : Prop where
  units : t = { s with
    cpp := { s.cpp with
      pkDir := .pack, pkState := .idle, payOk := false, cmdCode := code, plen := 0, pc := t.cpp.pc, cur := t.cpp.cur }
    mem := t.mem }
  bytes : SameMemoryOutside payBase 255 s t

/-- `t` is `s` after a PACK of `code`: the payload is complete, or an exception has left nothing staged. -/
structure PackEnded (code : BitVec 16) (s t : State) : Prop where
  outcome : (t.cpp.pkState = .done ∧ t.cpp.payOk = true ∧ t.cpp.plen = t.cpp.cur ∧ t.op = s.op ∧ t.irq = s.irq)
    ∨ (t.cpp.pkState = .fault ∧ t.cpp.payOk = false ∧ t.cpp.plen = 0
      ∧ t.op.opCode ∈ ([0x10, 0x11, 0x12, 0x13, 0x14, 0x20] : List Byte)
      ∧ t.irq = { s.irq with irqPend := s.irq.irqPend ||| 0x20 })
  units : t = { s with
    cpp := { t.cpp with x := s.cpp.x, xv := s.cpp.xv, tailLen := s.cpp.tailLen, cmdCode := code, pkDir := .pack }
    op := t.op, irq := t.irq, mem := t.mem }
  bytes : SameMemoryOutside payBase 255 s t

theorem PackEnded.not_idle {code : BitVec 16} {s t : State} (h : PackEnded code s t) : t.cpp.pkState ≠ .idle := by
  rcases h.outcome with ⟨hst, -⟩ | ⟨hst, -⟩ <;> simp [hst]

theorem PackEnded.payOk_of_fault {code : BitVec 16} {s t : State} (h : PackEnded code s t)
    (hf : t.cpp.pkState = .fault) : t.cpp.payOk = false := by
  rcases h.outcome with ⟨hst, -⟩ | ⟨-, hp, -⟩
  · simp [hst] at hf
  · exact hp

namespace PackOpen

variable {code : BitVec 16} {s u : State}

theorem dir (h : PackOpen code s u) : u.cpp.pkDir = .pack := by rw [h.units]

theorem idle (h : PackOpen code s u) : u.cpp.pkState = .idle := by rw [h.units]

theorem packOpen_pcAdvanced (h : PackOpen code s u) : PackOpen code s (pcAdvanced u) :=
  ⟨by rw [h.units]; rfl, h.bytes⟩

/-- Bytes stored in PAY, and the cursor moved. -/
theorem packOpen_store_advance (h : PackOpen code s u) {k adv : Nat} {bs : List Byte} (hl : k + bs.length ≤ 255) :
    PackOpen code s (advance adv (store (payBase + k) bs u)) :=
  ⟨by rw [h.units]; rfl, h.bytes.trans ((stored_store _ bs u).outside (by omega) (by omega))⟩

theorem packEnded_endShape (h : PackOpen code s u) : PackEnded code s (endShape u) := by
  have hend : endShape u =
      { u with cpp := { u.cpp with plen := u.cpp.cur, payOk := true, pkState := .done } } := by
    simp only [endShape, h.dir]
  rw [hend]
  exact ⟨.inl ⟨rfl, rfl, rfl, by rw [h.units], by rw [h.units]⟩, by rw [h.units], h.bytes⟩

theorem packEnded_opFaultEntry (h : PackOpen code s u) {f : OpFault} (hf : f = .unknownCommand ∨ f ∈ packFaults)
    (p c : Byte) : PackEnded code s (opFaultEntry f p c u) := by
  obtain ⟨hunits, hbytes⟩ := opFaultEntry_faulted f p c u
  generalize opFaultEntry f p c u = t at hunits hbytes
  simp only [h.dir] at hbytes
  have hcode : opFaultCode f ∈ ([0x10, 0x11, 0x12, 0x13, 0x14, 0x20] : List Byte) := by
    revert hf; cases f <;> decide
  refine ⟨.inr ?_, by rw [hunits, h.units], h.bytes.trans hbytes⟩
  rw [hunits, h.units]
  exact ⟨rfl, rfl, rfl, hcode, rfl⟩

/-- A field descriptor stores inside PAY, or ends PACK with an exception. -/
theorem packOpen_or_packEnded {t : State} (h : PackOpen code s u) (ho : PackOutcome u t) :
    PackOpen code s t ∨ PackEnded code s t := by
  rcases ho with ⟨f, hf, p, rfl | rfl⟩ | ⟨-, bs, adv, hl, -, rfl⟩
  · exact .inr (h.packEnded_opFaultEntry (.inr hf) p u.cpp.cur)
  · exact .inr (h.packOpen_pcAdvanced.packEnded_opFaultEntry (.inr hf) p u.cpp.cur)
  · exact .inl (h.packOpen_pcAdvanced.packOpen_store_advance hl)

theorem runShape_ends (h : PackOpen code s u) : ∃ t, runShape u = .next t ∧ PackEnded code s t := by
  refine runShape_ends_of_open (fun _ => idle) (fun _ => PackEnded.not_idle) (fun _ => packEnded_endShape) ?_ h
  intro i v w hi hv hd
  obtain ⟨t, ht, ho⟩ := field_pack_outcome hi hv.dir
  cases ht.symm.trans hd
  exact hv.packOpen_or_packEnded ho

end PackOpen

theorem packOpen_packStart (code : BitVec 16) (s : State) : PackOpen code s (packStart code s) where
  units := rfl
  bytes := by
    have hclear : Stored payBase (List.replicate 255 0) s (packStart code s) := stored_of_mem rfl rfl rfl
    exact hclear.outside le_rfl (by rw [List.length_replicate])

theorem packOpen_packEntered (code : BitVec 16) (start : Byte) (s : State) :
    PackOpen code s (packEntered code start s) where
  units := rfl
  bytes := (stored_packEntered code start s).outside le_rfl (by
    have hl := codeBytes_length_le s.cfg.cc16 code
    rw [List.length_append, List.length_replicate]
    omega)

/-- Every PACK ends. -/
theorem execPack_ends (code : BitVec 16) (s : State) : ∃ t, execPack code s = .next t ∧ PackEnded code s t := by
  have hstart := packOpen_packStart code s
  simp only [execPack]
  split
  · exact ⟨_, rfl, hstart.packEnded_opFaultEntry (.inr (by decide)) 0 0⟩
  · split
    · exact ⟨_, rfl, hstart.packEnded_opFaultEntry (.inl rfl) 0 0⟩
    · exact (packOpen_packEntered code _ s).runShape_ends

/-! ## UNPACK (43_packer.md R155, R180) -/

/-- `t` is `s` inside an UNPACK, before its END or an exception. -/
structure UnpackOpen (s t : State) : Prop where
  units : t = { s with
    cpp := { t.cpp with plen := s.cpp.plen, payOk := s.cpp.payOk, pkDir := .unpack, pkState := .idle }
    mem := t.mem }
  bytes : SameMemoryOutside tailBase 255 s t

/-- `t` is `s` after an UNPACK of a packet: at its END, or with an exception. -/
structure UnpackEnded (s t : State) : Prop where
  outcome : (t.cpp.pkState = .done ∧ t.op = s.op ∧ t.irq = s.irq)
    ∨ (t.cpp.pkState = .fault ∧ t.op.opCode ∈ ([0x14, 0x20, 0x21, 0x22] : List Byte)
      ∧ t.irq = { s.irq with irqPend := s.irq.irqPend ||| 0x20 })
  units : t = { s with
    cpp := { t.cpp with plen := s.cpp.plen, payOk := s.cpp.payOk, pkDir := .unpack }
    op := t.op, irq := t.irq, mem := t.mem }
  bytes : SameMemoryOutside tailBase 255 s t

theorem UnpackEnded.not_idle {s t : State} (h : UnpackEnded s t) : t.cpp.pkState ≠ .idle := by
  rcases h.outcome with ⟨hst, -⟩ | ⟨hst, -⟩ <;> simp [hst]

namespace UnpackOpen

variable {s u : State}

theorem dir (h : UnpackOpen s u) : u.cpp.pkDir = .unpack := by rw [h.units]

theorem idle (h : UnpackOpen s u) : u.cpp.pkState = .idle := by rw [h.units]

/-- The registers UNPACK may move freely. -/
theorem unpackOpen_registers (h : UnpackOpen s u) (pc cur tailLen : Byte) (cmdCode xv : BitVec 16)
    (x : Vector Word 16) : UnpackOpen s { u with cpp := { u.cpp with
      pc := pc, cur := cur, tailLen := tailLen, cmdCode := cmdCode, xv := xv, x := x } } :=
  ⟨by rw [h.units], h.bytes⟩

theorem unpackOpen_pcAdvanced (h : UnpackOpen s u) : UnpackOpen s (pcAdvanced u) := h.unpackOpen_registers _ _ _ _ _ _

/-- Registers written, and the cursor moved. -/
theorem unpackOpen_setxs_advance (h : UnpackOpen s u) (ws : List (XIndex × Word)) (adv : Nat) :
    UnpackOpen s (advance adv (setxs ws u)) := by
  rw [setxs_units]
  exact h.unpackOpen_registers _ _ _ _ _ _

/-- The tail is at most the 255 bytes of TAIL. -/
theorem unpackOpen_unpackTail (h : UnpackOpen s u) : UnpackOpen s (unpackTail u) := by
  have hp := u.dec.rxp.plen.isLt
  have htail : UnpackOpen s (store tailBase
      (bytesAt u (rxpayBase + u.cpp.cur.toNat) (u.dec.rxp.plen.toNat - u.cpp.cur.toNat)) u) :=
    ⟨by rw [h.units]; rfl,
      h.bytes.trans ((stored_store _ _ u).outside le_rfl (by rw [bytesAt_length]; omega))⟩
  exact htail.unpackOpen_registers _ _ _ _ _ _

theorem unpackEnded_endShape (h : UnpackOpen s u) : UnpackEnded s (endShape u) := by
  have hend : endShape u = { u with cpp := { u.cpp with pkState := .done } } := by
    simp only [endShape, h.dir]
  rw [hend]
  exact ⟨.inl ⟨rfl, by rw [h.units], by rw [h.units]⟩, by rw [h.units], h.bytes⟩

theorem unpackEnded_opFaultEntry (h : UnpackOpen s u) {f : OpFault} (hf : f = .unknownCommand ∨ f ∈ unpackFaults)
    (p c : Byte) : UnpackEnded s (opFaultEntry f p c u) := by
  obtain ⟨hunits, hbytes⟩ := opFaultEntry_faulted f p c u
  generalize opFaultEntry f p c u = t at hunits hbytes
  simp only [h.dir] at hbytes
  have hcode : opFaultCode f ∈ ([0x14, 0x20, 0x21, 0x22] : List Byte) := by
    revert hf; cases f <;> decide
  refine ⟨.inr ?_, by rw [hunits, h.units], h.bytes.trans (hbytes.outside _ _)⟩
  rw [hunits, h.units]
  exact ⟨rfl, hcode, rfl⟩

/-- A field descriptor writes registers or TAIL, or ends UNPACK with an exception. -/
theorem unpackOpen_or_unpackEnded {t : State} (h : UnpackOpen s u) (ho : UnpackOutcome u t) :
    UnpackOpen s t ∨ UnpackEnded s t := by
  rcases ho with ⟨f, hf, p, rfl | rfl⟩ | ⟨-, ws, adv, rfl⟩ | ⟨-, rfl⟩
  · exact .inr (h.unpackEnded_opFaultEntry (.inr hf) p u.cpp.cur)
  · exact .inr (h.unpackOpen_pcAdvanced.unpackEnded_opFaultEntry (.inr hf) p u.cpp.cur)
  · exact .inl (h.unpackOpen_pcAdvanced.unpackOpen_setxs_advance ws adv)
  · exact .inl h.unpackOpen_pcAdvanced.unpackOpen_unpackTail

theorem runShape_ends (h : UnpackOpen s u) : ∃ t, runShape u = .next t ∧ UnpackEnded s t := by
  refine runShape_ends_of_open (fun _ => idle) (fun _ => UnpackEnded.not_idle) (fun _ => unpackEnded_endShape) ?_ h
  intro i v w hi hv hd
  obtain ⟨t, ht, ho⟩ := field_unpack_outcome hi hv.dir
  cases ht.symm.trans hd
  exact hv.unpackOpen_or_unpackEnded ho

end UnpackOpen

theorem unpackOpen_unpackStart (s : State) : UnpackOpen s (unpackStart s) :=
  ⟨rfl, (sameMemory_of_parts rfl rfl rfl).outside _ _⟩

/-- Every UNPACK of a packet ends. -/
theorem execUnpack_ends {s : State} (hv : s.dec.rxpValid = true) :
    ∃ t, execUnpack s = .next t ∧ UnpackEnded s t := by
  have hstart := unpackOpen_unpackStart s
  have hcode : UnpackOpen s (unpackCode s) := hstart.unpackOpen_registers _ _ _ _ _ _
  rw [execUnpack, if_pos hv]
  split
  · exact ⟨_, rfl, hstart.unpackEnded_opFaultEntry (.inr (by decide)) 0 0⟩
  · split
    · exact ⟨_, rfl, hcode.unpackEnded_opFaultEntry (.inl rfl) 0 0⟩
    · exact (hcode.unpackOpen_registers _ _ _ _ _ _).runShape_ends

end Sys2Proof.Machine

namespace Sys2Proof.Proofs
open Sys2Proof.Machine

/-- Settles O52: every fetch of RUN leaves PACK open, with nothing staged, or ends it. -/
theorem everyPackEndsAndTouchesOnlyThePayload : Obligations.EveryPackEndsAndTouchesOnlyThePayload := by
  intro s code
  obtain ⟨t, ht, he⟩ := execPack_ends code s
  exact ⟨t, ht, he.outcome, he.units, he.bytes⟩

/-- Settles O53: every fetch of RUN leaves UNPACK open, or ends it. -/
theorem everyUnpackEndsAndLeavesTheStagedPayload : Obligations.EveryUnpackEndsAndLeavesTheStagedPayload := by
  intro s hv
  obtain ⟨t, ht, he⟩ := execUnpack_ends hv
  exact ⟨t, ht, he.outcome, he.units, he.bytes⟩

/-- Settles O54: a PACK that faulted has left nothing staged. -/
theorem encodeIsRefusedAfterAFaultedPack : Obligations.EncodeIsRefusedAfterAFaultedPack := by
  intro s t code hpack hfault
  obtain ⟨u, hu, he⟩ := execPack_ends code s
  obtain rfl : u = t := Host.Outcome.next.inj (hu.symm.trans hpack)
  exact execEncode_of_refused (.inr (he.payOk_of_fault hfault))

end Sys2Proof.Proofs

/-! PROOF. `round_tie` is the nearest integer, and what TWOS and FIXP carry from a register to a payload and from a
payload to a register comes back (43_packer.md R153, R163, R166). -/

namespace Sys2Proof.Machine

/-! ## The nearest integer (43_packer.md R153) -/

/-- The rounded quotient is the floor, at most half below, or the integer after it, at most half above. -/
theorem roundTie_cases (even : Bool) {num den : Int} (hd : 0 < den) :
    (roundTie even num den = num / den ∧ 2 * (num % den) ≤ den
      ∧ |num - roundTie even num den * den| = num % den)
    ∨ (roundTie even num den = num / den + 1 ∧ den ≤ 2 * (num % den)
      ∧ |num - roundTie even num den * den| = den - num % den) := by
  have hdiv := Int.mul_ediv_add_emod num den
  have hbelow : |num - num / den * den| = num % den := by
    rw [show num - num / den * den = num % den by linarith, abs_of_nonneg (Int.emod_nonneg num hd.ne')]
  have habove : |num - (num / den + 1) * den| = den - num % den := by
    have hlt := Int.emod_lt_of_pos num hd
    rw [show num - (num / den + 1) * den = -(den - num % den) by linarith, abs_neg, abs_of_pos (by omega)]
  have hside : (roundTie even num den = num / den ∧ 2 * (num % den) ≤ den)
      ∨ (roundTie even num den = num / den + 1 ∧ den ≤ 2 * (num % den)) := by
    unfold roundTie
    simp only
    split_ifs <;> omega
  rcases hside with ⟨hq, hr⟩ | ⟨hq, hr⟩
  · exact .inl ⟨hq, hr, hq ▸ hbelow⟩
  · exact .inr ⟨hq, hr, hq ▸ habove⟩

theorem roundTie_within_half (even : Bool) {num den : Int} (hd : 0 < den) :
    2 * |num - roundTie even num den * den| ≤ den := by
  rcases roundTie_cases even hd (num := num) with ⟨-, hr, hdist⟩ | ⟨-, hr, hdist⟩ <;> omega

theorem half_of_distance {even : Bool} {num den : Int} (hd : 0 < den)
    (h : 2 * |num - roundTie even num den * den| = den) : 2 * (num % den) = den := by
  rcases roundTie_cases even hd (num := num) with ⟨-, -, hdist⟩ | ⟨-, -, hdist⟩ <;> omega

/-- What `round_tie` answers on an exact half. -/
theorem roundTie_of_half {num den : Int} (h : 2 * (num % den) = den) (even : Bool) :
    roundTie even num den =
      if even then (if num / den % 2 = 0 then num / den else num / den + 1)
      else if 0 ≤ num then num / den + 1 else num / den := by
  unfold roundTie
  simp only
  rw [if_neg (by omega), if_neg (by omega)]

theorem roundTie_true_even_of_half {num den : Int} (h : 2 * (num % den) = den) : roundTie true num den % 2 = 0 := by
  rw [roundTie_of_half h, if_pos rfl]
  split <;> omega

/-- Without TIE_EVEN an exact half goes away from zero. -/
theorem abs_lt_roundTie_false_of_half {num den : Int} (hd : 0 < den) (h : 2 * (num % den) = den) :
    |num| < |roundTie false num den * den| := by
  have hdiv := Int.mul_ediv_add_emod num den
  rw [roundTie_of_half h, if_neg nofun]
  split
  · next hn =>
    have hup : (num / den + 1) * den = num + (den - num % den) := by linarith
    rw [hup, abs_of_nonneg hn, abs_of_pos (by omega)]
    omega
  · next hn =>
    have hdown : num / den * den = num - num % den := by linarith
    rw [hdown, abs_of_neg (by omega), abs_of_neg (by omega)]
    omega

/-- An integer less than half away is the one `round_tie` answers, whatever the tie rule. -/
theorem roundTie_eq_of_close (even : Bool) {num den z : Int} (hd : 0 < den) (h : 2 * |num - z * den| < den) :
    roundTie even num den = z := by
  have hround := roundTie_within_half even (num := num) hd
  have hsum : |(roundTie even num den - z) * den| ≤ |num - z * den| + |num - roundTie even num den * den| := by
    rw [show (roundTie even num den - z) * den = (num - z * den) - (num - roundTie even num den * den) by ring]
    exact abs_sub _ _
  rw [abs_mul, abs_of_pos hd] at hsum
  have hlt : |roundTie even num den - z| < 1 := by nlinarith
  exact sub_eq_zero.mp (Int.abs_lt_one_iff.mp hlt)

/-- Rounding does not pass an integer bound on the side of zero where the numerator's bound is. -/
theorem roundTie_le (even : Bool) {num den hi : Int} (hd : 0 < den) (h0 : 0 ≤ hi) (h : num ≤ hi) :
    roundTie even num den ≤ hi := by
  have hnear := neg_le_of_abs_le (show |2 * (num - roundTie even num den * den)| ≤ den by
    rw [abs_mul]; exact roundTie_within_half even hd)
  by_contra hlt
  nlinarith [mul_nonneg h0 (show (0 : Int) ≤ den - 1 by omega)]

theorem le_roundTie (even : Bool) {num den lo : Int} (hd : 0 < den) (h0 : lo ≤ 0) (h : lo ≤ num) :
    lo ≤ roundTie even num den := by
  have hnear := le_of_abs_le (show |2 * (num - roundTie even num den * den)| ≤ den by
    rw [abs_mul]; exact roundTie_within_half even hd)
  by_contra hlt
  nlinarith [mul_nonneg (neg_nonneg.mpr h0) (show (0 : Int) ≤ den - 1 by omega)]

/-! ## FIXP's quotient, multiplied back (43_packer.md R166) -/

/-- The range of a field's number. -/
theorem fieldNumber_bounds (w16 sgn : Bool) (w : BitVec 16) :
    (sgn = false → 0 ≤ fieldNumber w16 sgn w ∧ fieldNumber w16 sgn w ≤ 2 ^ fieldBits w16 - 1)
    ∧ (sgn = true → -2 ^ (fieldBits w16 - 1) ≤ fieldNumber w16 sgn w
      ∧ fieldNumber w16 sgn w ≤ 2 ^ (fieldBits w16 - 1) - 1) := by
  have hmod := Nat.mod_lt w.toNat (Nat.two_pow_pos (fieldBits w16))
  have hpow : 2 ^ (fieldBits w16 - 1) * 2 = 2 ^ fieldBits w16 := pow_sub_one_mul (by cases w16 <;> decide) 2
  rw [fieldNumber_eq]
  zify at hmod hpow ⊢
  refine ⟨fun hu => ?unsigned, fun hs => ?signed⟩
  case unsigned =>
    rw [if_neg (by simp [hu])]
    omega
  case signed =>
    simp only [hs, true_and]
    split <;> omega

/-- A scale of at most 16 bits is finer than the register's 16 fraction bits: the rounded quotient of a number, multiplied
back, is nearer to it than to any other. -/
theorem roundTie_quotient_mul (even even' : Bool) (z : Int) {scale : Nat} (h0 : 0 < scale) (h16 : scale < 65536) :
    roundTie even' (roundTie even (z * 65536) scale * scale) 65536 = z := by
  refine roundTie_eq_of_close even' (by decide) ?_
  have hnear := roundTie_within_half even (num := z * 65536) (show (0 : Int) < scale by exact_mod_cast h0)
  rw [abs_sub_comm] at hnear
  omega

/-- The number a register's word stands for in a FIXP. -/
theorem fixpProduct_ofInt {even sgn : Bool} {scale : Nat} {r : Int}
    (hu : sgn = false → 0 ≤ r ∧ r < 2 ^ 32) (hs : sgn = true → -2 ^ 31 ≤ r ∧ r < 2 ^ 31) :
    fixpProduct even sgn scale (BitVec.ofInt 32 r) = roundTie even (r * scale) 65536 := by
  have hword : (if sgn then (BitVec.ofInt 32 r).toInt else ((BitVec.ofInt 32 r).toNat : Int)) = r := by
    cases sgn with
    | true =>
      obtain ⟨hlo, hhi⟩ := hs rfl
      exact BitVec.toInt_ofInt_eq_self (by decide) hlo hhi
    | false =>
      obtain ⟨hlo, hhi⟩ := hu rfl
      rw [if_neg nofun, BitVec.toNat_ofInt]
      omega
  rw [fixpProduct, hword]

/-- FIXP in pack direction undoes FIXP in unpack direction, under either tie rule. -/
theorem fixpProduct_fieldNumber (even even' w16 sgn : Bool) (w : BitVec 16) {scale : BitVec 16} (h : scale ≠ 0) :
    fixpProduct even' sgn scale.toNat
      (BitVec.ofInt 32 (roundTie even (fieldNumber w16 sgn w * 65536) scale.toNat)) = fieldNumber w16 sgn w := by
  have hscale : 0 < scale.toNat := by bv_omega
  have hden : (0 : Int) < scale.toNat := by exact_mod_cast hscale
  obtain ⟨hu, hs⟩ := fieldNumber_bounds w16 sgn w
  have hfw : fieldBits w16 ≤ 16 := by cases w16 <;> decide
  have hpow : (2 : Int) ^ fieldBits w16 ≤ 2 ^ 16 := pow_le_pow_right₀ (by decide) hfw
  have hhalf : (2 : Int) ^ (fieldBits w16 - 1) ≤ 2 ^ 15 := pow_le_pow_right₀ (by decide) (by omega)
  rw [fixpProduct_ofInt, roundTie_quotient_mul even even' _ hscale scale.isLt]
  · intro hsgn
    obtain ⟨hlo, hhi⟩ := hu hsgn
    exact ⟨le_roundTie even hden le_rfl (by omega),
      Int.lt_of_le_sub_one (roundTie_le even hden (by decide) (by omega))⟩
  · intro hsgn
    obtain ⟨hlo, hhi⟩ := hs hsgn
    exact ⟨le_roundTie even hden (by decide) (by omega),
      Int.lt_of_le_sub_one (roundTie_le even hden (by decide) (by omega))⟩

/-! ## The bytes of a field, both ways -/

/-- The bytes of a field are those of the number they make. -/
theorem fieldBytes_fieldValue (w16 le : Bool) {bs : List Byte} (h : bs.length = fieldLen w16) :
    fieldBytes w16 le (fieldValue le bs) = bs := by
  have hlow (a b : Byte) : BitVec.ofNat 8 (a.toNat + 256 * b.toNat) = a := by
    refine BitVec.eq_of_toNat_eq ?_
    rw [BitVec.toNat_ofNat]
    omega
  have hhigh (a b : Byte) : BitVec.ofNat 8 ((a.toNat + 256 * b.toNat) / 256) = b := by
    refine BitVec.eq_of_toNat_eq ?_
    rw [BitVec.toNat_ofNat]
    omega
  cases w16 with
  | false =>
    obtain ⟨a, rfl⟩ := List.length_eq_one_iff.mp h
    simp [fieldBytes, fieldValue]
  | true =>
    obtain ⟨a, b, rfl⟩ := List.length_eq_two.mp h
    cases le <;> simp [fieldBytes, fieldValue, hlow, hhigh, Nat.add_comm]

theorem exists_orderedBytes (w16 le : Bool) {bs : List Byte} (h : bs.length = fieldLen w16) :
    ∃ w, bs = orderedBytes w16 le w :=
  ⟨_, (fieldBytes_fieldValue w16 le h).symm.trans (fieldBytes_eq_orderedBytes w16 le _)⟩

/-- A number and its field's number, signed or not, have the same bytes. -/
theorem orderedBytes_fieldNumber (w16 le sgn : Bool) (w : BitVec 16) :
    orderedBytes w16 le (BitVec.ofInt 16 (fieldNumber w16 sgn w)) = orderedBytes w16 le w := by
  have hmod : fieldNumber w16 sgn w % 2 ^ fieldBits w16 = (w.toNat : Int) % 2 ^ fieldBits w16 := by
    rw [fieldNumber_eq]
    split <;> simp
  rw [← orderedBytes_emod, hmod, orderedBytes_emod, BitVec.ofInt_natCast, BitVec.ofNat_toNat, BitVec.setWidth_eq]

/-- The low N bits of the stored number, as a signed number, are the value (43_packer.md R163). -/
theorem toInt_stored_of_representable {n : Nat} {v : Int} (hn : 1 ≤ n) (h16 : n ≤ 16) (hlo : -2 ^ (n - 1) ≤ v)
    (hhi : v ≤ 2 ^ (n - 1) - 1) : (BitVec.ofNat n (BitVec.ofInt 16 (v % 2 ^ n)).toNat).toInt = v := by
  have hpow : (2 : Int) ^ n ≤ 2 ^ 16 := pow_le_pow_right₀ (by decide) h16
  have hpos : (0 : Int) < 2 ^ n := by positivity
  have hlow : BitVec.ofNat n (BitVec.ofInt 16 (v % 2 ^ n)).toNat = BitVec.ofInt n v := by
    have hnonneg := Int.emod_nonneg v hpos.ne'
    have hlt := Int.emod_lt_of_pos v hpos
    have hword : (BitVec.ofInt 16 (v % 2 ^ n)).toNat = (v % 2 ^ n).toNat := by
      rw [BitVec.toNat_ofInt, Int.emod_eq_of_lt hnonneg (by push_cast; omega)]
    refine BitVec.eq_of_toNat_eq ?_
    rw [hword, BitVec.toNat_ofNat, BitVec.toNat_ofInt, Nat.mod_eq_of_lt (by zify; omega)]
    push_cast
    rfl
  rw [hlow, BitVec.toInt_ofInt_eq_self (by omega) hlo (by omega)]

theorem bytesAt_of_packedField {bs : List Byte} {adv n : Nat} {s t : State} (h : PackedField bs adv s t)
    (hn : n = bs.length) : bytesAt t (payBase + s.cpp.cur.toNat) n = bs := hn ▸ h.2.1

/-- The legal parameters of TWOS (30_encoding.md R72). -/
theorem twosLegal_iff {w16 : Bool} {n : BitVec 5} :
    twosLegal w16 n = true ↔ 1 ≤ n.toNat ∧ n.toNat ≤ fieldBits w16 := by
  simp only [twosLegal, Bool.and_eq_true, decide_eq_true_eq]

/-- The register an unpack descriptor wrote. -/
theorem getx_unpackedField (xr : XIndex) (w : Word) (adv : Nat) (s : State) :
    getx (unpackedField xr w adv s) xr = some w := getx_setx_self xr w s

end Sys2Proof.Machine

namespace Sys2Proof.Proofs
open Sys2Proof.Machine

/-- Settles O46: the low N bits of the stored number, read as a signed number, are the value. -/
theorem twosRoundTripIsExact : Obligations.TwosRoundTripIsExact := by
  intro s t u xr yr w16 le n x hl hr hx hlo hhi hc ht hu hp hbytes
  obtain ⟨h1, hn⟩ := twosLegal_iff.mp hl
  rw [fieldBits_eq] at hn
  obtain ⟨t', ht', hstored⟩ := twosStoresARepresentableValue s (.twos xr w16 le n) xr w16 le n x (.inl rfl) h1 hn hr hx
    hlo hhi hc
  obtain rfl : t' = t := Host.Outcome.next.inj (ht'.symm.trans ht)
  rw [bytesAt_of_packedField hstored (by cases w16 <;> cases le <;> rfl)] at hbytes
  refine ⟨_, twosReadsTheLowBitsAsSigned u (.twos yr w16 le n) yr w16 le n _ (.inl rfl) h1 hn hu hp hbytes, ?_⟩
  have h16 : n.toNat ≤ 16 := hn.trans (by cases w16 <;> decide)
  rw [getx_unpackedField, toInt_stored_of_representable h1 h16 hlo hhi, BitVec.ofInt_toInt]

/-- Settles O47: the rounded quotient, multiplied back, is less than half away from the stored number. -/
theorem fixpStoredNumberSurvivesTheRoundTrip : Obligations.FixpStoredNumberSurvivesTheRoundTrip := by
  intro u v s xr yr w16 le sgn scale x hscale hu hp hv hx hr hy hc
  obtain ⟨w, hw⟩ := exists_orderedBytes w16 le (bytesAt_length u (rxpayBase + u.cpp.cur.toNat) (fieldLen w16))
  have hread := fixpReadsTheRoundedQuotient u (.fixp xr w16 le sgn scale) xr w16 le sgn scale w (.inl rfl) hscale hu hp
    (fieldLen_eq w16 ▸ hw)
  obtain rfl := Host.Outcome.next.inj (hv.symm.trans hread)
  obtain rfl := Option.some.inj ((getx_unpackedField _ _ _ u).symm.trans hx)
  have hproduct := fixpProduct_fieldNumber u.cfg.tieEven s.cfg.tieEven w16 sgn w hscale
  obtain ⟨hunsigned, hsigned⟩ := fieldNumber_bounds w16 sgn w
  rw [← hproduct] at hsigned
  obtain ⟨t, ht, hstored⟩ := fixpStoresTheRoundedProduct s (.fixp yr w16 le sgn scale) yr w16 le sgn scale _ (.inl rfl)
    hscale hr hy (fun h => hproduct.trans_le (fieldBits_eq w16 ▸ (hunsigned h).2))
    (fun h => fieldBits_eq w16 ▸ hsigned h) hc
  refine ⟨t, ht, ?_⟩
  rw [bytesAt_of_packedField hstored (by cases w16 <;> cases le <;> rfl), ← fieldLen_eq, hw,
    ← orderedBytes_fieldNumber w16 le sgn w]
  exact congrArg (fun q => orderedBytes w16 le (BitVec.ofInt 16 q)) hproduct

/-- Settles O45: only an exact half has two nearest integers. -/
theorem roundTieIsNearest : Obligations.RoundTieIsNearest := by
  intro even num den hd q
  refine ⟨roundTie_within_half even hd, fun h he => ?even, fun h he => ?away⟩
  case even =>
    subst he
    exact roundTie_true_even_of_half (half_of_distance hd h)
  case away =>
    subst he
    exact abs_lt_roundTie_false_of_half hd (half_of_distance hd h)

end Sys2Proof.Proofs

/-! PROOF. The exceptions of the field descriptors: operand, domain and space in pack direction, a short or foreign payload
in unpack direction (43_packer.md R151, R156, R160 to R181; 60_exceptions.md R214, R217, R224). -/

namespace Sys2Proof.Machine

/-! ## One pass, with an exception (43_packer.md R151, R156, R181) -/

theorem packBytes_faulted {adv : Nat} {r : Except OpFault (List Byte)} {f : OpFault} {s : State} (hr : r = .error f) :
    Faulted (opFaultCode f) s.cpp.pc s.cpp.cur (pcAdvanced s) (packBytes s.cpp.pc adv r (pcAdvanced s)) := by
  rw [hr]
  exact opFaultEntry_faulted f s.cpp.pc s.cpp.cur (pcAdvanced s)

/-- Bytes that passed the operand and domain tests and do not fit into the payload. -/
theorem packBytes_overflow {adv : Nat} {r : Except OpFault (List Byte)} {bs : List Byte} {s : State} (hr : r = .ok bs)
    (hc : 255 < s.cpp.cur.toNat + bs.length) :
    Faulted 0x13 s.cpp.pc s.cpp.cur (pcAdvanced s) (packBytes s.cpp.pc adv r (pcAdvanced s)) := by
  have hover : (pcAdvanced s).cpp.cur.toNat + bs.length > Config.payMax := hc
  rw [hr, packBytes, if_pos hover]
  exact opFaultEntry_faulted .overflow s.cpp.pc s.cpp.cur (pcAdvanced s)

theorem unpackBytes_underrun {k adv : Nat} {value : List Byte → Except OpFault (List (XIndex × Word))} {s : State}
    (h : s.dec.rxp.plen.toNat < s.cpp.cur.toNat + k) :
    Faulted 0x21 s.cpp.pc s.cpp.cur (pcAdvanced s) (unpackBytes s.cpp.pc k adv value (pcAdvanced s)) := by
  have hshort : (pcAdvanced s).cpp.cur.toNat + k > (pcAdvanced s).dec.rxp.plen.toNat := h
  rw [unpackBytes, if_pos hshort]
  exact opFaultEntry_faulted .unpackUnderrun s.cpp.pc s.cpp.cur (pcAdvanced s)

theorem unpackBytes_faulted {k adv : Nat} {value : List Byte → Except OpFault (List (XIndex × Word))} {f : OpFault}
    {s : State} (hc : s.cpp.cur.toNat + k ≤ s.dec.rxp.plen.toNat)
    (hv : value (bytesAt s (rxpayBase + s.cpp.cur.toNat) k) = .error f) :
    Faulted (opFaultCode f) s.cpp.pc s.cpp.cur (pcAdvanced s) (unpackBytes s.cpp.pc k adv value (pcAdvanced s)) := by
  have hfit : ¬ (pcAdvanced s).cpp.cur.toNat + k > (pcAdvanced s).dec.rxp.plen.toNat := Nat.not_lt.mpr hc
  have hread : value (bytesAt (pcAdvanced s) (rxpayBase + (pcAdvanced s).cpp.cur.toNat) k) = .error f := hv
  rw [unpackBytes, if_neg hfit, hread]
  exact opFaultEntry_faulted f s.cpp.pc s.cpp.cur (pcAdvanced s)

/-! ## What each descriptor does once RUN's own tests have passed -/

section
variable {s : State} {i : Instr} {xr : XIndex} {w16 le sgn adv : Bool}

theorem exec_enum8_of_pack (hr : PackReady s) (set : BitVec 5) :
    exec (.enum8 xr set) s =
      .next (packBytes s.cpp.pc 1 (enum8Bytes xr set (pcAdvanced s)) (pcAdvanced s)) :=
  congrArg Host.Outcome.next (runField_pack hr)

theorem exec_twos_of_pack {n : BitVec 5} (hr : PackReady s) (hi : TwosForm i xr w16 le n)
    (hl : twosLegal w16 n = true) :
    exec i s = .next (packBytes s.cpp.pc (fieldLen w16) (twosBytes xr w16 le n (pcAdvanced s)) (pcAdvanced s)) := by
  rw [exec_of_twosForm hi, twosField, hl, runField_pack hr]

theorem exec_fixp_of_pack {scale : BitVec 16} (hr : PackReady s) (hi : FixpForm i xr w16 le sgn scale)
    (hl : fixpLegal scale = true) :
    exec i s =
      .next (packBytes s.cpp.pc (fieldLen w16) (fixpBytes xr w16 le sgn scale (pcAdvanced s)) (pcAdvanced s)) := by
  rw [exec_of_fixpForm hi, fixpField, hl, runField_pack hr]

theorem exec_bitf_of_pack {wid : BitVec 4} {pos : BitVec 3} (hr : PackReady s) (hi : BitfForm i xr adv wid pos)
    (hl : bitfLegal wid pos = true) :
    exec i s =
      .next (packBytes s.cpp.pc (bitfAdvance adv) (bitfBytes xr wid pos (pcAdvanced s)) (pcAdvanced s)) := by
  rw [exec_of_bitfForm hi, bitfField, hl, runField_pack hr]

theorem exec_rtimer_of_pack {xr2 : XIndex} (hr : PackReady s) :
    exec (.rtimer xr xr2) s =
      .next (packBytes s.cpp.pc 1 (rtimerBytes xr xr2 (pcAdvanced s)) (pcAdvanced s)) :=
  congrArg Host.Outcome.next (runField_pack hr)

theorem exec_tail_of_pack (hr : PackReady s) :
    exec .tail s =
      .next (packBytes s.cpp.pc s.cpp.tailLen.toNat (.ok (bytesAt s tailBase s.cpp.tailLen.toNat)) (pcAdvanced s)) :=
  congrArg Host.Outcome.next (runField_pack hr)

theorem exec_enum8_of_unpack (hr : UnpackReady s) (set : BitVec 5) :
    exec (.enum8 xr set) s =
      .next (unpackBytes s.cpp.pc 1 1 (enum8Value xr set (pcAdvanced s)) (pcAdvanced s)) :=
  congrArg Host.Outcome.next (runField_unpack hr)

theorem exec_twos_of_unpack {n : BitVec 5} (hr : UnpackReady s) (hi : TwosForm i xr w16 le n)
    (hl : twosLegal w16 n = true) :
    exec i s = .next (unpackBytes s.cpp.pc (fieldLen w16) (fieldLen w16) (twosRead xr le n) (pcAdvanced s)) := by
  rw [exec_of_twosForm hi, twosField, hl, runField_unpack hr]

theorem exec_fixp_of_unpack {scale : BitVec 16} (hr : UnpackReady s) (hi : FixpForm i xr w16 le sgn scale)
    (hl : fixpLegal scale = true) :
    exec i s = .next (unpackBytes s.cpp.pc (fieldLen w16) (fieldLen w16)
      (fixpRead xr w16 le sgn scale (pcAdvanced s)) (pcAdvanced s)) := by
  rw [exec_of_fixpForm hi, fixpField, hl, runField_unpack hr]

theorem exec_bitf_of_unpack {wid : BitVec 4} {pos : BitVec 3} (hr : UnpackReady s) (hi : BitfForm i xr adv wid pos)
    (hl : bitfLegal wid pos = true) :
    exec i s = .next (unpackBytes s.cpp.pc 1 (bitfAdvance adv) (bitfRead xr wid pos) (pcAdvanced s)) := by
  rw [exec_of_bitfForm hi, bitfField, hl, runField_unpack hr]

theorem exec_rtimer_of_unpack {xr2 : XIndex} (hr : UnpackReady s) :
    exec (.rtimer xr xr2) s = .next (unpackBytes s.cpp.pc 1 1 (rtimerRead xr xr2) (pcAdvanced s)) :=
  congrArg Host.Outcome.next (runField_unpack hr)

end

/-! ## The operand test: a register the host has not written (43_packer.md R151) -/

section
variable {s : State} {xr : XIndex}

theorem enum8Bytes_of_unwritten (h : getx s xr = none) (set : BitVec 5) : enum8Bytes xr set s = .error .operand := by
  simp only [enum8Bytes, operand_of_none h]

theorem twosBytes_of_unwritten (h : getx s xr = none) (w16 le : Bool) (n : BitVec 5) :
    twosBytes xr w16 le n s = .error .operand := by
  simp only [twosBytes, operand_of_none h]

theorem fixpBytes_of_unwritten (h : getx s xr = none) (w16 le sgn : Bool) (scale : BitVec 16) :
    fixpBytes xr w16 le sgn scale s = .error .operand := by
  simp only [fixpBytes, operand_of_none h]

theorem bitfBytes_of_unwritten (h : getx s xr = none) (wid : BitVec 4) (pos : BitVec 3) :
    bitfBytes xr wid pos s = .error .operand := by
  simp only [bitfBytes, operand_of_none h]

/-- Either register of an RTIMER. -/
theorem rtimerBytes_of_unwritten {xr2 : XIndex} (h : getx s xr = none ∨ getx s xr2 = none) :
    rtimerBytes xr xr2 s = .error .operand := by
  cases hx : getx s xr with
  | none => simp only [rtimerBytes, operand_of_none hx]
  | some x =>
    have hx2 : getx s xr2 = none := h.resolve_left (by simp [hx])
    simp only [rtimerBytes, operand_of_some hx, operand_of_none hx2]

end

/-! ## The domain test (43_packer.md R160, R163, R166, R170, R175) -/

section
variable {s : State} {xr : XIndex} {x : Word}

theorem enum8Bytes_of_foreign {set : BitVec 5} (hx : getx s xr = some x)
    (h : 255 < x.toNat ∨ esetHas s set x.toNat = false) : enum8Bytes xr set s = .error .enum := by
  simp only [enum8Bytes, operand_of_some hx]
  split
  · rfl
  · next hbyte => rw [h.resolve_left hbyte, if_neg nofun]

theorem enum8Bytes_of_byte {set : BitVec 5} (hx : getx s xr = some x) (hbyte : x.toNat ≤ 255)
    (h : esetHas s set x.toNat = true) : enum8Bytes xr set s = .ok [BitVec.ofNat 8 x.toNat] := by
  simp only [enum8Bytes, operand_of_some hx, if_neg (Nat.not_lt.mpr hbyte), if_pos h]

theorem twosStored_of_unrepresentable {n : Nat} {v : Int} (h : v < -2 ^ (n - 1) ∨ 2 ^ (n - 1) - 1 < v) :
    twosStored n v = .error .range := by
  simp only [twosStored, Nat.cast_pow, Nat.cast_ofNat]
  exact if_pos h

theorem twosBytes_of_unrepresentable {n : BitVec 5} (hx : getx s xr = some x)
    (h : x.toInt < -2 ^ (n.toNat - 1) ∨ 2 ^ (n.toNat - 1) - 1 < x.toInt) (w16 le : Bool) :
    twosBytes xr w16 le n s = .error .range := by
  simp only [twosBytes, operand_of_some hx, twosStored_of_unrepresentable h]

theorem twosBytes_of_representable {n : BitVec 5} (hx : getx s xr = some x) (hn : 1 ≤ n.toNat)
    (hlo : -2 ^ (n.toNat - 1) ≤ x.toInt) (hhi : x.toInt ≤ 2 ^ (n.toNat - 1) - 1) (w16 le : Bool) :
    twosBytes xr w16 le n s = .ok (fieldBytes w16 le (x.toInt % 2 ^ n.toNat).toNat) := by
  simp only [twosBytes, operand_of_some hx, twosStored_of_representable hn hlo hhi]

theorem fixpStored_of_unfit {tieEven sgn : Bool} {fw scale : Nat} {x : Word}
    (h : (sgn = false ∧ 2 ^ fw - 1 < fixpProduct tieEven sgn scale x)
      ∨ (sgn = true ∧ (fixpProduct tieEven sgn scale x < -2 ^ (fw - 1)
        ∨ 2 ^ (fw - 1) - 1 < fixpProduct tieEven sgn scale x))) :
    fixpStored tieEven fw sgn scale x = .error .range := by
  have hq : roundTie tieEven ((if sgn then x.toInt else (x.toNat : Int)) * scale) 65536 =
      fixpProduct tieEven sgn scale x := rfl
  simp only [fixpStored, hq, Nat.cast_pow, Nat.cast_ofNat]
  rcases h with ⟨hsgn, hbig⟩ | ⟨hsgn, hout⟩
  · exact if_pos ⟨hsgn, hbig⟩
  · rw [if_neg (by simp [hsgn]), if_pos ⟨hsgn, hout⟩]

theorem fixpBytes_of_unfit {w16 sgn : Bool} {scale : BitVec 16} (hx : getx s xr = some x)
    (h : (sgn = false ∧ 2 ^ fieldBits w16 - 1 < fixpProduct s.cfg.tieEven sgn scale.toNat x)
      ∨ (sgn = true ∧ (fixpProduct s.cfg.tieEven sgn scale.toNat x < -2 ^ (fieldBits w16 - 1)
        ∨ 2 ^ (fieldBits w16 - 1) - 1 < fixpProduct s.cfg.tieEven sgn scale.toNat x))) (le : Bool) :
    fixpBytes xr w16 le sgn scale s = .error .range := by
  simp only [fixpBytes, operand_of_some hx, fixpStored_of_unfit h]

theorem fixpBytes_of_fits {w16 sgn : Bool} {scale : BitVec 16} (hx : getx s xr = some x)
    (hu : sgn = false → fixpProduct s.cfg.tieEven sgn scale.toNat x ≤ 2 ^ fieldBits w16 - 1)
    (hs : sgn = true → -2 ^ (fieldBits w16 - 1) ≤ fixpProduct s.cfg.tieEven sgn scale.toNat x
      ∧ fixpProduct s.cfg.tieEven sgn scale.toNat x ≤ 2 ^ (fieldBits w16 - 1) - 1) (le : Bool) :
    fixpBytes xr w16 le sgn scale s =
      .ok (fieldBytes w16 le (fixpProduct s.cfg.tieEven sgn scale.toNat x % 2 ^ fieldBits w16).toNat) := by
  simp only [fixpBytes, operand_of_some hx, fixpStored_of_fits (by cases w16 <;> decide) hu hs]

theorem bitfBytes_of_wide {wid : BitVec 4} (hx : getx s xr = some x) (h : 2 ^ wid.toNat ≤ x.toNat) (pos : BitVec 3) :
    bitfBytes xr wid pos s = .error .range := by
  have hpos := Nat.two_pow_pos wid.toNat
  have hwide : x.toNat > 2 ^ wid.toNat - 1 := by omega
  simp only [bitfBytes, operand_of_some hx, if_pos hwide]

theorem rtimerBytes_of_out_of_range {xr2 : XIndex} {sec : Word} (hx : getx s xr = some x) (hx2 : getx s xr2 = some sec)
    (h : x.toInt < 0 ∨ sec.toInt < 0 ∨ 15 < roundTie s.cfg.tieEven (sec.toInt * 4) 983040) :
    rtimerBytes xr xr2 s = .error .range := by
  simp only [rtimerBytes, operand_of_some hx, operand_of_some hx2, rtimerStored_eq, if_pos h]

theorem rtimerBytes_of_in_range {xr2 : XIndex} {sec : Word} (hx : getx s xr = some x) (hx2 : getx s xr2 = some sec)
    (hm : 0 ≤ x.toInt) (hs : 0 ≤ sec.toInt) (hn : roundTie s.cfg.tieEven (sec.toInt * 4) 983040 ≤ 15) :
    rtimerBytes xr xr2 s = .ok [BitVec.ofNat 8
      (16 * (min x.toInt 15).toNat + (roundTie s.cfg.tieEven (sec.toInt * 4) 983040).toNat)] := by
  have hin : ¬ (x.toInt < 0 ∨ sec.toInt < 0 ∨ 15 < roundTie s.cfg.tieEven (sec.toInt * 4) 983040) := by omega
  simp only [rtimerBytes, operand_of_some hx, operand_of_some hx2, rtimerStored_eq, if_neg hin]

/-- A received byte outside the set (43_packer.md R160). -/
theorem enum8Value_of_foreign {set : BitVec 5} {b : Byte} (h : esetHas s set b.toNat = false) :
    enum8Value xr set s [b] = .error .unpackEnum := if_neg (by simp [h])

end

end Sys2Proof.Machine

namespace Sys2Proof.Proofs
open Sys2Proof.Machine

/-- Settles O41: the operand test is the first of every descriptor that reads a register. -/
theorem unwrittenOperandRaisesOperand : Obligations.UnwrittenOperandRaisesOperand := by
  intro s xr hr hv i hi
  have hx : getx (pcAdvanced s) xr = none := getx_eq_none.mpr hv
  rcases hi with ⟨set, rfl⟩ | ⟨w16, le, n, hi, hl⟩ | ⟨w16, le, sgn, scale, hi, hl⟩ | ⟨adv, wid, pos, hi, hl⟩
    | ⟨x2, rfl | rfl⟩
  · exact ⟨_, exec_enum8_of_pack hr set, packBytes_faulted (enum8Bytes_of_unwritten hx set)⟩
  · exact ⟨_, exec_twos_of_pack hr hi hl, packBytes_faulted (twosBytes_of_unwritten hx w16 le n)⟩
  · exact ⟨_, exec_fixp_of_pack hr hi hl, packBytes_faulted (fixpBytes_of_unwritten hx w16 le sgn scale)⟩
  · exact ⟨_, exec_bitf_of_pack hr hi hl, packBytes_faulted (bitfBytes_of_unwritten hx wid pos)⟩
  · exact ⟨_, exec_rtimer_of_pack hr, packBytes_faulted (rtimerBytes_of_unwritten (.inl hx))⟩
  · exact ⟨_, exec_rtimer_of_pack hr, packBytes_faulted (rtimerBytes_of_unwritten (.inr hx))⟩

/-- Settles O42: each descriptor's domain test answers an exception in place of bytes. -/
theorem outOfDomainValuesRaise : Obligations.OutOfDomainValuesRaise := by
  intro s xr x hr hx
  have hx' : getx (pcAdvanced s) xr = some x := hx
  refine ⟨fun set h => ?enum8, fun i w16 le n hi hl h => ?twos, fun i w16 le sgn scale hi hl h => ?fixp,
    fun i adv wid pos hi hl h => ?bitf, fun xr2 sec hx2 h => ?rtimer⟩
  case enum8 => exact ⟨_, exec_enum8_of_pack hr set, packBytes_faulted (enum8Bytes_of_foreign hx' h)⟩
  case twos => exact ⟨_, exec_twos_of_pack hr hi hl, packBytes_faulted (twosBytes_of_unrepresentable hx' h w16 le)⟩
  case fixp =>
    rw [← fieldBits_eq] at h
    exact ⟨_, exec_fixp_of_pack hr hi hl, packBytes_faulted (fixpBytes_of_unfit hx' h le)⟩
  case bitf => exact ⟨_, exec_bitf_of_pack hr hi hl, packBytes_faulted (bitfBytes_of_wide hx' h pos)⟩
  case rtimer => exact ⟨_, exec_rtimer_of_pack hr, packBytes_faulted (rtimerBytes_of_out_of_range hx' hx2 h)⟩

/-- Settles O43: the space test comes before the value of the bytes. -/
theorem shortOrForeignPayloadsRaise : Obligations.ShortOrForeignPayloadsRaise := by
  intro s hr
  refine ⟨fun i xr k hi hshort => ?short, fun xr set hc hb => ?foreign⟩
  case short =>
    rcases hi with ⟨set, rfl, rfl⟩ | ⟨w16, le, n, hi, hl, rfl⟩ | ⟨w16, le, sgn, scale, hi, hl, rfl⟩
      | ⟨adv, wid, pos, hi, hl, rfl⟩ | ⟨xr2, rfl, rfl⟩
    · exact ⟨_, exec_enum8_of_unpack hr set, unpackBytes_underrun hshort⟩
    · exact ⟨_, exec_twos_of_unpack hr hi hl, unpackBytes_underrun hshort⟩
    · exact ⟨_, exec_fixp_of_unpack hr hi hl, unpackBytes_underrun hshort⟩
    · exact ⟨_, exec_bitf_of_unpack hr hi hl, unpackBytes_underrun hshort⟩
    · exact ⟨_, exec_rtimer_of_unpack hr, unpackBytes_underrun hshort⟩
  case foreign =>
    have hb' : esetHas (pcAdvanced s) set (byteAt s (rxpayBase + s.cpp.cur.toNat)).toNat = false := hb
    exact ⟨_, exec_enum8_of_unpack hr set, unpackBytes_faulted hc (enum8Value_of_foreign hb')⟩

/-- Settles O44: the space test comes last, with the bytes the domain test let through. -/
theorem fullPayloadRaisesOverflow : Obligations.FullPayloadRaisesOverflow := by
  intro s hr
  refine ⟨fun hc => ⟨_, exec_tail_of_pack hr, packBytes_overflow rfl (by rwa [bytesAt_length])⟩, fun xr x hx => ?_⟩
  have hx' : getx (pcAdvanced s) xr = some x := hx
  refine ⟨fun set hbyte hm hc => ?enum8, fun i w16 le n hi hl hlo hhi hc => ?twos,
    fun i w16 le sgn scale hi hscale hu hs hc => ?fixp, fun i adv wid pos hi hl hv hc => ?bitf,
    fun xr2 sec hx2 hm hs hn hc => ?rtimer⟩
  case enum8 => exact ⟨_, exec_enum8_of_pack hr set, packBytes_overflow (enum8Bytes_of_byte hx' hbyte hm) hc⟩
  case twos =>
    have hbytes := twosBytes_of_representable hx' (twosLegal_iff.mp hl).1 hlo hhi w16 le
    exact ⟨_, exec_twos_of_pack hr hi hl, packBytes_overflow hbytes (by rw [twosBytes_length hbytes]; exact hc)⟩
  case fixp =>
    rw [← fieldBits_eq] at hu hs
    have hbytes := fixpBytes_of_fits hx' hu hs le
    exact ⟨_, exec_fixp_of_pack hr hi (fixpLegal_of_ne_zero hscale),
      packBytes_overflow hbytes (by rw [fixpBytes_length hbytes]; exact hc)⟩
  case bitf => exact ⟨_, exec_bitf_of_pack hr hi hl, packBytes_overflow (bitfBytes_of_fits hx' hv) hc⟩
  case rtimer => exact ⟨_, exec_rtimer_of_pack hr, packBytes_overflow (rtimerBytes_of_in_range hx' hx2 hm hs hn) hc⟩

end Sys2Proof.Proofs

/-! PROOF. TAIL, RTIMER, END and the fetches of RUN; PACK and UNPACK that fault before RUN, and PACK of a lone END
(43_packer.md R154 to R157, R173, R175, R180). -/

namespace Sys2Proof.Machine

/-! ## TAIL and RTIMER without an exception (43_packer.md R173, R175) -/

theorem exec_tail_of_unpack {s : State} (hr : UnpackReady s) : exec .tail s = .next (unpackTail (pcAdvanced s)) :=
  congrArg Host.Outcome.next (runField_unpack hr)

/-- Everything TAIL does in unpack direction. -/
theorem stored_unpackTail (s : State) :
    Stored tailBase (bytesAt s (rxpayBase + s.cpp.cur.toNat) (s.dec.rxp.plen.toNat - s.cpp.cur.toNat)) s
      (unpackTail s) := stored_of_mem rfl rfl rfl

/-- The byte an RTIMER stores: minutes in the high nibble, the multiple of 3.75 seconds in the low one. -/
theorem toNat_rtimerByte {m n : Int} (hm : 0 ≤ m) (hn : 0 ≤ n) (hn15 : n ≤ 15) :
    ((BitVec.ofNat 8 (16 * (min m 15).toNat + n.toNat)).toNat : Int) = 16 * min m 15 + n := by
  rw [BitVec.toNat_ofNat]
  omega

/-- An unpack descriptor that has its bytes and raises nothing writes its registers and moves the cursor. -/
theorem unpackBytes_of_value {k adv : Nat} {value : List Byte → Except OpFault (List (XIndex × Word))}
    {ws : List (XIndex × Word)} {s : State} (hc : s.cpp.cur.toNat + k ≤ s.dec.rxp.plen.toNat)
    (hv : value (bytesAt s (rxpayBase + s.cpp.cur.toNat) k) = .ok ws) :
    unpackBytes s.cpp.pc k adv value (pcAdvanced s) = advance adv (setxs ws (pcAdvanced s)) := by
  have hfit : ¬ (pcAdvanced s).cpp.cur.toNat + k > (pcAdvanced s).dec.rxp.plen.toNat := Nat.not_lt.mpr hc
  have hread : value (bytesAt (pcAdvanced s) (rxpayBase + (pcAdvanced s).cpp.cur.toNat) k) = .ok ws := hv
  rw [unpackBytes, if_neg hfit, hread]

/-! ## RUN (43_packer.md R156, R157) -/

/-- Every word RUN fetches has a meaning. -/
theorem exists_execDescriptor (w : Word) (s : State) : ∃ t, execDescriptor (decodeDesc w) s = .next t := by
  rcases decodeDesc_isField w with h | h
  · exact ⟨endShape s, by rw [h]; rfl⟩
  · cases hd : s.cpp.pkDir with
    | pack =>
      obtain ⟨t, ht, -⟩ := field_pack_outcome h hd
      exact ⟨t, ht⟩
    | unpack =>
      obtain ⟨t, ht, -⟩ := field_unpack_outcome h hd
      exact ⟨t, ht⟩

theorem endShape_of_pack {s : State} (h : s.cpp.pkDir = .pack) :
    endShape s = { s with cpp := { s.cpp with plen := s.cpp.cur, payOk := true, pkState := .done } } := by
  simp only [endShape, h]

theorem endShape_of_unpack {s : State} (h : s.cpp.pkDir = .unpack) :
    endShape s = { s with cpp := { s.cpp with pkState := .done } } := by
  simp only [endShape, h]

/-- RUN that fetches an END ends there. -/
theorem runLoop_end {n : Nat} {s : State} (he : decodeDesc (shmWord s s.cpp.pc) = .endShape) :
    runLoop (n + 1) s = .next (endShape s) := by
  have hend : execDescriptor (decodeDesc (shmWord s s.cpp.pc)) s = .next (endShape s) := by rw [he]; rfl
  have hdone : (endShape s).cpp.pkState ≠ .idle := by unfold endShape; split <;> simp
  rw [runLoop_succ hend, if_neg hdone]

/-! ## PACK and UNPACK before RUN (43_packer.md R154, R155) -/

theorem execPack_of_wide {s : State} {code : BitVec 16} (hcc : s.cfg.cc16 = false) (hw : 0xFF < code.toNat) :
    execPack code s = .next (opFaultEntry .range 0 0 (packStart code s)) := by
  have hwide : (!s.cfg.cc16 && decide (code.toNat > 0x00FF)) = true := by simp [hcc, hw]
  simp only [execPack, if_pos hwide]

theorem execPack_of_unknown {s : State} {code : BitVec 16} (hfit : s.cfg.cc16 = true ∨ code.toNat ≤ 0xFF)
    (hl : lookup s code = none) : execPack code s = .next (opFaultEntry .unknownCommand 0 0 (packStart code s)) := by
  have hnarrow : ¬ (!s.cfg.cc16 && decide (code.toNat > 0x00FF)) = true := by
    rcases hfit with h | h
    · simp [h]
    · simp [h]
  simp only [execPack, if_neg hnarrow, hl]

theorem execUnpack_of_short {s : State} (hv : s.dec.rxpValid = true)
    (hs : s.dec.rxp.plen.toNat < codeLen s.cfg.cc16) :
    execUnpack s = .next (opFaultEntry .unpackUnderrun 0 0 (unpackStart s)) := by
  simp only [execUnpack, if_pos hv, if_pos hs]

theorem execUnpack_of_unknown {s : State} (hv : s.dec.rxpValid = true)
    (hp : codeLen s.cfg.cc16 ≤ s.dec.rxp.plen.toNat) (hl : lookup s (receivedCode s) = none) :
    execUnpack s = .next (opFaultEntry .unknownCommand 0 0 (unpackCode s)) := by
  simp only [execUnpack, if_pos hv, if_neg (Nat.not_lt.mpr hp), hl]

/-- The registers as PACK sets them before its first test, PAY not yet cleared (43_packer.md R154). -/
def packRegisters (code : BitVec 16) (s : State) : State :=
  { s with cpp := { s.cpp with pkDir := .pack, pkState := .idle, payOk := false, cmdCode := code, cur := 0, plen := 0 } }

theorem packStart_eq_store (code : BitVec 16) (s : State) :
    packStart code s = store payBase (List.replicate 255 0) (packRegisters code s) := rfl

/-- An exception of PACK before RUN: clearing PAY is nothing more than the exception says of PAY. -/
theorem packStart_faulted (f : OpFault) (code : BitVec 16) (s : State) :
    Faulted (opFaultCode f) 0 0 (packRegisters code s) (opFaultEntry f 0 0 (packStart code s)) := by
  obtain ⟨hunits, hbytes⟩ := opFaultEntry_faulted f 0 0 (packStart code s)
  have hclear : SameMemoryOutside payBase 255 (packRegisters code s) (packStart code s) := by
    rw [packStart_eq_store]
    exact (stored_store _ _ (packRegisters code s)).outside le_rfl (by rw [List.length_replicate])
  exact ⟨hunits, hclear.trans hbytes⟩

end Sys2Proof.Machine

namespace Sys2Proof.Proofs
open Sys2Proof.Machine

/-- Settles O4: what RUN fetches is a descriptor, and inside RUN a descriptor means what `exec` says. -/
theorem runExecutesTheFetchedDescriptor : Obligations.RunExecutesTheFetchedDescriptor := by
  intro n s i hi
  obtain rfl : decodeDesc (shmWord s s.cpp.pc) = i := Except.ok.inj hi
  obtain ⟨t, ht⟩ := exists_execDescriptor (shmWord s s.cpp.pc) s
  refine ⟨t, (exec_eq_execDescriptor (decodeDesc_isField _) s).trans ht, fun h => ?_, fun h => ?_⟩
  · rw [runLoop_succ ht, if_pos h]
  · rw [runLoop_succ ht, if_neg h]

/-- Settles O38: TAIL is a store of as many bytes as it has, in either direction. -/
theorem tailCopiesTheTail : Obligations.TailCopiesTheTail := by
  intro s
  refine ⟨fun hr hc => ⟨_, exec_tail_of_pack hr, ?packed⟩, fun hr _ => ⟨_, exec_tail_of_unpack hr, rfl, ?unpacked⟩⟩
  case packed => exact packBytes_packedField rfl (by rwa [bytesAt_length])
  case unpacked => exact stored_unpackTail (pcAdvanced s)

/-- Settles O39: the byte stored has the minutes in one nibble and the multiple of 3.75 seconds in the other. -/
theorem rtimerCarriesMinutesAndSeconds : Obligations.RtimerCarriesMinutesAndSeconds := by
  intro s xr xr2
  refine ⟨fun m sec hr hm hsec hm0 hs0 hn hc => ?packed, fun hr hc => ?unpacked⟩
  case packed =>
    have hn0 : 0 ≤ roundTie s.cfg.tieEven (sec.toInt * 4) 983040 := roundTie_nonneg _ (by omega) (by decide)
    exact ⟨_, _, exec_rtimer_of_pack hr,
      packBytes_packedField (rtimerBytes_of_in_range (s := pcAdvanced s) hm hsec hm0 hs0 hn) hc,
      toNat_rtimerByte hm0 hn0 hn⟩
  case unpacked =>
    rw [exec_rtimer_of_unpack hr, unpackBytes_of_value hc rfl]
    rfl

/-- Settles O49: RUN fetches the END at the entry's start. -/
theorem packOfALoneEndStagesTheCode : Obligations.PackOfALoneEndStagesTheCode := by
  intro s code start hfit hl he bs
  have hrun : exec (.pack code) s = .next (endShape (packEntered code start s)) := by
    have hword := (catalogueKept_packEntered code start s).shmWord start
    have hend : decodeDesc (shmWord (packEntered code start s) start) = .endShape := by
      rw [hword]
      exact Except.ok.inj he
    exact (execPack_of_entry hfit hl).trans (runLoop_end hend)
  rw [endShape_of_pack rfl] at hrun
  exact ⟨_, hrun, by rw [packEntered_eq]; rfl, stored_packEntered code start s⟩

/-- Settles O51: each fault is taken with descriptor index and cursor 0. -/
theorem faultsBeforeRunRecordNoDescriptor : Obligations.FaultsBeforeRunRecordNoDescriptor := by
  intro s
  refine ⟨fun code => ⟨fun hcc hw => ?wide, fun hfit hl => ?unknown⟩, fun hv => ⟨fun hs => ?short, fun hp hl => ?foreign⟩⟩
  case wide => exact ⟨_, execPack_of_wide hcc hw, packStart_faulted .range code s⟩
  case unknown => exact ⟨_, execPack_of_unknown hfit hl, packStart_faulted .unknownCommand code s⟩
  case short => exact ⟨_, execUnpack_of_short hv hs, opFaultEntry_faulted .unpackUnderrun 0 0 (unpackStart s)⟩
  case foreign => exact ⟨_, execUnpack_of_unknown hv hp hl, opFaultEntry_faulted .unknownCommand 0 0 (unpackCode s)⟩

/-- Settles O30: END, direction by direction. -/
theorem endCompletesTheShape : Obligations.EndCompletesTheShape := by
  intro s
  exact ⟨fun h => congrArg Host.Outcome.next (endShape_of_pack h),
    fun h => congrArg Host.Outcome.next (endShape_of_unpack h)⟩

end Sys2Proof.Proofs

/-! PROOF. The refusals and the receiver's switches (44_host.md R192 to R196, R200). -/

namespace Sys2Proof.Machine

/-! ## RXEN and RXDIS, case by case (44_host.md R193, R194) -/

theorem execRxen_of_off {s : State} (h : s.fd.rxEn = false) :
    execRxen s = .next { s with fd := { rxEn := true, acc := [], accOvf := false, ict := 0 } } :=
  if_neg (by simp [h])

theorem execRxen_of_on {s : State} (h : s.fd.rxEn = true) : execRxen s = .next s := if_pos h

theorem execRxdis_of_on {s : State} (h : s.fd.rxEn = true) :
    execRxdis s = .next { flushAcc s with fd := { (flushAcc s).fd with rxEn := false } } := if_pos h

theorem execRxdis_of_off {s : State} (h : s.fd.rxEn = false) : execRxdis s = .next s := if_neg (by simp [h])

/-! ## Refused commands (44_host.md R200) -/

theorem execUnpack_of_none {s : State} (h : s.dec.rxpValid = false) :
    execUnpack s = .next (refusedWith 0x30 s) := by
  rw [execUnpack, if_neg (by simp [h])]
  rfl

theorem execReservedCmd_eq (s : State) : execReservedCmd s = .next (refusedWith 0x31 s) :=
  congrArg Host.Outcome.next (refuse_eq .badcmd s)

/-! ## Commands that are never refused (44_host.md R200) -/

/-- The record of `t` is that of `s`, or holds neither of the two refusal codes. -/
def NoRefusal (s t : State) : Prop := t.op = s.op ∨ (t.op.opCode ≠ 0x30 ∧ t.op.opCode ≠ 0x31)

/-- FLUSH records no fault and no refusal. -/
theorem flushAcc_op (s : State) : (flushAcc s).op = s.op := by
  by_cases ha : s.fd.acc = []
  · rw [flushAcc_of_empty ha]
  · by_cases hq : s.fq.length < 4
    · rw [flushAcc_of_room ha hq]
    · rw [flushAcc_of_full ha (Nat.le_of_not_lt hq)]

/-- The codes PACK can record are those of its exceptions. -/
theorem PackEnded.noRefusal {code : BitVec 16} {s t : State} (h : PackEnded code s t) : NoRefusal s t := by
  rcases h.outcome with ⟨-, -, -, hop, -⟩ | ⟨-, -, -, hcode, -⟩
  · exact .inl hop
  · exact .inr ⟨ne_of_mem_of_not_mem hcode (by decide), ne_of_mem_of_not_mem hcode (by decide)⟩

theorem execPack_noRefusal {code : BitVec 16} {s t : State} (h : execPack code s = .next t) : NoRefusal s t := by
  obtain ⟨u, hu, he⟩ := execPack_ends code s
  obtain rfl : u = t := Host.Outcome.next.inj (hu.symm.trans h)
  exact he.noRefusal

theorem execRxen_noRefusal {s t : State} (h : execRxen s = .next t) : NoRefusal s t := by
  cases he : s.fd.rxEn
  · cases (execRxen_of_off he).symm.trans h
    exact .inl rfl
  · cases (execRxen_of_on he).symm.trans h
    exact .inl rfl

theorem execRxdis_noRefusal {s t : State} (h : execRxdis s = .next t) : NoRefusal s t := by
  cases he : s.fd.rxEn
  · cases (execRxdis_of_off he).symm.trans h
    exact .inl rfl
  · cases (execRxdis_of_on he).symm.trans h
    exact .inl (flushAcc_op s)

/-- SOFTRESET clears the record. -/
theorem softReset_noRefusal (s : State) : NoRefusal s (softReset s) := by
  have hop : (softReset s).op = { opCode := 0, opPc := 0, opCur := 0 } := rfl
  rw [NoRefusal, hop]
  exact .inr ⟨by decide, by decide⟩

end Sys2Proof.Machine

namespace Sys2Proof.Proofs
open Sys2Proof.Machine

/-- Settles O27: each command's guard refuses it, and of the six others only PACK and SOFTRESET touch the record. -/
theorem refusalsRecordTheirCodeAndChangeNothingElse : Obligations.RefusalsRecordTheirCodeAndChangeNothingElse := by
  intro s
  refine ⟨execEncode_of_refused, execSend_of_refused, execRxpop_of_none, execUnpack_of_none,
    fun w hw => ⟨?decoded, execReservedCmd_eq s⟩, fun i t hi h => ?never⟩
  case decoded => exact congrArg Except.ok (decodeCmd_of_reserved hw)
  case never =>
    rcases hi with ⟨code, rfl⟩ | rfl | rfl | rfl | rfl | rfl
    · exact execPack_noRefusal h
    · cases h
      exact .inl rfl
    · exact execRxen_noRefusal h
    · exact execRxdis_noRefusal h
    · cases h
      exact .inl rfl
    · exact Host.Outcome.next.inj h ▸ softReset_noRefusal s

/-- Settles O28, by the position of the receiver's switch. -/
theorem receiverSwitchesAndClrx : Obligations.ReceiverSwitchesAndClrx := by
  intro s
  exact ⟨execRxen_of_off, execRxen_of_on, fun he => ⟨flushAcc s, rfl, execRxdis_of_on he⟩, execRxdis_of_off,
    clearX s, rfl, rfl⟩

end Sys2Proof.Proofs

/-! PROOF. The block never halts (60_exceptions.md R215; 70_reset_and_hazards.md R250): exceptions and refusals are entries into
registers, so every operation answers a next state, and the only loop, RUN, ends. -/

namespace Sys2Proof.Machine

/-- The operation answers a next state: neither a fault of the model nor an instruction without a meaning. -/
def Answers (o : Host.Outcome State Fault Refusal) : Prop := ∃ t, o = .next t

theorem Answers.next (t : State) : Answers (.next t) := ⟨t, rfl⟩

theorem Answers.ite {c : Prop} [Decidable c] {o p : Host.Outcome State Fault Refusal} (ho : Answers o)
    (hp : Answers p) : Answers (if c then o else p) := by
  split
  · exact ho
  · exact hp

/-! ## The descriptors, PACK and UNPACK (43_packer.md R154 to R156) -/

/-- A field descriptor that raises an exception enters it, and that is its next state. -/
theorem answers_exec_descriptor {i : Instr} (hi : i = .endShape ∨ isField i = true) (s : State) :
    Answers (exec i s) := by
  rw [exec_eq_execDescriptor hi]
  rcases hi with rfl | hf
  · exact .next (endShape s)
  · cases hd : s.cpp.pkDir with
    | pack =>
      obtain ⟨t, ht, -⟩ := field_pack_outcome hf hd
      exact ⟨t, ht⟩
    | unpack =>
      obtain ⟨t, ht, -⟩ := field_unpack_outcome hf hd
      exact ⟨t, ht⟩

theorem answers_execPack (code : BitVec 16) (s : State) : Answers (execPack code s) := by
  obtain ⟨t, ht, -⟩ := execPack_ends code s
  exact ⟨t, ht⟩

theorem answers_execUnpack (s : State) : Answers (execUnpack s) := by
  cases hv : s.dec.rxpValid with
  | true =>
    obtain ⟨t, ht, -⟩ := execUnpack_ends hv
    exact ⟨t, ht⟩
  | false => exact ⟨_, execUnpack_of_none hv⟩

/-! ## DECODE (42_codec.md R124, R125) -/

theorem answers_execDecode (s : State) : Answers (execDecode s) := by
  cases hv : s.dec.rxpValid with
  | true => exact ⟨s, execDecode_of_full hv⟩
  | false =>
    cases hq : s.fq with
    | nil => exact ⟨s, execDecode_of_empty hq⟩
    | cons c rest => exact ⟨_, execDecode_of_head hv hq⟩

/-! ## Every operation and every step -/

/-- PACK and UNPACK end, a descriptor has one outcome, DECODE goes by its guard; a command with a guard answers on both
sides of it, and the rest are a next state by definition. -/
theorem answers_exec (i : Instr) (s : State) : Answers (exec i s) := by
  by_cases hi : i = .endShape ∨ isField i = true
  · exact answers_exec_descriptor hi s
  · cases i
    case pack code => exact answers_execPack code s
    case unpack => exact answers_execUnpack s
    case decode => exact answers_execDecode s
    case encode | send | rxpop | rxen | rxdis | txbyte => exact .ite (.next _) (.next _)
    case noevent | rxbyte | tick | rxbyteTick | flush => exact .next _
    case nop | clrx | softreset | reservedCmd | csum | cmdtabEntry => exact .next _
    case endShape => exact absurd (.inl rfl) hi
    all_goals exact absurd (.inr rfl) hi

theorem answers_step (s : State) : Answers (step s) := by
  unfold step
  cases nextAction s with
  | run i => exact answers_exec i (takeEvent s)
  | read off => exact .next (hostRead off (takeEvent s))
  | write off data => exact .next (hostWrite off data (takeEvent s))
  | reset => exact .next (hardReset (takeEvent s))

end Sys2Proof.Machine

namespace Sys2Proof.Proofs
open Sys2Proof.Machine

/-- Settles O5: every operation answers, so every step does, whatever action it takes. -/
theorem machineNeverHalts : Obligations.MachineNeverHalts := ⟨answers_exec, answers_step⟩

end Sys2Proof.Proofs
